-- ==== Sys2Proof/Word.lean ====
section
/-! DEFINITION. The word and byte types of the TXQ engine: every register and every command word is 32 bits wide
(10_state.md, 30_encoding.md R100); external memory is addressed in bytes (20_memory.md R70). -/

namespace Sys2Proof

/-- A register or a command word (10_state.md: "Every register is 32 bits wide"). -/
abbrev Word := BitVec 32

/-- One byte of external memory (20_memory.md R70). -/
abbrev Byte := BitVec 8

end Sys2Proof
end

