-- ==== Sys2Proof/Syntax.lean ====
section
/-! DEFINITION. The commands of the engine, one constructor per row of spec/opcode_table.json (30_encoding.md R102).
A command carries its PLANE and FLAG fields where the opcode uses them, and nothing else: every other operand is a
register field (30_encoding.md R107). -/

namespace Sys2Proof

/-- Plane index p (00_scope.md R13): 0 is luma (Y), 1 the first chroma plane (U), 2 the second (V). -/
inductive Plane where
  | y
  | u
  | v
deriving DecidableEq, Repr

/-- The twelve commands of 30_encoding.md R102. -/
inductive Instr where
  /-- 0x00 NOP: no operation (R250). -/
  | nop
  /-- 0x01 RESID: residual of plane p (R135). -/
  | resid (p : Plane)
  /-- 0x02 FTX: forward transform and three-quarter energy of plane p (R136). -/
  | ftx (p : Plane)
  /-- 0x03 QUANT: quantize and inverse quantize plane p (R174). -/
  | quant (p : Plane)
  /-- 0x04 ITX: inverse transform of plane p (R138). -/
  | itx (p : Plane)
  /-- 0x05 RECON: reconstruction of plane p; `skip` is FLAG (0 adds IRES, 1 adds nothing) (R139). -/
  | recon (p : Plane) (skip : Bool)
  /-- 0x06 TXFLAG: has-coefficient derivation of plane p (R177). -/
  | txflag (p : Plane)
  /-- 0x07 STCOEF: coefficient store of plane p; `dequant` is FLAG (0 stores QCOEF, 1 stores DQCOEF) (R178). -/
  | stcoef (p : Plane) (dequant : Bool)
  /-- 0x08 CFL_AC: CfL subsampling and DC removal; `fromPred` is FLAG (0 reads RECON luma, 1 PRED luma) (R202). -/
  | cflAc (fromPred : Bool)
  /-- 0x09 CFL_PRED: CfL prediction of chroma plane p (R206). -/
  | cflPred (p : Plane)
  /-- 0x0A DQP: delta-QP derivation; `toQidx` is FLAG (1 also writes QIDX) (R232). -/
  | dqp (toQidx : Bool)
  /-- 0x0B TU_CLR: clear transform-unit results (R251). -/
  | tuClr
deriving DecidableEq, Repr

end Sys2Proof
end

