-- ==== Sys2Proof/Machine/Types.lean ====
section
/-! DEFINITION. The enumerations of the spec as types: buffers, depths, bit depths, chroma formats, transform sizes and
types, error codes; and the three small indexed families of registers. What each code number means, and every function
over these types, stands in Machine/Arith.lean and Machine/Geometry.lean. -/

namespace Sys2Proof

/-- Buffer index b (10_state.md R43): 0 SRC, 1 PRED, 2 RECON. -/
inductive Buf where
  | src
  | pred
  | recon
deriving DecidableEq, Repr

/-- Block depth d of the delta-QP buckets (10_state.md R48): 0 to 3. -/
inductive Depth where
  | d0
  | d1
  | d2
  | d3
deriving DecidableEq, Repr

/-- Bit depth bd of samples (10_state.md R34): 8, 10 or 12. -/
inductive BitDepth where
  | b8
  | b10
  | b12
deriving DecidableEq, Repr

/-- Chroma format (10_state.md R34): 4:2:0, 4:2:2 or 4:4:4. -/
inductive ChromaFormat where
  | f420
  | f422
  | f444
deriving DecidableEq, Repr

/-- QP modulation (10_state.md R34): off, superblock level, block level. -/
inductive QpMod where
  | off
  | superblock
  | block
deriving DecidableEq, Repr

/-- Prediction mode (10_state.md R36): the two recognised values of TU_CFG.PMODE. -/
inductive PredMode where
  | intra
  | inter
deriving DecidableEq, Repr

/-- Transform size (30_encoding.md R104), named TX_WxH, width first, in the order of the codes 0 to 18. -/
inductive TxSize where
  | tx4x4
  | tx8x8
  | tx16x16
  | tx32x32
  | tx64x64
  | tx4x8
  | tx8x4
  | tx8x16
  | tx16x8
  | tx16x32
  | tx32x16
  | tx32x64
  | tx64x32
  | tx4x16
  | tx16x4
  | tx8x32
  | tx32x8
  | tx16x64
  | tx64x16
deriving DecidableEq, Repr

/-- One-dimensional transform kernels (30_encoding.md R105). -/
inductive Kernel where
  | dct
  | adst
  | flipadst
  | identity
  | wht
deriving DecidableEq, Repr

/-- Transform type (30_encoding.md R105), in the order of the codes 0 to 16. -/
inductive TxType where
  | dctDct
  | adstDct
  | dctAdst
  | adstAdst
  | flipadstDct
  | dctFlipadst
  | flipadstFlipadst
  | adstFlipadst
  | flipadstAdst
  | idtx
  | vDct
  | hDct
  | vAdst
  | hAdst
  | vFlipadst
  | hFlipadst
  | whtWht
deriving DecidableEq, Repr

/-- The two quantizer step classes (41_quant.md R170): DC at raster index 0, AC elsewhere. -/
inductive CoefKind where
  | dc
  | ac
deriving DecidableEq, Repr

/-- Kind of an external memory access (20_memory.md R77). -/
inductive AccessKind where
  | read
  | write
deriving DecidableEq, Repr

/-- One access a command makes to external memory (20_memory.md R77): (address, width in bytes, kind). The address is an
unbounded integer, as SampleAddr computes it (R75). -/
structure Access where
  addr : Nat
  width : Nat
  kind : AccessKind
deriving DecidableEq, Repr

/-- THE MODEL'S OWN form of MEM_ADMIT (20_memory.md R77): an access of `width` bytes and this kind is admitted at the
addresses lo to hi - 1. Every predicate on the accesses to the 2^32 bytes is a list of such rules. DESIGN CHOICE (log
entry 4), safe. -/
structure AdmitRule where
  lo : Nat
  hi : Nat
  width : Nat
  kind : AccessKind
deriving DecidableEq, Repr

/-- The error codes of 60_exceptions.md R270, 0x01 to 0x0E in order. -/
inductive ErrCode where
  | badOpc
  | rsvd
  | badPlane
  | badCfg
  | badTxsz
  | badTxtype
  | badPmode
  | seq
  | align
  | bus
  | range
  | badCfl
  | badQpb
  | badDqp
deriving DecidableEq, Repr

/-- What `raise Error(CODE)` carries out of a command (00_scope.md R11): the code, and the faulting byte address where the
error has one (60_exceptions.md R271). -/
structure CmdError where
  code : ErrCode
  addr : Option Nat
deriving DecidableEq, Repr

/-- One value per plane, for the registers written `REG[p]` (00_scope.md R7). -/
structure PerPlane (α : Type) where
  y : α
  u : α
  v : α
deriving DecidableEq, Repr

/-- One value per buffer, for the registers written `REG[b][p]`. -/
structure PerBuf (α : Type) where
  src : α
  pred : α
  recon : α
deriving DecidableEq, Repr

/-- One value per block depth, for the registers written `REG[d]`. -/
structure PerDepth (α : Type) where
  d0 : α
  d1 : α
  d2 : α
  d3 : α
deriving DecidableEq, Repr

end Sys2Proof
end

