-- ==== Sys2Proof/Machine/Arith.lean ====
section
/-! DEFINITION. The notation of 00_scope.md R7-R9 as functions (bit fields, floor shifts, the two rounding helpers, clamps),
row-major arrays, and reading and writing one entry of an indexed register. -/

namespace Sys2Proof

/-- `v[hi:lo]` read as an unsigned integer (00_scope.md R7). -/
def bits (w : Word) (hi lo : Nat) : Nat := w.toNat / 2 ^ lo % 2 ^ (hi + 1 - lo)

/-- The word with ones in bits hi down to lo. -/
def fieldMask (hi lo : Nat) : Word := BitVec.ofNat 32 ((2 ^ (hi + 1 - lo) - 1) * 2 ^ lo)

/-- `REG[hi:lo] <- v`: the other bits keep their value (00_scope.md R7, R10). -/
def setBits (w : Word) (hi lo v : Nat) : Word :=
  (w &&& ~~~ fieldMask hi lo) ||| (BitVec.ofNat 32 (v % 2 ^ (hi + 1 - lo)) <<< lo)

/-- `a >> n`: the arithmetic shift, floor(a / 2^n) (00_scope.md R8). -/
def asr (a : Int) (n : Nat) : Int := a / 2 ^ n

/-- `round2(v, n) = (v + ((1 << n) >> 1)) >> n` (00_scope.md R9). -/
def round2 (v : Int) (n : Nat) : Int := asr (v + asr (2 ^ n) 1) n

/-- `round2signed(v, n)`: halves away from zero (00_scope.md R9). -/
def round2signed (v : Int) (n : Nat) : Int := if 0 ≤ v then round2 v n else - round2 (-v) n

/-- `clamp(v, lo, hi) = min(max(v, lo), hi)` (00_scope.md R8). -/
def clamp (v lo hi : Int) : Int := min (max v lo) hi

/-- bd as a number: 8, 10 or 12 (10_state.md R34). -/
def BitDepth.bits : BitDepth → Nat
  | .b8 => 8
  | .b10 => 10
  | .b12 => 12

/-- Sample width sw in bytes: 1 at bd = 8, else 2 (20_memory.md R73). -/
def BitDepth.bytes : BitDepth → Nat
  | .b8 => 1
  | .b10 => 2
  | .b12 => 2

/-- `clip_bd(v) = clamp(v, 0, 2^bd - 1)` (00_scope.md R8). -/
def clipBd (bd : BitDepth) (v : Int) : Int := clamp v 0 (2 ^ bd.bits - 1)

/-- The positions (r, c) of an h by w array, row-major: the loop order "for r in 0..h-1, c in 0..w-1". -/
def grid (h w : Nat) : List (Nat × Nat) := (List.range (h * w)).map fun i => (i / w, i % w)

/-- The h by w array with element f r c at (r, c), stored row-major. -/
def tabulate (h w : Nat) (f : Nat → Nat → Int) : List Int := (grid h w).map fun rc => f rc.1 rc.2

/-- Element [r][c] of a row-major array of width w. -/
def elem (a : List Int) (w r c : Nat) : Int := a.getD (r * w + c) 0

theorem length_grid (h w : Nat) : (grid h w).length = h * w := by simp [grid]

theorem length_tabulate (h w : Nat) (f : Nat → Nat → Int) : (tabulate h w f).length = h * w := by
  simp [tabulate, length_grid]

theorem getElem_tabulate (h w : Nat) (f : Nat → Nat → Int) (i : Nat) (hi : i < (tabulate h w f).length) :
    (tabulate h w f)[i] = f (i / w) (i % w) := by
  simp [tabulate, grid]

/-- The number of plane p (00_scope.md R13). -/
def Plane.index : Plane → Nat
  | .y => 0
  | .u => 1
  | .v => 2

/-- The number of buffer b (10_state.md R43). -/
def Buf.index : Buf → Nat
  | .src => 0
  | .pred => 1
  | .recon => 2

/-- The number of depth d (10_state.md R48). -/
def Depth.index : Depth → Nat
  | .d0 => 0
  | .d1 => 1
  | .d2 => 2
  | .d3 => 3

/-- `REG[p]`. -/
def PerPlane.get {α : Type} (x : PerPlane α) : Plane → α
  | .y => x.y
  | .u => x.u
  | .v => x.v

/-- `REG[p] <- a`. -/
def PerPlane.set {α : Type} (x : PerPlane α) (p : Plane) (a : α) : PerPlane α :=
  match p with
  | .y => { x with y := a }
  | .u => { x with u := a }
  | .v => { x with v := a }

/-- The same value for every plane. -/
def PerPlane.all {α : Type} (a : α) : PerPlane α := ⟨a, a, a⟩

/-- `REG[b]`. -/
def PerBuf.get {α : Type} (x : PerBuf α) : Buf → α
  | .src => x.src
  | .pred => x.pred
  | .recon => x.recon

/-- `REG[b] <- a`. -/
def PerBuf.set {α : Type} (x : PerBuf α) (b : Buf) (a : α) : PerBuf α :=
  match b with
  | .src => { x with src := a }
  | .pred => { x with pred := a }
  | .recon => { x with recon := a }

/-- The same value for every buffer. -/
def PerBuf.all {α : Type} (a : α) : PerBuf α := ⟨a, a, a⟩

/-- `REG[d]`. -/
def PerDepth.get {α : Type} (x : PerDepth α) : Depth → α
  | .d0 => x.d0
  | .d1 => x.d1
  | .d2 => x.d2
  | .d3 => x.d3

/-- `REG[d] <- a`. -/
def PerDepth.set {α : Type} (x : PerDepth α) (d : Depth) (a : α) : PerDepth α :=
  match d with
  | .d0 => { x with d0 := a }
  | .d1 => { x with d1 := a }
  | .d2 => { x with d2 := a }
  | .d3 => { x with d3 := a }

/-- The same value for every depth. -/
def PerDepth.all {α : Type} (a : α) : PerDepth α := ⟨a, a, a, a⟩

end Sys2Proof
end

