-- ==== Sys2Proof/WellFormed.lean ====
section
/-! DEFINITION. Which terms of `Instr` are commands of the engine: the legal planes of 30_encoding.md R102. -/

namespace Sys2Proof

/-- The plane is one the opcode allows (30_encoding.md R102): CFL_PRED allows planes 1 and 2 only. -/
def Instr.wf : Instr → Bool
  | .nop => true
  | .resid _ => true
  | .ftx _ => true
  | .quant _ => true
  | .itx _ => true
  | .recon _ _ => true
  | .txflag _ => true
  | .stcoef _ _ => true
  | .cflAc _ => true
  | .cflPred p => p != .y
  | .dqp _ => true
  | .tuClr => true

end Sys2Proof
end

