-- ==== Sys2Proof/Decode.lean ====
section
/-! DEFINITION. Decoding a command word (30_encoding.md R100-R103, R108) and encoding a command. `decode` is total on the
2^32 words and rejects by the name of the dispatch error, in the order of R101. -/

namespace Sys2Proof

/-- CMD[7:0] OPC (30_encoding.md R100). -/
def cmdOpc (w : Word) : Nat := bits w 7 0

/-- CMD[9:8] PLANE. -/
def cmdPlane (w : Word) : Nat := bits w 9 8

/-- CMD[10] FLAG. -/
def cmdFlag (w : Word) : Nat := bits w 10 10

/-- CMD[31:11], reserved. -/
def cmdRsvd (w : Word) : Nat := bits w 31 11

/-- PLANE is unused by the opcode: RSVD if it is not 0 (30_encoding.md R101). -/
def unusedPlane (p : Nat) (k : Except ErrCode Instr) : Except ErrCode Instr := if p ≠ 0 then .error .rsvd else k

/-- FLAG is unused by the opcode: RSVD if it is not 0 (30_encoding.md R101). -/
def unusedFlag (f : Nat) (k : Except ErrCode Instr) : Except ErrCode Instr := if f ≠ 0 then .error .rsvd else k

/-- PLANE is used by the opcode with the planes 0, 1, 2: BAD_PLANE for 3 (30_encoding.md R101, R102). -/
def usedPlane (p : Nat) (k : Plane → Instr) : Except ErrCode Instr :=
  match p with
  | 0 => .ok (k .y)
  | 1 => .ok (k .u)
  | 2 => .ok (k .v)
  | _ => .error .badPlane

/-- PLANE is used by the opcode with the planes 1 and 2: BAD_PLANE for 0 and 3 (30_encoding.md R102, CFL_PRED). -/
def usedChroma (p : Nat) (k : Plane → Instr) : Except ErrCode Instr :=
  match p with
  | 1 => .ok (k .u)
  | 2 => .ok (k .v)
  | _ => .error .badPlane

/-- The opcode map of 30_encoding.md R102, with the checks of PLANE and FLAG in the order of R101. -/
def decodeOpc (opc p f : Nat) : Except ErrCode Instr :=
  match opc with
  | 0x00 => unusedPlane p (unusedFlag f (.ok .nop))
  | 0x01 => unusedFlag f (usedPlane p .resid)
  | 0x02 => unusedFlag f (usedPlane p .ftx)
  | 0x03 => unusedFlag f (usedPlane p .quant)
  | 0x04 => unusedFlag f (usedPlane p .itx)
  | 0x05 => usedPlane p fun q => .recon q (f == 1)
  | 0x06 => unusedFlag f (usedPlane p .txflag)
  | 0x07 => usedPlane p fun q => .stcoef q (f == 1)
  | 0x08 => unusedPlane p (.ok (.cflAc (f == 1)))
  | 0x09 => unusedFlag f (usedChroma p .cflPred)
  | 0x0A => unusedPlane p (.ok (.dqp (f == 1)))
  | 0x0B => unusedPlane p (unusedFlag f (.ok .tuClr))
  | _ => .error .badOpc

/-- Decode a command word (30_encoding.md R101): BAD_OPC, then RSVD for CMD[31:11], then the opcode's own fields. -/
def decode (w : Word) : Except ErrCode Instr :=
  if 0x0C ≤ cmdOpc w then .error .badOpc
  else if cmdRsvd w ≠ 0 then .error .rsvd
  else decodeOpc (cmdOpc w) (cmdPlane w) (cmdFlag w)

/-- The word with these fields and zeros elsewhere (30_encoding.md R100). -/
def cmdWord (opc p f : Nat) : Word := BitVec.ofNat 32 (opc + p * 2 ^ 8 + f * 2 ^ 10)

/-- The command word of a command (30_encoding.md R103). -/
def encode : Instr → Word
  | .nop => cmdWord 0x00 0 0
  | .resid p => cmdWord 0x01 p.index 0
  | .ftx p => cmdWord 0x02 p.index 0
  | .quant p => cmdWord 0x03 p.index 0
  | .itx p => cmdWord 0x04 p.index 0
  | .recon p f => cmdWord 0x05 p.index f.toNat
  | .txflag p => cmdWord 0x06 p.index 0
  | .stcoef p f => cmdWord 0x07 p.index f.toNat
  | .cflAc f => cmdWord 0x08 0 f.toNat
  | .cflPred p => cmdWord 0x09 p.index 0
  | .dqp f => cmdWord 0x0A 0 f.toNat
  | .tuClr => cmdWord 0x0B 0 0

/-- The command read from a word given as a number, every bit above `nbits` being 0. -/
def decodeTableWord (nbits w : Nat) : Option Instr :=
  match decode (BitVec.ofNat 32 (w % 2 ^ nbits)) with
  | .ok i => some i
  | .error _ => none

end Sys2Proof
end

