-- ==== Sys2Proof/Machine/Geometry.lean ====
section
/-! DEFINITION. The operand enumerations of 30_encoding.md R104-R106 and 10_state.md R34-R36: what each code stands for,
the dimensions of a transform size, TX_VALID, the chroma subsampling shifts, and the error codes of 60_exceptions.md R270. -/

namespace Sys2Proof

/-- PIC_CFG.BD (10_state.md R34): 3 is illegal. -/
def BitDepth.ofCode : Nat → Option BitDepth
  | 0 => some .b8
  | 1 => some .b10
  | 2 => some .b12
  | _ => none

/-- PIC_CFG.CFMT (10_state.md R34): 3 is illegal. -/
def ChromaFormat.ofCode : Nat → Option ChromaFormat
  | 0 => some .f420
  | 1 => some .f422
  | 2 => some .f444
  | _ => none

/-- PIC_CFG.QPM (10_state.md R34): 3 is illegal. -/
def QpMod.ofCode : Nat → Option QpMod
  | 0 => some .off
  | 1 => some .superblock
  | 2 => some .block
  | _ => none

/-- TU_CFG.PMODE (10_state.md R36): 2 and 3 are unrecognised. -/
def PredMode.ofCode : Nat → Option PredMode
  | 0 => some .intra
  | 1 => some .inter
  | _ => none

/-- Horizontal chroma subsampling shift ssx (00_scope.md R13). -/
def ChromaFormat.ssx : ChromaFormat → Nat
  | .f420 => 1
  | .f422 => 1
  | .f444 => 0

/-- Vertical chroma subsampling shift ssy (00_scope.md R13). -/
def ChromaFormat.ssy : ChromaFormat → Nat
  | .f420 => 1
  | .f422 => 0
  | .f444 => 0

/-- TU_CFG.TXSZ (30_encoding.md R104): codes 19 to 31 are illegal. -/
def TxSize.ofCode : Nat → Option TxSize
  | 0 => some .tx4x4
  | 1 => some .tx8x8
  | 2 => some .tx16x16
  | 3 => some .tx32x32
  | 4 => some .tx64x64
  | 5 => some .tx4x8
  | 6 => some .tx8x4
  | 7 => some .tx8x16
  | 8 => some .tx16x8
  | 9 => some .tx16x32
  | 10 => some .tx32x16
  | 11 => some .tx32x64
  | 12 => some .tx64x32
  | 13 => some .tx4x16
  | 14 => some .tx16x4
  | 15 => some .tx8x32
  | 16 => some .tx32x8
  | 17 => some .tx16x64
  | 18 => some .tx64x16
  | _ => none

/-- Width w in samples (30_encoding.md R104). -/
def TxSize.width : TxSize → Nat
  | .tx4x4 => 4
  | .tx8x8 => 8
  | .tx16x16 => 16
  | .tx32x32 => 32
  | .tx64x64 => 64
  | .tx4x8 => 4
  | .tx8x4 => 8
  | .tx8x16 => 8
  | .tx16x8 => 16
  | .tx16x32 => 16
  | .tx32x16 => 32
  | .tx32x64 => 32
  | .tx64x32 => 64
  | .tx4x16 => 4
  | .tx16x4 => 16
  | .tx8x32 => 8
  | .tx32x8 => 32
  | .tx16x64 => 16
  | .tx64x16 => 64

/-- Height h in samples (30_encoding.md R104). -/
def TxSize.height : TxSize → Nat
  | .tx4x4 => 4
  | .tx8x8 => 8
  | .tx16x16 => 16
  | .tx32x32 => 32
  | .tx64x64 => 64
  | .tx4x8 => 8
  | .tx8x4 => 4
  | .tx8x16 => 16
  | .tx16x8 => 8
  | .tx16x32 => 32
  | .tx32x16 => 16
  | .tx32x64 => 64
  | .tx64x32 => 32
  | .tx4x16 => 16
  | .tx16x4 => 4
  | .tx8x32 => 32
  | .tx32x8 => 8
  | .tx16x64 => 64
  | .tx64x16 => 16

/-- Wc = min(w, 32): width of the coded region (30_encoding.md R104). -/
def TxSize.codedWidth (t : TxSize) : Nat := min t.width 32

/-- Hc = min(h, 32): height of the coded region (30_encoding.md R104). -/
def TxSize.codedHeight (t : TxSize) : Nat := min t.height 32

/-- Wc·Hc: the number of coded coefficients (41_quant.md R173). -/
def TxSize.codedArea (t : TxSize) : Nat := t.codedHeight * t.codedWidth

/-- log_scale = (w·h > 256) + (w·h > 1024) (30_encoding.md R104). -/
def TxSize.logScale (t : TxSize) : Nat :=
  (if t.width * t.height > 256 then 1 else 0) + (if t.width * t.height > 1024 then 1 else 0)

/-- TU_CFG.TT fields (30_encoding.md R105): codes 17 to 31 are illegal. -/
def TxType.ofCode : Nat → Option TxType
  | 0 => some .dctDct
  | 1 => some .adstDct
  | 2 => some .dctAdst
  | 3 => some .adstAdst
  | 4 => some .flipadstDct
  | 5 => some .dctFlipadst
  | 6 => some .flipadstFlipadst
  | 7 => some .adstFlipadst
  | 8 => some .flipadstAdst
  | 9 => some .idtx
  | 10 => some .vDct
  | 11 => some .hDct
  | 12 => some .vAdst
  | 13 => some .hAdst
  | 14 => some .vFlipadst
  | 15 => some .hFlipadst
  | 16 => some .whtWht
  | _ => none

/-- The kernel down the columns, across the h rows (30_encoding.md R105). -/
def TxType.vertical : TxType → Kernel
  | .dctDct => .dct
  | .adstDct => .adst
  | .dctAdst => .dct
  | .adstAdst => .adst
  | .flipadstDct => .flipadst
  | .dctFlipadst => .dct
  | .flipadstFlipadst => .flipadst
  | .adstFlipadst => .adst
  | .flipadstAdst => .flipadst
  | .idtx => .identity
  | .vDct => .dct
  | .hDct => .identity
  | .vAdst => .adst
  | .hAdst => .identity
  | .vFlipadst => .flipadst
  | .hFlipadst => .identity
  | .whtWht => .wht

/-- The kernel along the rows, across the w columns (30_encoding.md R105). -/
def TxType.horizontal : TxType → Kernel
  | .dctDct => .dct
  | .adstDct => .dct
  | .dctAdst => .adst
  | .adstAdst => .adst
  | .flipadstDct => .dct
  | .dctFlipadst => .flipadst
  | .flipadstFlipadst => .flipadst
  | .adstFlipadst => .flipadst
  | .flipadstAdst => .adst
  | .idtx => .identity
  | .vDct => .identity
  | .hDct => .dct
  | .vAdst => .identity
  | .hAdst => .adst
  | .vFlipadst => .identity
  | .hFlipadst => .flipadst
  | .whtWht => .wht

/-- exists(kernel, n): the lengths at which a one-dimensional kernel exists (30_encoding.md R106). The rule gives no set
for WHT, which TX_VALID decides before it asks; the 4 here is that decision again. DEDUCED (log entry 11), safe. -/
def Kernel.existsAt (k : Kernel) (n : Nat) : Bool :=
  match k with
  | .dct => n == 4 || n == 8 || n == 16 || n == 32 || n == 64
  | .adst => n == 4 || n == 8 || n == 16
  | .flipadst => n == 4 || n == 8 || n == 16
  | .identity => n == 4 || n == 8 || n == 16 || n == 32
  | .wht => n == 4

/-- TX_VALID(txsz, tt) (30_encoding.md R106). -/
def txValid (ts : TxSize) (tt : TxType) : Bool :=
  if tt = .whtWht then decide (ts = .tx4x4)
  else if (ts.width = 64 ∨ ts.height = 64) ∧ tt ≠ .dctDct then false
  else tt.vertical.existsAt ts.height && tt.horizontal.existsAt ts.width

/-- The value of STATUS.ERR_CODE for each error (60_exceptions.md R270). -/
def ErrCode.toByte : ErrCode → Byte
  | .badOpc => 0x01
  | .rsvd => 0x02
  | .badPlane => 0x03
  | .badCfg => 0x04
  | .badTxsz => 0x05
  | .badTxtype => 0x06
  | .badPmode => 0x07
  | .seq => 0x08
  | .align => 0x09
  | .bus => 0x0A
  | .range => 0x0B
  | .badCfl => 0x0C
  | .badQpb => 0x0D
  | .badDqp => 0x0E

end Sys2Proof
end

