-- ==== Sys2Proof/Machine/QuantMath.lean ====
section
/-! DEFINITION. The quantizer datapath of 41_quant.md R171-R173 as functions on integers: the parameters derived from a
step, one coefficient through the datapath, the end of block and the non-zero count. The step lookup QSTEP and the scan
SCAN are arguments here; Config.lean holds the OPEN ones. -/

namespace Sys2Proof

/-- The values the quantizer derives from one step d (41_quant.md R171). -/
structure QuantParams where
  quant : Int
  shift : Int
  zbin : Int
  round : Int
  dequant : Int
deriving DecidableEq, Repr

/-- InvertQuant(d): (quant, shift), with l = floor_log2(d), m = 1 + 2^(16 + l) div d (41_quant.md R171). -/
def invertQuant (d : Nat) : Int × Int :=
  let l := Nat.log2 d
  let m := 1 + 2 ^ (16 + l) / d
  ((m : Int) - 2 ^ 16, 2 ^ (16 - l))

/-- The threshold T of QzbinFactor for a bit depth (41_quant.md R171). -/
def BitDepth.zbinThreshold : BitDepth → Nat
  | .b8 => 148
  | .b10 => 592
  | .b12 => 2368

/-- QzbinFactor(qidx, bd), from the DC step d_DC (41_quant.md R171). -/
def qzbinFactor (qidx : BitVec 8) (bd : BitDepth) (dDc : Nat) : Int :=
  if qidx = 0 then 64 else if dDc < bd.zbinThreshold then 84 else 80

/-- QroundFactor(qidx) (41_quant.md R171). -/
def qroundFactor (qidx : BitVec 8) : Int := if qidx = 0 then 64 else 48

/-- The derived parameters for k ∈ {DC, AC}, from the step lookup (41_quant.md R171). -/
def quantParams (qstep : BitVec 8 → BitDepth → CoefKind → Nat) (qidx : BitVec 8) (bd : BitDepth) (k : CoefKind) : QuantParams :=
  let d := qstep qidx bd k
  { quant := (invertQuant d).1
    shift := (invertQuant d).2
    zbin := asr (qzbinFactor qidx bd (qstep qidx bd .dc) * d + 64) 7
    round := asr (qroundFactor qidx * d) 7
    dequant := d }

/-- The 16-bit clamp of the sum |c| + round, at bit depth 8 only (41_quant.md R172). -/
def clampSum (bd : BitDepth) (t : Int) : Int := if bd = .b8 then min t 32767 else t

/-- The quantized magnitude q of the clamped sum t (41_quant.md R172). -/
def quantMag (P : QuantParams) (ls : Nat) (t : Int) : Int := asr ((asr (t * P.quant) 16 + t) * P.shift) (16 - ls)

/-- QuantCoef(c, k, ls, bd): (QCOEF, DQCOEF) of one coefficient (41_quant.md R172). -/
def quantCoef (P : QuantParams) (ls : Nat) (bd : BitDepth) (c : Int) : Int × Int :=
  let a : Int := |c|
  let zb := round2 P.zbin ls
  let rd := round2 P.round ls
  if a < zb then (0, 0)
  else
    let q := quantMag P ls (clampSum bd (a + rd))
    let dq := asr (q * P.dequant) ls
    let sgn : Int := if c < 0 then -1 else 1
    (sgn * q, sgn * dq)

/-- k = DC at raster index 0, AC elsewhere (41_quant.md R172). -/
def CoefKind.ofIndex (rc : Nat) : CoefKind := if rc = 0 then .dc else .ac

/-- QuantCoef over a coded region of n coefficients in raster order (41_quant.md R174). -/
def quantBlock (qstep : BitVec 8 → BitDepth → CoefKind → Nat) (qidx : BitVec 8) (bd : BitDepth) (ls n : Nat)
    (coef : List Int) : List (Int × Int) :=
  (List.range n).map fun rc => quantCoef (quantParams qstep qidx bd (CoefKind.ofIndex rc)) ls bd (coef.getD rc 0)

/-- EOB over the first n scan positions: one past the last i with q[scan i] ≠ 0, or 0 (41_quant.md R173). -/
def eobOf (scan : Nat → Nat) (q : List Int) : Nat → Nat
  | 0 => 0
  | n + 1 => if q.getD (scan n) 0 ≠ 0 then n + 1 else eobOf scan q n

/-- NZ: the number of raster positions with a non-zero value (41_quant.md R173). -/
def nzOf (q : List Int) : Nat := q.countP (fun x => decide (x ≠ 0))

/-- At QINDEX 0 with the step 4, every multiple of 4 that the 16-bit clamp does not touch is reproduced exactly
(41_quant.md R174, corner cases). -/
theorem quantCoef_min_step (qstep : BitVec 8 → BitDepth → CoefKind → Nat) (bd : BitDepth) (k : CoefKind)
    (h : ∀ k, qstep 0 bd k = 4) (x : Int) (hx : |x| ≤ 8191) :
    quantCoef (quantParams qstep 0 bd k) 0 bd (4 * x) = (x, 4 * x) := by
  have hl : Nat.log2 4 = 2 := by decide
  have hq : quantParams qstep 0 bd k = ⟨1, 16384, 2, 2, 4⟩ := by
    have h' : ∀ k, qstep 0#8 bd k = 4 := h
    simp [quantParams, h', invertQuant, qzbinFactor, qroundFactor, asr, hl]
  have ha : |4 * x| = 4 * |x| := by rw [abs_mul]; rfl
  have hpos := abs_nonneg x
  rw [hq, quantCoef, ha]
  have hz : round2 2 0 = 2 := by decide
  simp only [hz]
  split
  · have : x = 0 := by rw [← abs_eq_zero]; omega
    simp [this]
  · have ht : clampSum bd (4 * |x| + 2) = 4 * |x| + 2 := by
      unfold clampSum; split
      · omega
      · rfl
    have hm : quantMag ⟨1, 16384, 2, 2, 4⟩ 0 (4 * |x| + 2) = |x| := by
      simp only [quantMag, asr]; omega
    have hd : asr (|x| * 4) 0 = 4 * |x| := by simp [asr]; omega
    simp only [ht, hm, hd]
    rcases le_or_gt 0 x with hx0 | hx0
    · have hn : ¬ 4 * x < 0 := by omega
      simp [hn, abs_of_nonneg hx0]
    · have hn : 4 * x < 0 := by omega
      simp [hn, abs_of_neg hx0]

end Sys2Proof
end

