-- ==== Sys2Proof/Config.lean ====
section
/-! DEFINITION. The OPEN parameters of the spec (00_scope.md R6, 93_implementation_defined.md Part C) and the contract the
spec puts on them. Every computation of the model takes them as an argument of type `Params`; the machine itself runs on
`Config.openParams`, an opaque constant without a body, of which Lean knows the contract and nothing else. So a statement
about the machine holds for EVERY instantiation that meets the contract.
DESIGN CHOICE (log entries 4, 5, 6), safe. -/

namespace Sys2Proof

/-- The OPEN parameters. -/
structure Params where
  /-- QSTEP(qidx, bd, k): the quantizer step (41_quant.md R170). -/
  qstep : BitVec 8 → BitDepth → CoefKind → Nat
  /-- FWD_TX(txsz, tt, bd, X), element (r, c); X is h·w integers in raster order (40_transform.md R131). -/
  fwdTx : TxSize → TxType → BitDepth → List Int → Nat → Nat → Int
  /-- INV_TX(txsz, tt, bd, D), element (r, c); D is Hc·Wc integers in raster order (40_transform.md R132). -/
  invTx : TxSize → TxType → BitDepth → List Int → Nat → Nat → Int
  /-- SCAN(txsz, tt): the raster index of a scan position (41_quant.md R173). -/
  scan : TxSize → TxType → Nat → Nat
  /-- MEM_ADMIT: the accesses the platform admits; State.reset and Platform.reset start from it (20_memory.md R77). -/
  memAdmit : List AdmitRule
  /-- N_ENGINES: the number of engine instances (60_exceptions.md R281). -/
  nEngines : Nat
  /-- What external memory holds where no agent has written: any value (93_implementation_defined.md I42). -/
  powerOnByte : Nat → Byte
deriving Inhabited

/-- The contract of QSTEP: 41_quant.md R170 (a) and (b). -/
def Params.StepContract (P : Params) : Prop :=
  (∀ qidx bd k, 4 ≤ P.qstep qidx bd k ∧ P.qstep qidx bd k ≤ 2 ^ 15 - 1) ∧ ∀ bd k, P.qstep 0 bd k = 4

/-- Zero maps to zero: 40_transform.md R133. -/
def Params.ZeroContract (P : Params) : Prop :=
  ∀ ts tt bd, txValid ts tt = true → ∀ r c, r < ts.height → c < ts.width →
    P.fwdTx ts tt bd (List.replicate (ts.height * ts.width) 0) r c = 0 ∧
    P.invTx ts tt bd (List.replicate ts.codedArea 0) r c = 0

/-- DQCOEF of the 4 by 4 WHT_WHT block with residual x, quantized at QINDEX 0 (40_transform.md R134). -/
def Params.losslessDq (P : Params) (bd : BitDepth) (x : List Int) : List Int :=
  (quantBlock P.qstep 0 bd (TxSize.logScale .tx4x4) 16 (tabulate 4 4 (P.fwdTx .tx4x4 .whtWht bd x))).map Prod.snd

/-- The lossless pair: 40_transform.md R134. -/
def Params.LosslessContract (P : Params) : Prop :=
  ∀ bd (x : List Int), x.length = 16 → (∀ e ∈ x, |e| ≤ 2 ^ bd.bits - 1) →
    tabulate 4 4 (P.invTx .tx4x4 .whtWht bd (P.losslessDq bd x)) = x

/-- SCAN is a permutation of 0 .. Wc·Hc - 1: 41_quant.md R173. -/
def Params.ScanContract (P : Params) : Prop :=
  ∀ ts tt, (∀ i, i < ts.codedArea → P.scan ts tt i < ts.codedArea) ∧
    ∀ i j, i < ts.codedArea → j < ts.codedArea → P.scan ts tt i = P.scan ts tt j → i = j

/-- What a model may assume of the parameters, and nothing else (40_transform.md R133, 41_quant.md R170, R173,
60_exceptions.md R281). -/
structure Params.Contract (P : Params) : Prop where
  step : P.StepContract
  zero : P.ZeroContract
  lossless : P.LosslessContract
  scan : P.ScanContract
  engines : 1 ≤ P.nEngines

/-- An instantiation that meets the contract: the constant step 4, the forward transform that multiplies by 4, the
inverse that divides by 4, the raster scan. It shows that the contract can be met, and nothing in the machine reads it. -/
def Params.example0 : Params where
  qstep _ _ _ := 4
  fwdTx ts _ _ x r c := 4 * elem x ts.width r c
  invTx ts _ _ d r c := if r < ts.codedHeight ∧ c < ts.codedWidth then elem d ts.codedWidth r c / 4 else 0
  scan _ _ i := i
  memAdmit := []
  nEngines := 1
  powerOnByte _ := 0

theorem Params.example0_zero : Params.example0.ZeroContract := by
  intro ts tt bd _ r c _ _
  simp [example0, elem]

theorem Params.example0_lossless : Params.example0.LosslessContract := by
  intro bd x hx hb
  have hmax : (2 : Int) ^ bd.bits - 1 ≤ 8191 := by cases bd <;> decide
  have hdq : ∀ i, (hi : i < 16) → (Params.example0.losslessDq bd x).getD i 0 = 4 * x[i] := fun i hi => by
    have hc : (tabulate 4 4 (Params.example0.fwdTx .tx4x4 .whtWht bd x)).getD i 0 = 4 * x[i] := by
      rw [List.getD_eq_getElem _ _ (by rw [length_tabulate]; omega), getElem_tabulate]
      have hi' : i / 4 * 4 + i % 4 = i := by omega
      show 4 * elem x 4 (i / 4) (i % 4) = _
      rw [elem, hi', List.getD_eq_getElem _ _ (by omega)]
    rw [losslessDq, List.getD_eq_getElem _ _ (by simp [quantBlock]; omega)]
    simp only [quantBlock, List.map_map, List.getElem_map, List.getElem_range, Function.comp_apply, hc]
    show (quantCoef _ 0 bd _).2 = _
    rw [quantCoef_min_step _ bd _ (fun _ => rfl) _ (le_trans (hb _ (List.getElem_mem _)) hmax)]
  refine List.ext_getElem (by rw [length_tabulate, hx]) fun i h1 h2 => ?_
  rw [getElem_tabulate]
  have hi' : i / 4 * 4 + i % 4 = i := by omega
  have hin : i / 4 < 4 ∧ i % 4 < 4 := by omega
  show (if i / 4 < 4 ∧ i % 4 < 4 then elem _ 4 (i / 4) (i % 4) / 4 else 0) = _
  rw [if_pos hin, elem, hi', hdq i (by omega)]
  omega

theorem Params.example0_contract : Params.example0.Contract where
  step := by simp [StepContract, example0]
  zero := Params.example0_zero
  lossless := Params.example0_lossless
  scan := by intro ts tt; simp [example0]
  engines := by simp [example0]

/-- Parameters together with a proof that they meet the contract. The default values only show Lean that the type is
inhabited. -/
structure OpenParams where
  params : Params := Params.example0
  contract : params.Contract := by exact Params.example0_contract
deriving Inhabited

/-- The parameters of this machine: any instantiation that meets the contract. A constant without a body. -/
opaque Config.openParams : OpenParams

/-- The OPEN parameters the machine runs on. -/
abbrev Config.params : Params := Config.openParams.params

/-- Their contract: all that can be proved of them. -/
theorem Config.contract : Config.params.Contract := Config.openParams.contract

end Sys2Proof
end

