-- ==== Sys2Proof/Machine/State.lean ====
section
/-! DEFINITION. The state of one engine with the external memory and the host's pending accesses (10_state.md,
20_memory.md R70), the reasons a step can stop, and the state after reset (70_reset_and_hazards.md R300).
Plain data: no field has a function type. Registers that the spec hard-wires or computes (ID, CMD, TU_STATUS, STATUS.BUSY,
DESC_ORG of PRED) are not stored; Machine/RegFile.lean gives the value the host reads. -/

namespace Sys2Proof.Machine

/-- External memory: (address, byte) pairs, addresses strictly rising; an address that no agent has written is not listed
(20_memory.md R70, R80). -/
abbrev Memory := List Host.Cell

/-- The tag of a scratch buffer: (valid, plane, txsz, bd) (10_state.md R55). -/
structure Tag where
  valid : Bool
  plane : Plane
  txsz : TxSize
  bd : BitDepth
deriving DecidableEq, Repr

/-- STATUS, ERR_ADDR, ERR_CMD (10_state.md R32, R58). -/
structure ErrRegs where
  /-- STATUS, 32 bits, with BUSY (bit 1) and the reserved bits 0. -/
  status : Word
  /-- ERR_ADDR, 32 bits. -/
  errAddr : Word
  /-- ERR_CMD, 32 bits. -/
  errCmd : Word
deriving DecidableEq, Repr

/-- The registers the host writes (10_state.md R31, R34-R49). The engine writes two of them: TXFLAG the TT fields of
TU_CFG, DQP with FLAG = 1 the QINDEX field of QIDX. -/
structure CfgRegs where
  /-- CTRL: bit 1 IRQ_EN; SRST (bit 0) reads 0 (R31). -/
  ctrl : Word
  /-- PIC_CFG (R34). -/
  picCfg : Word
  /-- QP_BOUNDS (R35). -/
  qpBounds : Word
  /-- TU_CFG (R36). -/
  tuCfg : Word
  /-- TU_XY (R37). -/
  tuXy : Word
  /-- PRED_XY (R38). -/
  predXy : Word
  /-- QIDX (R39). -/
  qidx : Word
  /-- CFL_ALPHA (R40). -/
  cflAlpha : Word
  /-- LUMA_XY (R41). -/
  lumaXy : Word
  /-- BASE_QP (R42). -/
  baseQp : Word
  /-- DQP_DIST (R45). -/
  dqpDist : Word
  /-- DQP_CTL (R46). -/
  dqpCtl : Word
  /-- DQP_VAR (R47). -/
  dqpVar : Word
  /-- DQP_ACTHR (R47). -/
  dqpActhr : Word
  /-- DQP_MIN[d] (R48). -/
  dqpMin : PerDepth Word
  /-- DQP_AVG[d] (R48). -/
  dqpAvg : PerDepth Word
  /-- DQP_MAX[d] (R48). -/
  dqpMax : PerDepth Word
  /-- DQP_WGT[d] (R49). -/
  dqpWgt : PerDepth Word
  /-- DESC_BASE[b][p] (R43). -/
  descBase : PerBuf (PerPlane Word)
  /-- DESC_STRIDE[b][p] (R43). -/
  descStride : PerBuf (PerPlane Word)
  /-- DESC_ORG[0][p], the origin of SRC (R43). -/
  orgSrc : PerPlane Word
  /-- DESC_ORG[2][p], the origin of RECON (R43). -/
  orgRecon : PerPlane Word
  /-- COEF_BASE[p] (R44). -/
  coefBase : PerPlane Word
deriving DecidableEq, Repr

/-- The registers only the engine writes (10_state.md R50-R52); of TU_STATUS, the bits that are stored. -/
structure ResultRegs where
  /-- DQP_RESULT (R50). -/
  dqpResult : Word
  /-- EOB[p] (R51). -/
  eob : PerPlane Word
  /-- NZ[p] (R51). -/
  nz : PerPlane Word
  /-- E3Q_LO[p] (R51). -/
  e3qLo : PerPlane Word
  /-- E3Q_HI[p] (R51). -/
  e3qHi : PerPlane Word
  /-- TU_STATUS[2:0] HC_Y, HC_U, HC_V (R52). -/
  hc : PerPlane Bool
  /-- TU_STATUS[6:4] QV_Y, QV_U, QV_V (R52). -/
  qv : PerPlane Bool
deriving DecidableEq, Repr

/-- The scratch buffers, row-major, with their tags (10_state.md R53, R55). The valid bits are TU_STATUS[12:8]. -/
structure Scratch where
  resTag : Tag
  coefTag : Tag
  /-- The one tag of QCOEF and DQCOEF. -/
  qcTag : Tag
  iresTag : Tag
  cflacTag : Tag
  /-- RES: h by w. -/
  res : List Int
  /-- COEF: Hc by Wc. -/
  coef : List Int
  /-- QCOEF: Hc by Wc. -/
  qcoef : List Int
  /-- DQCOEF: Hc by Wc. -/
  dqcoef : List Int
  /-- IRES: h by w. -/
  ires : List Int
  /-- CFLAC: ch by cw. -/
  cflac : List Int
deriving DecidableEq, Repr

/-- What the host or the platform does to the engine (92_eei_decisions.md D1, 30_encoding.md R110). -/
inductive HostEvent where
  /-- A write of `width` bits of value v at byte offset `off` of the register port (`wr`). -/
  | regWrite (width : Nat) (off : BitVec 12) (v : Word)
  /-- A read of `width` bits at byte offset `off` of the register port (`rd`). -/
  | regRead (width : Nat) (off : BitVec 12)
  /-- A write of n bytes to external memory by an agent other than this engine (`mem.wN`). -/
  | memWrite (n addr v : Nat)
  /-- The reset input `rst` is asserted. -/
  | rst
deriving DecidableEq, Repr

/-- THE MODEL'S OWN: the host side of the register port. The host's program is its sequence of accesses (10_state.md R54). -/
structure HostPort where
  /-- The accesses still to come, the next one first. -/
  pending : List HostEvent
  /-- The index of the next register access in the host's sequence (10_state.md R54). -/
  pos : Nat
  /-- The values the host has read, the last one first. -/
  reads : List Word
deriving DecidableEq, Repr

/-- The whole machine. -/
structure State where
  err : ErrRegs
  cfg : CfgRegs
  rslt : ResultRegs
  scr : Scratch
  mem : Memory
  /-- The OPEN parameter MEM_ADMIT (20_memory.md R77): the platform's, which no step changes (log entry 4). -/
  admission : List AdmitRule
  port : HostPort
deriving DecidableEq, Repr

/-- Why the machine stops with a fault. No command of the engine faults: every error of 60_exceptions.md R270 is a next
state (R271). -/
inductive Fault where
  /-- Raised by the host's own memory write (`HostEvent.memWrite`) that reaches past the 2^32 bytes of external memory
  (20_memory.md R70). Safe: the machine stops where the spec has no such byte. -/
  | hostMemRange
deriving DecidableEq, Repr

/-- Why a step is refused. -/
inductive Refusal where
  /-- Raised by an arm of `exec` whose instruction has no meaning yet; no arm is left so. Safe: the machine stops. -/
  | notModelled (mnemonic : String)
  /-- Raised by a host register access that is not 32 bits wide or not 4-byte aligned: "the model gives it no step"
  (10_state.md R56). Safe: the machine stops where the spec defines nothing. -/
  | hostAccessShape
  /-- Raised by `Platform.step` when its schedule names an engine that the platform does not have. Safe: the machine
  stops. -/
  | noSuchEngine
deriving DecidableEq, Repr

/-- A tag that is not valid. Its other fields are never compared (70_reset_and_hazards.md R300); these are the model's
choice. DESIGN CHOICE (log entry 3), safe. -/
def Tag.invalid : Tag := ⟨false, .y, .tx4x4, .b8⟩

/-- STATUS, ERR_ADDR and ERR_CMD after reset: 0 (R300). -/
def ErrRegs.reset : ErrRegs := ⟨0, 0, 0⟩

/-- The host-written registers after reset: all 0 (R300). -/
def CfgRegs.reset : CfgRegs where
  ctrl := 0
  picCfg := 0
  qpBounds := 0
  tuCfg := 0
  tuXy := 0
  predXy := 0
  qidx := 0
  cflAlpha := 0
  lumaXy := 0
  baseQp := 0
  dqpDist := 0
  dqpCtl := 0
  dqpVar := 0
  dqpActhr := 0
  dqpMin := PerDepth.all 0
  dqpAvg := PerDepth.all 0
  dqpMax := PerDepth.all 0
  dqpWgt := PerDepth.all 0
  descBase := PerBuf.all (PerPlane.all 0)
  descStride := PerBuf.all (PerPlane.all 0)
  orgSrc := PerPlane.all 0
  orgRecon := PerPlane.all 0
  coefBase := PerPlane.all 0

/-- The engine-written registers after reset: all 0 (R300). -/
def ResultRegs.reset : ResultRegs where
  dqpResult := 0
  eob := PerPlane.all 0
  nz := PerPlane.all 0
  e3qLo := PerPlane.all 0
  e3qHi := PerPlane.all 0
  hc := PerPlane.all false
  qv := PerPlane.all false

/-- The scratch buffers after reset: no tag valid (R300). The contents are unspecified and no command can read them; the
model holds them as absent, the empty list (93_implementation_defined.md I40). DESIGN CHOICE (log entry 3), safe. -/
def Scratch.reset : Scratch where
  resTag := Tag.invalid
  coefTag := Tag.invalid
  qcTag := Tag.invalid
  iresTag := Tag.invalid
  cflacTag := Tag.invalid
  res := []
  coef := []
  qcoef := []
  dqcoef := []
  ires := []
  cflac := []

/-- The machine right after reset (70_reset_and_hazards.md R300), with nothing written to external memory and no host
access pending. The platform's admission map is the OPEN parameter MEM_ADMIT, of which Lean knows nothing (log entry 4). -/
def State.reset : State where
  err := ErrRegs.reset
  cfg := CfgRegs.reset
  rslt := ResultRegs.reset
  scr := Scratch.reset
  mem := []
  admission := Config.params.memAdmit
  port := ⟨[], 0, []⟩

end Sys2Proof.Machine
end

