-- ==== Sys2Proof/Machine/Flags.lean ====
section
/-! DEFINITION. The flags of the engine (10_state.md R57): STATUS and its fields, the interrupt line, the scratch tags and
valid bits, the QV and HC bits, and the value of TU_STATUS. The engine has no condition codes. -/

namespace Sys2Proof.Machine

/-- The value of STATUS with these fields; BUSY and the reserved bits are 0 (10_state.md R32). -/
def packStatus (err av : Bool) (code opc : Nat) : Word :=
  BitVec.ofNat 32 (err.toNat + av.toNat * 2 ^ 2 + code % 2 ^ 8 * 2 ^ 8 + opc % 2 ^ 8 * 2 ^ 16)

/-- STATUS.ERR (10_state.md R32). -/
def State.errFlag (s : State) : Bool := bits s.err.status 0 0 == 1

/-- STATUS.ERR_AV (10_state.md R32). -/
def State.errAv (s : State) : Bool := bits s.err.status 2 2 == 1

/-- STATUS.ERR_CODE (10_state.md R32). -/
def State.errCode (s : State) : Nat := bits s.err.status 15 8

/-- STATUS.ERR_OPC (10_state.md R32). -/
def State.errOpc (s : State) : Nat := bits s.err.status 23 16

/-- CTRL.IRQ_EN (10_state.md R31). -/
def State.irqEn (s : State) : Bool := bits s.cfg.ctrl 1 1 == 1

/-- The interrupt output: irq = STATUS.ERR ∧ CTRL.IRQ_EN, at all times (60_exceptions.md R276). -/
def State.irq (s : State) : Bool := s.errFlag && s.irqEn

/-- The tag a producer sets: (1, p, TXSZ, bd) (10_state.md R55). -/
def Tag.of (p : Plane) (ts : TxSize) (bd : BitDepth) : Tag := ⟨true, p, ts, bd⟩

/-- Clearing the valid bit of a tag (10_state.md R55). -/
def Tag.clear (t : Tag) : Tag := { t with valid := false }

/-- A consumer accepts its input: the tag is valid and equal in plane, txsz and bd (10_state.md R55). -/
def Tag.accepts (t : Tag) (p : Plane) (ts : TxSize) (bd : BitDepth) : Bool :=
  t.valid && t.plane == p && t.txsz == ts && t.bd == bd

/-- HC_ANY = HC_Y ∨ HC_U ∨ HC_V, computed and never stored (10_state.md R52). -/
def State.hcAny (s : State) : Bool := s.rslt.hc.y || s.rslt.hc.u || s.rslt.hc.v

/-- The value of TU_STATUS (10_state.md R52). -/
def State.tuStatus (s : State) : Word :=
  BitVec.ofNat 32
    (s.rslt.hc.y.toNat + s.rslt.hc.u.toNat * 2 ^ 1 + s.rslt.hc.v.toNat * 2 ^ 2 + s.hcAny.toNat * 2 ^ 3
      + s.rslt.qv.y.toNat * 2 ^ 4 + s.rslt.qv.u.toNat * 2 ^ 5 + s.rslt.qv.v.toNat * 2 ^ 6
      + s.scr.resTag.valid.toNat * 2 ^ 8 + s.scr.coefTag.valid.toNat * 2 ^ 9 + s.scr.qcTag.valid.toNat * 2 ^ 10
      + s.scr.iresTag.valid.toNat * 2 ^ 11 + s.scr.cflacTag.valid.toNat * 2 ^ 12)

end Sys2Proof.Machine
end

