-- ==== Sys2Proof/Machine/Ops.lean ====
section
/-! DEFINITION. The operations that commands share: external memory (00_scope.md R10, 20_memory.md R70-R77), the error entry
and the two ways out of it (60_exceptions.md R271, R275), reset (70_reset_and_hazards.md R300), and what each producer
commits to the scratch buffers (10_state.md R55). -/

namespace Sys2Proof.Machine

/-- What the list holds at an address; nothing where no agent has written. -/
def Memory.find (m : Memory) (a : Nat) : Option Byte :=
  match m with
  | [] => none
  | (k, v) :: t => if k = a then some v else Memory.find t a

/-- Store one byte, keeping the addresses strictly rising. -/
def Memory.put (m : Memory) (a : Nat) (v : Byte) : Memory :=
  match m with
  | [] => [(a, v)]
  | (k, u) :: t => if a < k then (a, v) :: (k, u) :: t else if a = k then (a, v) :: t else (k, u) :: Memory.put t a v

/-- The addresses are strictly rising. -/
def Memory.rising : Memory → Bool
  | [] => true
  | (a, _) :: t =>
    (match t with
      | [] => true
      | (b, _) :: _ => decide (a < b)) && Memory.rising t

/-- The canonical form: addresses strictly rising, all of them bytes of the 2^32 (20_memory.md R70). An unlisted address
holds no written value, so no entry can equal it. -/
def Memory.wf (m : Memory) : Bool := Memory.rising m && m.all fun cell => decide (cell.1 < 2 ^ 32)

/-- What an unlisted address reads as: any value, the same at every read until a write (93_implementation_defined.md I42,
20_memory.md R80). DESIGN CHOICE (log entry 2), safe. -/
def Memory.unlisted (a : Nat) : Byte := Config.params.powerOnByte a

/-- The byte at an address. -/
def Memory.readByte (m : Memory) (a : Nat) : Byte := (Memory.find m a).getD (Memory.unlisted a)

/-- MemRead(addr, n): unsigned, little-endian (00_scope.md R10, 20_memory.md R74). -/
def Memory.read (m : Memory) (a n : Nat) : Nat :=
  match n with
  | 0 => 0
  | n + 1 => (Memory.readByte m a).toNat + 256 * Memory.read m (a + 1) n

/-- MemWrite(addr, n, v): the low 8n bits of v, little-endian (00_scope.md R10, 20_memory.md R74). -/
def Memory.write (m : Memory) (a n v : Nat) : Memory :=
  match n with
  | 0 => m
  | n + 1 => Memory.write (Memory.put m a (BitVec.ofNat 8 (v % 256))) (a + 1) n (v / 256)

/-- The writes of one command, in its loop order; each is (address, value), n bytes wide. Where two of them overlap, the later
one stands. DEDUCED (log entry 12), unsafe. -/
def Memory.writeAll (m : Memory) (n : Nat) (l : List (Nat × Nat)) : Memory :=
  l.foldl (fun m av => Memory.write m av.1 n av.2) m

/-- StoreWord's value: v mod 2^32, two's complement (20_memory.md R76). -/
def wordOfInt (v : Int) : Nat := (v % 2 ^ 32).toNat

/-- MEM_ADMIT(address, width, kind) (20_memory.md R77). -/
def State.memAdmit (s : State) (a : Access) : Bool :=
  s.admission.any fun r => decide (r.lo ≤ a.addr) && decide (a.addr < r.hi) && r.width == a.width && r.kind == a.kind

/-- Alignment of an access to its width (20_memory.md R77 (1)). -/
def isAligned (a : Access) : Bool := a.addr % a.width == 0

/-- Range and admission of an access (20_memory.md R77 (2), (3)). -/
def State.admits (s : State) (a : Access) : Bool := decide (a.addr + a.width ≤ 2 ^ 32) && s.memAdmit a

/-- Every access is aligned, or ALIGN with the first that is not (20_memory.md R77, 60_exceptions.md R271). -/
def checkAlign (as : List Access) : Except CmdError Unit :=
  match as.find? fun a => !isAligned a with
  | some a => .error ⟨.align, some a.addr⟩
  | none => .ok ()

/-- Every access is in range and admitted, or BUS with the first that is not (20_memory.md R77, 60_exceptions.md R271). -/
def State.checkBus (s : State) (as : List Access) : Except CmdError Unit :=
  match as.find? fun a => !s.admits a with
  | some a => .error ⟨.bus, some a.addr⟩
  | none => .ok ()

/-- The address checks of a command over its complete access set in pseudocode order: every ALIGN check precedes every BUS
check (20_memory.md R77, 60_exceptions.md R272). -/
def State.checkAccesses (s : State) (as : List Access) : Except CmdError Unit := do
  checkAlign as
  s.checkBus as

/-- The sample of depth bd at an address, before its range check (20_memory.md R76). -/
def State.sample (s : State) (bd : BitDepth) (a : Nat) : Nat := Memory.read s.mem a bd.bytes

/-- Every sample read is below 2^bd, or RANGE with the first that is not (20_memory.md R76, 60_exceptions.md R271). -/
def State.checkSamples (s : State) (bd : BitDepth) (reads : List Nat) : Except CmdError Unit :=
  match reads.find? fun a => decide (2 ^ bd.bits ≤ s.sample bd a) with
  | some a => .error ⟨.range, some a⟩
  | none => .ok ()

/-- One access of a sample's width per address (20_memory.md R79). -/
def sampleAccesses (bd : BitDepth) (kind : AccessKind) (as : List Nat) : List Access := as.map fun a => ⟨a, bd.bytes, kind⟩

/-- ErrorEntry(CODE, w, addr): the whole effect of a command whose check fails (60_exceptions.md R271). An address at or past
2^32 is recorded modulo 2^32 for ALIGN as for BUS. DEDUCED (log entry 9), unsafe. -/
def State.errorEntry (s : State) (w : Word) (e : CmdError) : State :=
  { s with err := { status := packStatus true e.addr.isSome e.code.toByte.toNat (cmdOpc w)
                    errAddr := BitVec.ofNat 32 (e.addr.getD 0)
                    errCmd := w } }

/-- A command ends: with its effect, or with the error entry for its word (00_scope.md R11). -/
def State.complete (s : State) (w : Word) (r : Except CmdError State) : State :=
  match r with
  | .ok t => t
  | .error e => s.errorEntry w e

/-- The error clear: the host writes 1 to STATUS.ERR (44_control.md R253, 60_exceptions.md R275). -/
def State.clearError (s : State) : State := { s with err := ErrRegs.reset }

/-- The effect of `rst` and of CTRL.SRST = 1: the reset state, external memory unchanged (70_reset_and_hazards.md R300,
R301). The platform and the host are outside the engine; scratch contents become absent. DESIGN CHOICE (log entries 3, 10),
safe. -/
def State.engineReset (s : State) : State := { State.reset with mem := s.mem, admission := s.admission, port := s.port }

/-- RESID's effect: RES and its tag; COEF, QC and IRES invalid; QV[p] clear (40_transform.md R135). -/
def State.commitRes (s : State) (p : Plane) (ts : TxSize) (bd : BitDepth) (res : List Int) : State :=
  { s with
    scr := { s.scr with res := res, resTag := Tag.of p ts bd, coefTag := s.scr.coefTag.clear
                        qcTag := s.scr.qcTag.clear, iresTag := s.scr.iresTag.clear }
    rslt := { s.rslt with qv := s.rslt.qv.set p false } }

/-- FTX's effect: COEF and its tag; E3Q[p]; QC and IRES invalid; QV[p] clear (40_transform.md R136). -/
def State.commitCoef (s : State) (p : Plane) (ts : TxSize) (bd : BitDepth) (coef : List Int) (e3q : Nat) : State :=
  { s with
    scr := { s.scr with coef := coef, coefTag := Tag.of p ts bd, qcTag := s.scr.qcTag.clear
                        iresTag := s.scr.iresTag.clear }
    rslt := { s.rslt with qv := s.rslt.qv.set p false
                          e3qLo := s.rslt.e3qLo.set p (BitVec.ofNat 32 (e3q % 2 ^ 32))
                          e3qHi := s.rslt.e3qHi.set p (BitVec.ofNat 32 (e3q / 2 ^ 32)) } }

/-- QUANT's effect: QCOEF, DQCOEF and their tag; EOB[p] and NZ[p]; IRES invalid; QV[p] set (41_quant.md R174). -/
def State.commitQuant (s : State) (p : Plane) (ts : TxSize) (bd : BitDepth) (q dq : List Int) (eob nz : Nat) : State :=
  { s with
    scr := { s.scr with qcoef := q, dqcoef := dq, qcTag := Tag.of p ts bd, iresTag := s.scr.iresTag.clear }
    rslt := { s.rslt with qv := s.rslt.qv.set p true
                          eob := s.rslt.eob.set p (BitVec.ofNat 32 eob)
                          nz := s.rslt.nz.set p (BitVec.ofNat 32 nz) } }

/-- ITX's effect: IRES and its tag (40_transform.md R138). -/
def State.commitIres (s : State) (p : Plane) (ts : TxSize) (bd : BitDepth) (ires : List Int) : State :=
  { s with scr := { s.scr with ires := ires, iresTag := Tag.of p ts bd } }

/-- CFL_AC's effect: CFLAC and its tag, whose plane field is always 0 (42_cfl.md R202, 10_state.md R55). -/
def State.commitCflac (s : State) (ts : TxSize) (bd : BitDepth) (ac : List Int) : State :=
  { s with scr := { s.scr with cflac := ac, cflacTag := Tag.of .y ts bd } }

/-- The writes of a command to external memory. -/
def State.commitMem (s : State) (n : Nat) (l : List (Nat × Nat)) : State := { s with mem := Memory.writeAll s.mem n l }

end Sys2Proof.Machine
end

