-- ==== Sys2Proof/Machine/Operands.lean ====
section
/-! DEFINITION. The operands of commands: register fields (30_encoding.md R107, 10_state.md R34-R49), sample addresses
(20_memory.md R75), and the checks a command makes on its operands (40_transform.md R130, 60_exceptions.md R272). -/

namespace Sys2Proof.Machine

/-- A check without an address: nothing, or the error (00_scope.md R11). -/
def require (ok : Bool) (c : ErrCode) : Except CmdError Unit := if ok then .ok () else .error ⟨c, none⟩

/-- A code that must be legal: what it stands for, or the error. -/
def decoded {α : Type} (o : Option α) (c : ErrCode) : Except CmdError α :=
  match o with
  | some a => .ok a
  | none => .error ⟨c, none⟩

/-- PIC_CFG.BD (10_state.md R34). -/
def State.bitDepth (s : State) : Option BitDepth := BitDepth.ofCode (bits s.cfg.picCfg 1 0)

/-- PIC_CFG.CFMT (10_state.md R34). -/
def State.chromaFormat (s : State) : Option ChromaFormat := ChromaFormat.ofCode (bits s.cfg.picCfg 3 2)

/-- PIC_CFG.DQP_EN (10_state.md R34). -/
def State.dqpEn (s : State) : Bool := bits s.cfg.picCfg 4 4 == 1

/-- PIC_CFG.QPM (10_state.md R34). -/
def State.qpMod (s : State) : Option QpMod := QpMod.ofCode (bits s.cfg.picCfg 6 5)

/-- PIC_CFG.LF_EN: stored and read back; no command reads it (10_state.md R34, 92_eei_decisions.md D57). -/
def State.lfEn (s : State) : Bool := bits s.cfg.picCfg 7 7 == 1

/-- PIC_CFG.DQP_RES_LOG2 (10_state.md R34). -/
def State.dqpResLog2 (s : State) : Nat := bits s.cfg.picCfg 9 8

/-- TU_CFG.TXSZ (10_state.md R36). -/
def State.txSize (s : State) : Option TxSize := TxSize.ofCode (bits s.cfg.tuCfg 4 0)

/-- The lowest bit of the field TT[p] in TU_CFG (10_state.md R36). -/
def ttLow : Plane → Nat
  | .y => 5
  | .u => 10
  | .v => 15

/-- TT[p] (10_state.md R36). -/
def State.ttCode (s : State) (p : Plane) : Nat := bits s.cfg.tuCfg (ttLow p + 4) (ttLow p)

/-- TU_CFG with TT[p] <- v (10_state.md R36). -/
def setTt (w : Word) (p : Plane) (v : Nat) : Word := setBits w (ttLow p + 4) (ttLow p) v

/-- The transform type of plane p, if TT[p] ≤ 16 and TX_VALID(TXSZ, TT[p]) (40_transform.md R130). -/
def State.txType (s : State) (p : Plane) (ts : TxSize) : Option TxType :=
  (TxType.ofCode (s.ttCode p)).filter (txValid ts)

/-- TU_CFG.PMODE (10_state.md R36). -/
def State.predMode (s : State) : Option PredMode := PredMode.ofCode (bits s.cfg.tuCfg 21 20)

/-- QIDX.QINDEX (10_state.md R39). -/
def State.qindex (s : State) : BitVec 8 := BitVec.ofNat 8 (bits s.cfg.qidx 7 0)

/-- DESC_ORG[b][p]; the prediction buffer has no origin: it reads as 0 (10_state.md R43). -/
def State.descOrg (s : State) (b : Buf) (p : Plane) : Word :=
  match b with
  | .src => s.cfg.orgSrc.get p
  | .pred => 0
  | .recon => s.cfg.orgRecon.get p

/-- SampleAddr(b, p, x, y), in unbounded integers (20_memory.md R75). -/
def State.sampleAddr (s : State) (b : Buf) (p : Plane) (bd : BitDepth) (x y : Nat) : Nat :=
  let base := bits ((s.cfg.descBase.get b).get p) 31 0
  let stride := bits ((s.cfg.descStride.get b).get p) 15 0
  let ox := bits (s.descOrg b p) 15 0
  let oy := bits (s.descOrg b p) 31 16
  base + ((oy + y) * stride + (ox + x)) * bd.bytes

/-- The address of element (r, c) of the block whose top-left sample is at the position register xy: x = X + c, y = Y + r
(20_memory.md R75). -/
def State.blockAddr (s : State) (b : Buf) (p : Plane) (bd : BitDepth) (xy : Word) (r c : Nat) : Nat :=
  s.sampleAddr b p bd (bits xy 15 0 + c) (bits xy 31 16 + r)

/-- SRC[p] of the transform block, through TU_XY (40_transform.md R130). -/
def State.srcAddr (s : State) (p : Plane) (bd : BitDepth) (r c : Nat) : Nat := s.blockAddr .src p bd s.cfg.tuXy r c

/-- PRED[p] of the transform block, through PRED_XY (40_transform.md R130). -/
def State.predAddr (s : State) (p : Plane) (bd : BitDepth) (r c : Nat) : Nat := s.blockAddr .pred p bd s.cfg.predXy r c

/-- RECON[p] of the transform block, through TU_XY (40_transform.md R139). -/
def State.reconAddr (s : State) (p : Plane) (bd : BitDepth) (r c : Nat) : Nat := s.blockAddr .recon p bd s.cfg.tuXy r c

/-- COEF_BASE[p] + 4·i (41_quant.md R178). -/
def State.coefAddr (s : State) (p : Plane) (i : Nat) : Nat := bits (s.cfg.coefBase.get p) 31 0 + 4 * i

/-- The buffer CFL_AC reads: RECON for FLAG = 0, PRED for FLAG = 1 (42_cfl.md R202). -/
def lumaBuf (fromPred : Bool) : Buf := if fromPred then .pred else .recon

/-- Luma position (LX + x, LY + y) of the co-located block, through LUMA_XY (42_cfl.md R200, R202). -/
def State.lumaAddr (s : State) (fromPred : Bool) (bd : BitDepth) (y x : Nat) : Nat :=
  s.blockAddr (lumaBuf fromPred) .y bd s.cfg.lumaXy y x

/-- The check CFG: PIC_CFG.BD = 3 raises BAD_CFG (40_transform.md R130). -/
def State.needBitDepth (s : State) : Except CmdError BitDepth := decoded s.bitDepth .badCfg

/-- PIC_CFG.CFMT = 3 raises BAD_CFG (42_cfl.md R202). -/
def State.needChromaFormat (s : State) : Except CmdError ChromaFormat := decoded s.chromaFormat .badCfg

/-- PIC_CFG.QPM = 3 raises BAD_CFG (43_dqp.md R230). -/
def State.needQpMod (s : State) : Except CmdError QpMod := decoded s.qpMod .badCfg

/-- The check TXSZ: TU_CFG.TXSZ ≥ 19 raises BAD_TXSZ (40_transform.md R130). -/
def State.needTxSize (s : State) : Except CmdError TxSize := decoded s.txSize .badTxsz

/-- The check TYPE: TT[p] ≥ 17 or TX_VALID false raises BAD_TXTYPE (40_transform.md R130). -/
def State.needTxType (s : State) (p : Plane) (ts : TxSize) : Except CmdError TxType := decoded (s.txType p ts) .badTxtype

/-- PMODE ≥ 2 raises BAD_PMODE (41_quant.md R177, 42_cfl.md R207). -/
def State.needPredMode (s : State) : Except CmdError PredMode := decoded s.predMode .badPmode

/-- The applicability of CfL: intra blocks of at most 32 by 32, else BAD_CFL (42_cfl.md R200, R207). -/
def needCfl (ts : TxSize) (m : PredMode) : Except CmdError Unit :=
  require (m == .intra && decide (ts.width ≤ 32) && decide (ts.height ≤ 32)) .badCfl

/-- A consumer's input tag: SEQ unless it is valid and matches (10_state.md R55). -/
def needTag (t : Tag) (p : Plane) (ts : TxSize) (bd : BitDepth) : Except CmdError Unit := require (t.accepts p ts bd) .seq

end Sys2Proof.Machine
end

