-- ==== Sys2Proof/Machine/Cfl.lean ====
section
/-! DEFINITION. The chroma-from-luma prediction filter: CFL_AC and CFL_PRED (42_cfl.md R200-R207). -/

namespace Sys2Proof.Machine

/-- Q3(r, c): luma in units of 1/8, 8 times the mean of the covered samples; L x y is the luma sample at block-relative
position (x, y) (42_cfl.md R201). -/
def cflQ3 (fmt : ChromaFormat) (L : Nat → Nat → Int) (r c : Nat) : Int :=
  match fmt with
  | .f420 => (L (2 * c) (2 * r) + L (2 * c + 1) (2 * r) + L (2 * c) (2 * r + 1) + L (2 * c + 1) (2 * r + 1)) * 2
  | .f422 => (L (2 * c) r + L (2 * c + 1) r) * 4
  | .f444 => L c r * 8

/-- avg: the rounded block average of Q3, with n = log2(cw·ch) (42_cfl.md R202). -/
def cflAvg (h w : Nat) (q : Nat → Nat → Int) : Int :=
  let n := Nat.log2 (w * h)
  asr ((tabulate h w q).sum + 2 ^ (n - 1)) n

/-- The luma sample L(x, y) of the co-located block (42_cfl.md R202). -/
def State.luma (s : State) (fromPred : Bool) (bd : BitDepth) (x y : Nat) : Int :=
  s.sample bd (s.lumaAddr fromPred bd y x)

/-- CFL_AC's luma reads: rows y, then columns x, of the (cw << ssx) by (ch << ssy) block (42_cfl.md R200, R202). -/
def State.lumaReads (s : State) (fromPred : Bool) (ts : TxSize) (fmt : ChromaFormat) (bd : BitDepth) : List Nat :=
  (grid (ts.height * 2 ^ fmt.ssy) (ts.width * 2 ^ fmt.ssx)).map fun yx => s.lumaAddr fromPred bd yx.1 yx.2

/-- CFLAC[r][c] = Q3(r, c) - avg (42_cfl.md R202). -/
def State.cflAcValue (s : State) (fromPred : Bool) (ts : TxSize) (fmt : ChromaFormat) (bd : BitDepth) (r c : Nat) : Int :=
  cflQ3 fmt (s.luma fromPred bd) r c - cflAvg ts.height ts.width (cflQ3 fmt (s.luma fromPred bd))

/-- CFL_AC (42_cfl.md R202). -/
def cflAc (fromPred : Bool) (s : State) : Except CmdError State := do
  let bd ← s.needBitDepth
  let fmt ← s.needChromaFormat
  let ts ← s.needTxSize
  let m ← s.needPredMode
  needCfl ts m
  s.checkAccesses (sampleAccesses bd .read (s.lumaReads fromPred ts fmt bd))
  s.checkSamples bd (s.lumaReads fromPred ts fmt bd)
  .ok (s.commitCflac ts bd (tabulate ts.height ts.width (s.cflAcValue fromPred ts fmt bd)))

/-- CFL_AC, with FLAG, on the machine. -/
def execCflAc (fromPred : Bool) (s : State) : Host.Outcome State Fault Refusal :=
  .next (s.complete (encode (.cflAc fromPred)) (cflAc fromPred s))

/-- sign_u, from the joint sign js (42_cfl.md R205): 0 zero, 1 negative, 2 positive. -/
def cflSignU (js : Nat) : Nat := (js + 1) * 11 / 2 ^ 5

/-- sign_v, from the joint sign js (42_cfl.md R205). -/
def cflSignV (js : Nat) : Nat := js + 1 - 3 * cflSignU js

/-- Alpha(sign, mag) (42_cfl.md R205). -/
def cflAlpha (sign mag : Nat) : Int := if sign = 0 then 0 else if sign = 2 then mag + 1 else -(mag + 1)

/-- alpha_q3[p] of a CFL_ALPHA word (42_cfl.md R205). Plane 0 has none; CFL_PRED never asks for it (30_encoding.md R102). -/
def alphaQ3 (w : Word) (p : Plane) : Int :=
  match p with
  | .y => 0
  | .u => cflAlpha (cflSignU (bits w 10 8)) (bits w 7 4)
  | .v => cflAlpha (cflSignV (bits w 10 8)) (bits w 3 0)

/-- CFL_PRED's reads of the DC prediction in PRED[p], row-major; its writes go to the same addresses (42_cfl.md R206). -/
def State.dcReads (s : State) (p : Plane) (ts : TxSize) (bd : BitDepth) : List Nat :=
  (grid ts.height ts.width).map fun rc => s.predAddr p bd rc.1 rc.2

/-- The predicted sample: clip_bd(dc + round2signed(alpha · CFLAC[r][c], 6)) (42_cfl.md R204, R206). -/
def State.cflSample (s : State) (p : Plane) (ts : TxSize) (bd : BitDepth) (r c : Nat) : Int :=
  clipBd bd (s.sample bd (s.predAddr p bd r c) + round2signed (alphaQ3 s.cfg.cflAlpha p * elem s.scr.cflac ts.width r c) 6)

/-- CFL_PRED (42_cfl.md R206). Plane 0 is refused by dispatch with BAD_PLANE (30_encoding.md R101); the check stands here
too, so that the term of `Instr` with plane 0 has the same meaning. DESIGN CHOICE (log entry 11), safe. -/
def cflPred (p : Plane) (s : State) : Except CmdError State := do
  require (p != .y) .badPlane
  let bd ← s.needBitDepth
  let ts ← s.needTxSize
  let m ← s.needPredMode
  needCfl ts m
  needTag s.scr.cflacTag .y ts bd
  s.checkAccesses (sampleAccesses bd .read (s.dcReads p ts bd) ++ sampleAccesses bd .write (s.dcReads p ts bd))
  s.checkSamples bd (s.dcReads p ts bd)
  .ok (s.commitMem bd.bytes ((grid ts.height ts.width).map fun rc =>
    (s.predAddr p bd rc.1 rc.2, (s.cflSample p ts bd rc.1 rc.2).toNat)))

/-- CFL_PRED p on the machine. -/
def execCflPred (p : Plane) (s : State) : Host.Outcome State Fault Refusal :=
  .next (s.complete (encode (.cflPred p)) (cflPred p s))

end Sys2Proof.Machine
end

