-- ==== Sys2Proof/Machine/Control.lean ====
section
/-! DEFINITION. The control commands: NOP and TU_CLR (44_control.md R250, R251). -/

namespace Sys2Proof.Machine

/-- NOP: `skip` (44_control.md R250). -/
def execNop (s : State) : Host.Outcome State Fault Refusal := .next s

/-- TU_CLR: every per-plane result, HC and QV bit and scratch valid bit cleared (44_control.md R251). -/
def State.clearTu (s : State) : State :=
  { s with
    rslt := { s.rslt with eob := PerPlane.all 0, nz := PerPlane.all 0, e3qLo := PerPlane.all 0, e3qHi := PerPlane.all 0
                          hc := PerPlane.all false, qv := PerPlane.all false }
    scr := { s.scr with resTag := s.scr.resTag.clear, coefTag := s.scr.coefTag.clear, qcTag := s.scr.qcTag.clear
                        iresTag := s.scr.iresTag.clear, cflacTag := s.scr.cflacTag.clear } }

/-- TU_CLR (44_control.md R251). -/
def execTuClr (s : State) : Host.Outcome State Fault Refusal := .next s.clearTu

end Sys2Proof.Machine
end

