-- ==== Sys2Proof/Machine/Dqp.lean ====
section
/-! DEFINITION. The adaptive delta-QP lookup: DQP (43_dqp.md R230-R234). -/

namespace Sys2Proof.Machine

/-- The fields of QP_BOUNDS (10_state.md R35). -/
def State.minQp (s : State) : Nat := bits s.cfg.qpBounds 7 0
def State.maxQp (s : State) : Nat := bits s.cfg.qpBounds 15 8
def State.ceilQp (s : State) : Nat := bits s.cfg.qpBounds 23 16
def State.ceilEn (s : State) : Bool := bits s.cfg.qpBounds 24 24 == 1

/-- hi = min(MAX_QP, CEIL_QP) if CEIL_EN = 1, else MAX_QP (43_dqp.md R230). -/
def State.hiQp (s : State) : Nat := if s.ceilEn then min s.maxQp s.ceilQp else s.maxQp

/-- BASE_QP[7:0] (10_state.md R42). -/
def State.baseQp (s : State) : Nat := bits s.cfg.baseQp 7 0

/-- The fields of DQP_CTL (10_state.md R46). -/
def State.dqpDepth (s : State) : Depth :=
  match bits s.cfg.dqpCtl 1 0 with
  | 0 => .d0
  | 1 => .d1
  | 2 => .d2
  | _ => .d3
def State.dqpCls (s : State) : Bool := bits s.cfg.dqpCtl 2 2 == 1
def State.dqpBg (s : State) : Bool := bits s.cfg.dqpCtl 3 3 == 1
def State.dqpSedge (s : State) : Bool := bits s.cfg.dqpCtl 4 4 == 1
def State.dqpAcen (s : State) : Bool := bits s.cfg.dqpCtl 5 5 == 1
def State.dqpBgOfs (s : State) : Nat := bits s.cfg.dqpCtl 15 8
def State.dqpAcMag (s : State) : Nat := bits s.cfg.dqpCtl 23 16

/-- The unsigned registers DQP compares (10_state.md R45, R47, R48). -/
def State.dqpDist (s : State) : Nat := bits s.cfg.dqpDist 31 0
def State.dqpVar (s : State) : Nat := bits s.cfg.dqpVar 31 0
def State.dqpActhr (s : State) : Nat := bits s.cfg.dqpActhr 31 0
def State.dqpMin (s : State) (d : Depth) : Nat := bits (s.cfg.dqpMin.get d) 31 0
def State.dqpAvg (s : State) (d : Depth) : Nat := bits (s.cfg.dqpAvg.get d) 31 0
def State.dqpMax (s : State) (d : Depth) : Nat := bits (s.cfg.dqpMax.get d) 31 0

/-- NEG of DQP_WGT[d] for the class: the largest QP decrease (10_state.md R49). -/
def State.dqpNeg (s : State) (d : Depth) : Nat :=
  if s.dqpCls then bits (s.cfg.dqpWgt.get d) 23 16 else bits (s.cfg.dqpWgt.get d) 7 0

/-- POS of DQP_WGT[d] for the class: the largest QP increase (10_state.md R49). -/
def State.dqpPos (s : State) (d : Depth) : Nat :=
  if s.dqpCls then bits (s.cfg.dqpWgt.get d) 31 24 else bits (s.cfg.dqpWgt.get d) 15 8

/-- The interpolation of ClassOffset between the buckets mn ≤ av ≤ mx (43_dqp.md R231). -/
def classInterp (dist mn av mx neg pos : Int) : Int :=
  let x := clamp dist mn mx
  if av ≤ x then (if av < mx then pos * (x - av) / (mx - av) else 0)
  else -(neg * (av - x) / (av - mn))

/-- ClassOffset(d) (43_dqp.md R231). -/
def State.classOffset (s : State) (d : Depth) : Int :=
  classInterp s.dqpDist (s.dqpMin d) (s.dqpAvg d) (s.dqpMax d) (s.dqpNeg d) (s.dqpPos d)

/-- The depth DQP uses: 0 at superblock level, DQP_CTL.DEPTH at block level, none with QP modulation off (43_dqp.md R230). -/
def State.depthFor (s : State) (m : QpMod) : Option Depth :=
  match m with
  | .off => none
  | .superblock => some .d0
  | .block => some s.dqpDepth

/-- The offset after the background, stationary-edge and anti-contouring steps, in that order (43_dqp.md R232). -/
def State.adjustOffset (s : State) (off : Int) : Int :=
  let off := if s.dqpBg then off - s.dqpBgOfs else off
  let off := if s.dqpSedge then min off 0 else off
  if s.dqpAcen && decide (s.dqpVar < s.dqpActhr) then -(s.dqpAcMag : Int) else off

/-- off: 0 with QP modulation off, else the adjusted class offset (43_dqp.md R232). -/
def State.dqpOffset (s : State) (m : QpMod) : Int :=
  match s.depthFor m with
  | none => 0
  | some d => s.adjustOffset (s.classOffset d)

/-- qp: the base with DQP_EN = 0, else the scaled offset added to it and clamped to [MIN_QP, hi] (43_dqp.md R232). -/
def State.dqpQp (s : State) (m : QpMod) : Int :=
  if s.dqpEn then clamp (s.baseQp + s.dqpOffset m * 2 ^ s.dqpResLog2) s.minQp s.hiQp else s.baseQp

/-- The buckets of the depth used are in order: MIN ≤ AVG ≤ MAX (43_dqp.md R230, check 3). -/
def State.bucketsOk (s : State) (m : QpMod) : Bool :=
  match s.depthFor m with
  | none => true
  | some d => decide (s.dqpMin d ≤ s.dqpAvg d) && decide (s.dqpAvg d ≤ s.dqpMax d)

/-- The value of DQP_RESULT: QP in [7:0], (qp - base) mod 2^16 in [31:16] (43_dqp.md R232, 10_state.md R50). -/
def dqpResultWord (qp base : Int) : Word := BitVec.ofNat 32 (qp.toNat % 2 ^ 8 + ((qp - base) % 2 ^ 16).toNat * 2 ^ 16)

/-- DQP (43_dqp.md R230, R232). -/
def dqp (toQidx : Bool) (s : State) : Except CmdError State := do
  let m ← s.needQpMod
  require (!s.dqpEn || decide (s.minQp ≤ s.hiQp)) .badQpb
  require (!s.dqpEn || s.bucketsOk m) .badDqp
  let qp := s.dqpQp m
  .ok { s with
    rslt := { s.rslt with dqpResult := dqpResultWord qp s.baseQp }
    cfg := { s.cfg with qidx := if toQidx then setBits s.cfg.qidx 7 0 qp.toNat else s.cfg.qidx } }

/-- DQP, with FLAG, on the machine. -/
def execDqp (toQidx : Bool) (s : State) : Host.Outcome State Fault Refusal :=
  .next (s.complete (encode (.dqp toQidx)) (dqp toQidx s))

end Sys2Proof.Machine
end

