-- ==== Sys2Proof/Machine/Quant.lean ====
section
/-! DEFINITION. The quantizer, the has-coefficient derivation and the coefficient store: QUANT, TXFLAG, STCOEF
(41_quant.md R174-R178). -/

namespace Sys2Proof.Machine

/-- The coded region of COEF through the quantizer: (QCOEF, DQCOEF) in raster order (41_quant.md R174). -/
def State.quantized (P : Params) (s : State) (ts : TxSize) (bd : BitDepth) : List (Int × Int) :=
  quantBlock P.qstep s.qindex bd ts.logScale ts.codedArea s.scr.coef

/-- QUANT (41_quant.md R174). TT[p] chooses the scan only (R175). -/
def quant (P : Params) (p : Plane) (s : State) : Except CmdError State := do
  let bd ← s.needBitDepth
  let ts ← s.needTxSize
  let tt ← s.needTxType p ts
  needTag s.scr.coefTag p ts bd
  let q := (s.quantized P ts bd).map Prod.fst
  let dq := (s.quantized P ts bd).map Prod.snd
  .ok (s.commitQuant p ts bd q dq (eobOf (P.scan ts tt) q ts.codedArea) (nzOf q))

/-- QUANT p on the machine's parameters. -/
def execQuant (p : Plane) (s : State) : Host.Outcome State Fault Refusal :=
  .next (s.complete (encode (.quant p)) (quant Config.params p s))

/-- NZ[p] = 0 (41_quant.md R177). -/
def State.nzIsZero (s : State) (p : Plane) : Bool := bits (s.rslt.nz.get p) 12 0 == 0

/-- TU_CFG after TXFLAG finds NZ[p] = 0: TT[p] <- DCT_DCT, and for inter-predicted luma both chroma types too
(41_quant.md R177). -/
def forcedTuCfg (w : Word) (p : Plane) (m : PredMode) : Word :=
  if p = .y ∧ m = .inter then setTt (setTt (setTt w .y 0) .u 0) .v 0 else setTt w p 0

/-- TXFLAG (41_quant.md R177). -/
def txflag (p : Plane) (s : State) : Except CmdError State := do
  let m ← s.needPredMode
  require (s.rslt.qv.get p) .seq
  .ok { s with
    cfg := { s.cfg with tuCfg := if s.nzIsZero p then forcedTuCfg s.cfg.tuCfg p m else s.cfg.tuCfg }
    rslt := { s.rslt with hc := s.rslt.hc.set p (!s.nzIsZero p) } }

/-- TXFLAG p on the machine. -/
def execTxflag (p : Plane) (s : State) : Host.Outcome State Fault Refusal :=
  .next (s.complete (encode (.txflag p)) (txflag p s))

/-- The coefficients STCOEF stores: QCOEF for FLAG = 0, DQCOEF for FLAG = 1 (41_quant.md R178). -/
def State.storedCoefs (s : State) (dequant : Bool) : List Int := if dequant then s.scr.dqcoef else s.scr.qcoef

/-- STCOEF's accesses, in raster order (41_quant.md R178). -/
def State.coefAccesses (s : State) (p : Plane) (ts : TxSize) : List Access :=
  (List.range ts.codedArea).map fun i => ⟨s.coefAddr p i, 4, .write⟩

/-- STCOEF (41_quant.md R178). -/
def stcoef (p : Plane) (dequant : Bool) (s : State) : Except CmdError State := do
  let bd ← s.needBitDepth
  let ts ← s.needTxSize
  needTag s.scr.qcTag p ts bd
  s.checkAccesses (s.coefAccesses p ts)
  .ok (s.commitMem 4 ((List.range ts.codedArea).map fun i =>
    (s.coefAddr p i, wordOfInt ((s.storedCoefs dequant).getD i 0))))

/-- STCOEF p, with FLAG, on the machine. -/
def execStcoef (p : Plane) (dequant : Bool) (s : State) : Host.Outcome State Fault Refusal :=
  .next (s.complete (encode (.stcoef p dequant)) (stcoef p dequant s))

end Sys2Proof.Machine
end

