-- ==== Sys2Proof/Machine/Transform.lean ====
section
/-! DEFINITION. Residual, transform and reconstruction commands: RESID, FTX, ITX, RECON (40_transform.md R135-R139). Each
command is a function of the parameters and the state, whose checks stand in the order of its rule; its `exec` form runs
it on the machine's own parameters and completes it (00_scope.md R11). -/

namespace Sys2Proof.Machine

/-- RESID's sample reads in pseudocode order: SRC before PRED of each element, row-major (40_transform.md R135,
60_exceptions.md R271). -/
def State.residReads (s : State) (p : Plane) (ts : TxSize) (bd : BitDepth) : List Nat :=
  (grid ts.height ts.width).flatMap fun rc => [s.srcAddr p bd rc.1 rc.2, s.predAddr p bd rc.1 rc.2]

/-- RES[r][c] = s - q (40_transform.md R135). -/
def State.residual (s : State) (p : Plane) (bd : BitDepth) (r c : Nat) : Int :=
  (s.sample bd (s.srcAddr p bd r c) : Int) - s.sample bd (s.predAddr p bd r c)

/-- RESID (40_transform.md R135). -/
def resid (p : Plane) (s : State) : Except CmdError State := do
  let bd ← s.needBitDepth
  let ts ← s.needTxSize
  s.checkAccesses (sampleAccesses bd .read (s.residReads p ts bd))
  s.checkSamples bd (s.residReads p ts bd)
  .ok (s.commitRes p ts bd (tabulate ts.height ts.width (s.residual p bd)))

/-- RESID p on the machine's parameters. -/
def execResid (p : Plane) (s : State) : Host.Outcome State Fault Refusal :=
  .next (s.complete (encode (.resid p)) (resid p s))

/-- C[r][c], the forward transform of RES (40_transform.md R136). -/
def State.forward (P : Params) (s : State) (ts : TxSize) (tt : TxType) (bd : BitDepth) (r c : Nat) : Int :=
  P.fwdTx ts tt bd s.scr.res r c

/-- Position (r, c) lies in the coded region (30_encoding.md R104). -/
def coded (ts : TxSize) (rc : Nat × Nat) : Bool := decide (rc.1 < ts.codedHeight) && decide (rc.2 < ts.codedWidth)

/-- E: the sum of the squares outside the coded region, in unbounded integers (40_transform.md R137). -/
def discardedEnergy (ts : TxSize) (f : Nat → Nat → Int) : Int :=
  (((grid ts.height ts.width).filter fun rc => !coded ts rc).map fun rc => f rc.1 rc.2 ^ 2).sum

/-- min(E, 2^64 - 1) (40_transform.md R136). -/
def energy3q (ts : TxSize) (f : Nat → Nat → Int) : Nat := min (discardedEnergy ts f).toNat (2 ^ 64 - 1)

/-- Every element of the h by w array lies below the bound in magnitude (40_transform.md R136, R138). -/
def allBelow (h w : Nat) (bound : Int) (f : Nat → Nat → Int) : Bool := (grid h w).all fun rc => decide (|f rc.1 rc.2| < bound)

/-- FTX (40_transform.md R136). -/
def ftx (P : Params) (p : Plane) (s : State) : Except CmdError State := do
  let bd ← s.needBitDepth
  let ts ← s.needTxSize
  let tt ← s.needTxType p ts
  needTag s.scr.resTag p ts bd
  require (allBelow ts.codedHeight ts.codedWidth (2 ^ 30) (s.forward P ts tt bd)) .range
  .ok (s.commitCoef p ts bd (tabulate ts.codedHeight ts.codedWidth (s.forward P ts tt bd))
    (energy3q ts (s.forward P ts tt bd)))

/-- FTX p on the machine's parameters. -/
def execFtx (p : Plane) (s : State) : Host.Outcome State Fault Refusal :=
  .next (s.complete (encode (.ftx p)) (ftx Config.params p s))

/-- R[r][c], the inverse transform of DQCOEF (40_transform.md R138). -/
def State.inverse (P : Params) (s : State) (ts : TxSize) (tt : TxType) (bd : BitDepth) (r c : Nat) : Int :=
  P.invTx ts tt bd s.scr.dqcoef r c

/-- ITX (40_transform.md R138). -/
def itx (P : Params) (p : Plane) (s : State) : Except CmdError State := do
  let bd ← s.needBitDepth
  let ts ← s.needTxSize
  let tt ← s.needTxType p ts
  needTag s.scr.qcTag p ts bd
  require (allBelow ts.height ts.width (2 ^ 31) (s.inverse P ts tt bd)) .range
  .ok (s.commitIres p ts bd (tabulate ts.height ts.width (s.inverse P ts tt bd)))

/-- ITX p on the machine's parameters. -/
def execItx (p : Plane) (s : State) : Host.Outcome State Fault Refusal :=
  .next (s.complete (encode (.itx p)) (itx Config.params p s))

/-- RECON's reads of PRED, row-major (40_transform.md R139). -/
def State.predReads (s : State) (p : Plane) (ts : TxSize) (bd : BitDepth) : List Nat :=
  (grid ts.height ts.width).map fun rc => s.predAddr p bd rc.1 rc.2

/-- RECON's writes of RECON, row-major (40_transform.md R139). -/
def State.reconWrites (s : State) (p : Plane) (ts : TxSize) (bd : BitDepth) : List Nat :=
  (grid ts.height ts.width).map fun rc => s.reconAddr p bd rc.1 rc.2

/-- The reconstructed sample: clip_bd(q + e), with e = IRES[r][c], or 0 in the skip form (40_transform.md R139). -/
def State.recSample (s : State) (p : Plane) (ts : TxSize) (bd : BitDepth) (skip : Bool) (r c : Nat) : Int :=
  clipBd bd (s.sample bd (s.predAddr p bd r c) + if skip then 0 else elem s.scr.ires ts.width r c)

/-- RECON (40_transform.md R139). -/
def recon (p : Plane) (skip : Bool) (s : State) : Except CmdError State := do
  let bd ← s.needBitDepth
  let ts ← s.needTxSize
  require (skip || s.scr.iresTag.accepts p ts bd) .seq
  s.checkAccesses (sampleAccesses bd .read (s.predReads p ts bd) ++ sampleAccesses bd .write (s.reconWrites p ts bd))
  s.checkSamples bd (s.predReads p ts bd)
  .ok (s.commitMem bd.bytes ((grid ts.height ts.width).map fun rc =>
    (s.reconAddr p bd rc.1 rc.2, (s.recSample p ts bd skip rc.1 rc.2).toNat)))

/-- RECON p, with FLAG, on the machine. -/
def execRecon (p : Plane) (skip : Bool) (s : State) : Host.Outcome State Fault Refusal :=
  .next (s.complete (encode (.recon p skip)) (recon p skip s))

end Sys2Proof.Machine
end

