-- ==== Sys2Proof/Machine/Dispatch.lean ====
section
/-! DEFINITION. One arm per command: "execute the rule of opc with (p, f)" (30_encoding.md R101). Everything dispatch does
before that (the drop while STATUS.ERR = 1, the encoding errors) stands in Machine/Port.lean. -/

namespace Sys2Proof.Machine

/-- The meaning of a command (30_encoding.md R102). -/
def exec (i : Instr) (s : State) : Host.Outcome State Fault Refusal :=
  match i with
  | .nop => Sys2Proof.Machine.execNop s
  | .resid p => Sys2Proof.Machine.execResid p s
  | .ftx p => Sys2Proof.Machine.execFtx p s
  | .quant p => Sys2Proof.Machine.execQuant p s
  | .itx p => Sys2Proof.Machine.execItx p s
  | .recon p skip => Sys2Proof.Machine.execRecon p skip s
  | .txflag p => Sys2Proof.Machine.execTxflag p s
  | .stcoef p dequant => Sys2Proof.Machine.execStcoef p dequant s
  | .cflAc fromPred => Sys2Proof.Machine.execCflAc fromPred s
  | .cflPred p => Sys2Proof.Machine.execCflPred p s
  | .dqp toQidx => Sys2Proof.Machine.execDqp toQidx s
  | .tuClr => Sys2Proof.Machine.execTuClr s

end Sys2Proof.Machine
end

