-- ==== Sys2Proof/Machine/RegFile.lean ====
section
/-! DEFINITION. The register map of 10_state.md section 1: the offset of every register, its implemented bits, the value
the host reads (R56), and what a host write does to a register other than CMD (R56, 44_control.md R252, R253, R255). -/

namespace Sys2Proof.Machine

/-- The mapped registers (10_state.md section 1). -/
inductive Reg where
  | id
  | ctrl
  | status
  | cmd
  | picCfg
  | qpBounds
  | tuCfg
  | tuXy
  | predXy
  | qidx
  | cflAlpha
  | lumaXy
  | baseQp
  | dqpDist
  | dqpCtl
  | dqpVar
  | dqpActhr
  | dqpResult
  | errAddr
  | errCmd
  | dqpMin (d : Depth)
  | dqpAvg (d : Depth)
  | dqpMax (d : Depth)
  | dqpWgt (d : Depth)
  | descBase (b : Buf) (p : Plane)
  | descStride (b : Buf) (p : Plane)
  | descOrg (b : Buf) (p : Plane)
  | coefBase (p : Plane)
  | eob (p : Plane)
  | nz (p : Plane)
  | e3qLo (p : Plane)
  | e3qHi (p : Plane)
  | tuStatus
deriving DecidableEq, Repr

/-- The byte offset of a register (10_state.md section 1). -/
def Reg.offset : Reg → Nat
  | .id => 0x000
  | .ctrl => 0x004
  | .status => 0x008
  | .cmd => 0x00C
  | .picCfg => 0x010
  | .qpBounds => 0x014
  | .tuCfg => 0x018
  | .tuXy => 0x01C
  | .predXy => 0x020
  | .qidx => 0x024
  | .cflAlpha => 0x028
  | .lumaXy => 0x02C
  | .baseQp => 0x030
  | .dqpDist => 0x034
  | .dqpCtl => 0x038
  | .dqpVar => 0x03C
  | .dqpActhr => 0x040
  | .dqpResult => 0x044
  | .errAddr => 0x048
  | .errCmd => 0x04C
  | .dqpMin d => 0x060 + 0x10 * d.index
  | .dqpAvg d => 0x064 + 0x10 * d.index
  | .dqpMax d => 0x068 + 0x10 * d.index
  | .dqpWgt d => 0x06C + 0x10 * d.index
  | .descBase b p => 0x100 + 0x10 * (3 * b.index + p.index)
  | .descStride b p => 0x104 + 0x10 * (3 * b.index + p.index)
  | .descOrg b p => 0x108 + 0x10 * (3 * b.index + p.index)
  | .coefBase p => 0x190 + 4 * p.index
  | .eob p => 0x1A0 + 0x10 * p.index
  | .nz p => 0x1A4 + 0x10 * p.index
  | .e3qLo p => 0x1A8 + 0x10 * p.index
  | .e3qHi p => 0x1AC + 0x10 * p.index
  | .tuStatus => 0x1D0

/-- The three planes and the indexed families, for listing the map. -/
def Plane.list : List Plane := [.y, .u, .v]
def Depth.list : List Depth := [.d0, .d1, .d2, .d3]
def Buf.list : List Buf := [.src, .pred, .recon]

/-- Every mapped register. -/
def Reg.all : List Reg :=
  [.id, .ctrl, .status, .cmd, .picCfg, .qpBounds, .tuCfg, .tuXy, .predXy, .qidx, .cflAlpha, .lumaXy, .baseQp, .dqpDist,
   .dqpCtl, .dqpVar, .dqpActhr, .dqpResult, .errAddr, .errCmd]
  ++ (Depth.list.flatMap fun d => [.dqpMin d, .dqpAvg d, .dqpMax d, .dqpWgt d])
  ++ (Buf.list.flatMap fun b => Plane.list.flatMap fun p => [.descBase b p, .descStride b p, .descOrg b p])
  ++ (Plane.list.map fun p => .coefBase p)
  ++ (Plane.list.flatMap fun p => [.eob p, .nz p, .e3qLo p, .e3qHi p])
  ++ [.tuStatus]

/-- The register at a byte offset; none if the offset is unmapped (10_state.md section 1, R56). -/
def Reg.ofOffset (off : Nat) : Option Reg := Reg.all.find? fun r => r.offset == off

/-- The identity value (10_state.md R30). -/
def idValue : Word := 0x54580001

/-- The bits of a register that hold state or are computed; every other bit is reserved and reads 0 (10_state.md R30-R58). -/
def Reg.implemented : Reg → Word
  | .id => 0xFFFFFFFF
  | .ctrl => fieldMask 1 1
  | .status => fieldMask 0 0 ||| fieldMask 2 2 ||| fieldMask 23 8
  | .cmd => 0
  | .picCfg => fieldMask 9 0
  | .qpBounds => fieldMask 24 0
  | .tuCfg => fieldMask 21 0
  | .tuXy => 0xFFFFFFFF
  | .predXy => 0xFFFFFFFF
  | .qidx => fieldMask 7 0
  | .cflAlpha => fieldMask 10 0
  | .lumaXy => 0xFFFFFFFF
  | .baseQp => fieldMask 7 0
  | .dqpDist => 0xFFFFFFFF
  | .dqpCtl => fieldMask 5 0 ||| fieldMask 23 8
  | .dqpVar => 0xFFFFFFFF
  | .dqpActhr => 0xFFFFFFFF
  | .dqpResult => fieldMask 7 0 ||| fieldMask 31 16
  | .errAddr => 0xFFFFFFFF
  | .errCmd => 0xFFFFFFFF
  | .dqpMin _ => 0xFFFFFFFF
  | .dqpAvg _ => 0xFFFFFFFF
  | .dqpMax _ => 0xFFFFFFFF
  | .dqpWgt _ => 0xFFFFFFFF
  | .descBase _ _ => 0xFFFFFFFF
  | .descStride _ _ => fieldMask 15 0
  | .descOrg .pred _ => 0
  | .descOrg .src _ => 0xFFFFFFFF
  | .descOrg .recon _ => 0xFFFFFFFF
  | .coefBase _ => 0xFFFFFFFF
  | .eob _ => fieldMask 12 0
  | .nz _ => fieldMask 12 0
  | .e3qLo _ => 0xFFFFFFFF
  | .e3qHi _ => 0xFFFFFFFF
  | .tuStatus => fieldMask 6 0 ||| fieldMask 12 8

/-- The value a register holds, before its reserved bits are read as 0. -/
def State.regValue (s : State) : Reg → Word
  | .id => idValue
  | .ctrl => s.cfg.ctrl
  | .status => s.err.status
  | .cmd => 0
  | .picCfg => s.cfg.picCfg
  | .qpBounds => s.cfg.qpBounds
  | .tuCfg => s.cfg.tuCfg
  | .tuXy => s.cfg.tuXy
  | .predXy => s.cfg.predXy
  | .qidx => s.cfg.qidx
  | .cflAlpha => s.cfg.cflAlpha
  | .lumaXy => s.cfg.lumaXy
  | .baseQp => s.cfg.baseQp
  | .dqpDist => s.cfg.dqpDist
  | .dqpCtl => s.cfg.dqpCtl
  | .dqpVar => s.cfg.dqpVar
  | .dqpActhr => s.cfg.dqpActhr
  | .dqpResult => s.rslt.dqpResult
  | .errAddr => s.err.errAddr
  | .errCmd => s.err.errCmd
  | .dqpMin d => s.cfg.dqpMin.get d
  | .dqpAvg d => s.cfg.dqpAvg.get d
  | .dqpMax d => s.cfg.dqpMax.get d
  | .dqpWgt d => s.cfg.dqpWgt.get d
  | .descBase b p => (s.cfg.descBase.get b).get p
  | .descStride b p => (s.cfg.descStride.get b).get p
  | .descOrg b p => s.descOrg b p
  | .coefBase p => s.cfg.coefBase.get p
  | .eob p => s.rslt.eob.get p
  | .nz p => s.rslt.nz.get p
  | .e3qLo p => s.rslt.e3qLo.get p
  | .e3qHi p => s.rslt.e3qHi.get p
  | .tuStatus => s.tuStatus

/-- A host read of a mapped register: its value, with the reserved bits and write-only registers 0 (10_state.md R56).
Nothing changes (44_control.md R256). -/
def State.readReg (s : State) (r : Reg) : Word := s.regValue r &&& r.implemented

/-- A host read at an offset; an unmapped offset reads 0 (10_state.md R56). -/
def State.readOffset (s : State) (off : Nat) : Word :=
  match Reg.ofOffset off with
  | some r => s.readReg r
  | none => 0

/-- The written value with the reserved bits dropped (10_state.md R56). -/
def Reg.stored (r : Reg) (v : Word) : Word := v &&& r.implemented

/-- A host write of v to CTRL: SRST = 1 is a soft reset and nothing else of v counts; SRST = 0 stores IRQ_EN
(44_control.md R252). -/
def State.writeCtrl (s : State) (v : Word) : State :=
  if bits v 0 0 = 1 then s.engineReset else { s with cfg := { s.cfg with ctrl := Reg.ctrl.stored v } }

/-- A host write of v to STATUS: bit 0 = 1 clears the error; with bit 0 = 0 the write has no effect (44_control.md R253). -/
def State.writeStatus (s : State) (v : Word) : State := if bits v 0 0 = 1 then s.clearError else s

/-- A host write of v to a mapped register other than CMD: the RW fields are stored, reserved and RO bits are ignored
(10_state.md R56, 44_control.md R255). CMD holds no state (10_state.md R33): its write is `State.issue`. -/
def State.writeReg (s : State) (r : Reg) (v : Word) : State :=
  match r with
  | .id => s
  | .ctrl => s.writeCtrl v
  | .status => s.writeStatus v
  | .cmd => s
  | .picCfg => { s with cfg := { s.cfg with picCfg := r.stored v } }
  | .qpBounds => { s with cfg := { s.cfg with qpBounds := r.stored v } }
  | .tuCfg => { s with cfg := { s.cfg with tuCfg := r.stored v } }
  | .tuXy => { s with cfg := { s.cfg with tuXy := r.stored v } }
  | .predXy => { s with cfg := { s.cfg with predXy := r.stored v } }
  | .qidx => { s with cfg := { s.cfg with qidx := r.stored v } }
  | .cflAlpha => { s with cfg := { s.cfg with cflAlpha := r.stored v } }
  | .lumaXy => { s with cfg := { s.cfg with lumaXy := r.stored v } }
  | .baseQp => { s with cfg := { s.cfg with baseQp := r.stored v } }
  | .dqpDist => { s with cfg := { s.cfg with dqpDist := r.stored v } }
  | .dqpCtl => { s with cfg := { s.cfg with dqpCtl := r.stored v } }
  | .dqpVar => { s with cfg := { s.cfg with dqpVar := r.stored v } }
  | .dqpActhr => { s with cfg := { s.cfg with dqpActhr := r.stored v } }
  | .dqpResult => s
  | .errAddr => s
  | .errCmd => s
  | .dqpMin d => { s with cfg := { s.cfg with dqpMin := s.cfg.dqpMin.set d (r.stored v) } }
  | .dqpAvg d => { s with cfg := { s.cfg with dqpAvg := s.cfg.dqpAvg.set d (r.stored v) } }
  | .dqpMax d => { s with cfg := { s.cfg with dqpMax := s.cfg.dqpMax.set d (r.stored v) } }
  | .dqpWgt d => { s with cfg := { s.cfg with dqpWgt := s.cfg.dqpWgt.set d (r.stored v) } }
  | .descBase b p =>
    { s with cfg := { s.cfg with descBase := s.cfg.descBase.set b ((s.cfg.descBase.get b).set p (r.stored v)) } }
  | .descStride b p =>
    { s with cfg := { s.cfg with descStride := s.cfg.descStride.set b ((s.cfg.descStride.get b).set p (r.stored v)) } }
  | .descOrg .src p => { s with cfg := { s.cfg with orgSrc := s.cfg.orgSrc.set p (r.stored v) } }
  | .descOrg .pred _ => s
  | .descOrg .recon p => { s with cfg := { s.cfg with orgRecon := s.cfg.orgRecon.set p (r.stored v) } }
  | .coefBase p => { s with cfg := { s.cfg with coefBase := s.cfg.coefBase.set p (r.stored v) } }
  | .eob _ => s
  | .nz _ => s
  | .e3qLo _ => s
  | .e3qHi _ => s
  | .tuStatus => s

end Sys2Proof.Machine
end

