-- ==== Sys2Proof/Machine/Port.lean ====
section
/-! DEFINITION. The host side: issuing a command word (30_encoding.md R101), one access of the host or one assertion of
`rst` (10_state.md R56, 30_encoding.md R110, 70_reset_and_hazards.md R301), and one step of the machine, which consumes
the next event of the host's sequence (10_state.md R54, 30_encoding.md R110). -/

namespace Sys2Proof.Machine

/-- OnCmdWrite(w) (30_encoding.md R101): dropped while STATUS.ERR = 1 (60_exceptions.md R274); an encoding error is an
error entry; otherwise the command runs. -/
def issue (w : Word) (s : State) : Host.Outcome State Fault Refusal :=
  if s.errFlag then .next s
  else
    match decode w with
    | .error c => .next (s.errorEntry w ⟨c, none⟩)
    | .ok i => exec i s

/-- A register access has the one shape the spec defines: 32 bits wide and 4-byte aligned (10_state.md R56). -/
def portAccessOk (width : Nat) (off : BitVec 12) : Bool := width == 32 && off.toNat % 4 == 0

/-- A 32-bit aligned host write (10_state.md R56): CMD issues a command, an unmapped offset ignores the write. -/
def portWrite (off : BitVec 12) (v : Word) (s : State) : Host.Outcome State Fault Refusal :=
  match Reg.ofOffset off.toNat with
  | none => .next s
  | some .cmd => issue v s
  | some r => .next (s.writeReg r v)

/-- The host receives a read value. -/
def State.answer (s : State) (v : Word) : State := { s with port := { s.port with reads := v :: s.port.reads } }

/-- One access of the host, or `rst`. The host's own memory write stores n bytes, little-endian, outside the engine
(30_encoding.md R110). DESIGN CHOICE (log entry 7), safe; a misshapen access is refused (log entry 8), safe. -/
def hostEvent (e : HostEvent) (s : State) : Host.Outcome State Fault Refusal :=
  match e with
  | .regWrite width off v => if portAccessOk width off then portWrite off v s else .refused .hostAccessShape
  | .regRead width off =>
    if portAccessOk width off then .next (s.answer (s.readOffset off.toNat)) else .refused .hostAccessShape
  | .memWrite n a v =>
    if a + n ≤ 2 ^ 32 then .next { s with mem := Memory.write s.mem a n v } else .fault .hostMemRange
  | .rst => .next s.engineReset

/-- Whether an event is a register access, which the position counts (10_state.md R54, 92_eei_decisions.md D3). A memory write
by the host or another agent, and `rst`, are no register access. DEDUCED (log entry 10), safe. -/
def HostEvent.isRegAccess (e : HostEvent) : Bool :=
  match e with
  | .regWrite _ _ _ => true
  | .regRead _ _ => true
  | .memWrite _ _ _ => false
  | .rst => false

/-- The next event is taken from the sequence; the position advances by one per register access (10_state.md R54). The
sequence as plain data is the model's: DESIGN CHOICE (log entry 1), safe. -/
def State.advance (s : State) : State :=
  match s.port.pending with
  | [] => s
  | e :: rest => { s with port := { s.port with pending := rest, pos := s.port.pos + e.isRegAccess.toNat } }

/-- One step: the next event of the host's sequence, or nothing where none is pending (70_reset_and_hazards.md R302). -/
def hostStep (s : State) : Host.Outcome State Fault Refusal :=
  match s.port.pending with
  | [] => .next s
  | e :: _ => hostEvent e s.advance

/-- The machine with a write of word w to CMD as the host's next access, in place of the one that was next. -/
def State.withCommand (s : State) (w : Word) : State :=
  { s with port := { s.port with pending := .regWrite 32 0x00C w :: s.port.pending.tail } }

end Sys2Proof.Machine
end

