-- ==== Sys2Proof/Machine/Step.lean ====
section
/-! DEFINITION. The step of the machine, and placing a command where the step takes its next one. -/

namespace Sys2Proof.Machine

/-- One step of the machine: one access of the host (92_eei_decisions.md D2: a command is one atomic step). -/
def step : State → Host.Outcome State Fault Refusal := hostStep

/-- s with the command of these bits as the next thing the host does: a 32-bit write of the word to CMD (10_state.md R33).
The engine fetches no command from memory (20_memory.md R86). -/
def State.withFetchWord (s : State) (nbits w : Nat) : State := s.withCommand (BitVec.ofNat 32 (w % 2 ^ nbits))

end Sys2Proof.Machine
end

