-- ==== Sys2Proof/Machine/Asm.lean ====
section
/-! DEFINITION. The text of commands and the host program's abbreviations (30_encoding.md R109-R111). -/

namespace Sys2Proof.Machine

/-- `pN` (30_encoding.md R109). -/
def planeText : Plane → String
  | .y => " p0"
  | .u => " p1"
  | .v => " p2"

/-- `.F` sets FLAG = 1 (30_encoding.md R109). -/
def flagText (f : Bool) : String := if f then ".F" else ""

/-- The text of a command: MNEMONIC, `.F` for FLAG = 1, `pN` for opcodes that use PLANE (30_encoding.md R109). -/
def commandText : Instr → String
  | .nop => "NOP"
  | .resid p => "RESID" ++ planeText p
  | .ftx p => "FTX" ++ planeText p
  | .quant p => "QUANT" ++ planeText p
  | .itx p => "ITX" ++ planeText p
  | .recon p f => "RECON" ++ flagText f ++ planeText p
  | .txflag p => "TXFLAG" ++ planeText p
  | .stcoef p f => "STCOEF" ++ flagText f ++ planeText p
  | .cflAc f => "CFL_AC" ++ flagText f
  | .cflPred p => "CFL_PRED" ++ planeText p
  | .dqp f => "DQP" ++ flagText f
  | .tuClr => "TU_CLR"

/-- Every well-formed command. -/
def allCommands : List Instr :=
  [.nop, .tuClr, .cflAc false, .cflAc true, .cflPred .u, .cflPred .v, .dqp false, .dqp true]
  ++ Plane.list.flatMap fun p =>
    [.resid p, .ftx p, .quant p, .itx p, .recon p false, .recon p true, .txflag p, .stcoef p false, .stcoef p true]

/-- The command a text stands for. -/
def assemble (t : String) : Option Instr := allCommands.find? fun i => commandText i == t

/-- `wr NAME, value` (30_encoding.md R110). -/
def wr (r : Reg) (v : Word) : HostEvent := .regWrite 32 (BitVec.ofNat 12 r.offset) v

/-- `rd NAME` (30_encoding.md R110). -/
def rd (r : Reg) : HostEvent := .regRead 32 (BitVec.ofNat 12 r.offset)

/-- A command line abbreviates `wr CMD, <word>` (30_encoding.md R110). -/
def command (i : Instr) : HostEvent := wr .cmd (encode i)

/-- The pseudo-instructions (30_encoding.md R111). -/
inductive Pseudo where
  | clrerr
  | srst
  | xy (r : Reg) (x y : Nat)
  | tucfg (size ttY ttU ttV pmode : Nat)
  | fwd (p : Plane)
  | inv (p : Plane)
  | tu (p : Plane)
deriving DecidableEq, Repr

/-- The expansion of a pseudo-instruction, which is its meaning (30_encoding.md R111). -/
def Pseudo.expand : Pseudo → List HostEvent
  | .clrerr => [wr .status 0x1]
  | .srst => [wr .ctrl 0x1]
  | .xy r x y => [wr r ((BitVec.ofNat 32 y <<< 16) ||| BitVec.ofNat 32 x)]
  | .tucfg size ttY ttU ttV pmode =>
    [wr .tuCfg (BitVec.ofNat 32 size ||| (BitVec.ofNat 32 ttY <<< 5) ||| (BitVec.ofNat 32 ttU <<< 10)
      ||| (BitVec.ofNat 32 ttV <<< 15) ||| (BitVec.ofNat 32 pmode <<< 20))]
  | .fwd p => [command (.resid p), command (.ftx p), command (.quant p)]
  | .inv p => [command (.itx p), command (.recon p false)]
  | .tu p => [command (.resid p), command (.ftx p), command (.quant p), command (.txflag p), command (.itx p),
              command (.recon p false)]

end Sys2Proof.Machine
end

