-- ==== Sys2Proof/Machine/Platform.lean ====
section
/-! DEFINITION. Several engines on one platform (60_exceptions.md R281, 20_memory.md R84): each has its own register file,
scratch, interrupt line and host sequence, and all share external memory. Commands are atomic (92_eei_decisions.md D2), so
a run of the platform is an interleaving of single steps, whose order the schedule gives. DESIGN CHOICE (log entry 13),
unsafe. -/

namespace Sys2Proof.Machine

/-- A platform of engines. A parked engine holds no memory and no admission map: both are the platform's. -/
structure Platform where
  engines : List State
  mem : Memory
  admission : List AdmitRule
  /-- THE MODEL'S OWN: which engine moves next. -/
  schedule : List Nat
deriving DecidableEq, Repr

/-- An engine as it is kept while another one moves. -/
def State.park (s : State) : State := { s with mem := [], admission := [] }

/-- An engine of the platform, seen with the shared memory. -/
def Platform.view (pl : Platform) (e : State) : State := { e with mem := pl.mem, admission := pl.admission }

/-- Engine k takes one step on the shared memory (60_exceptions.md R281). -/
def Platform.stepEngine (pl : Platform) (k : Nat) : Host.Outcome Platform Fault Refusal :=
  match pl.engines[k]? with
  | none => .refused .noSuchEngine
  | some e =>
    match step (pl.view e) with
    | .next t => .next { pl with engines := pl.engines.set k t.park, mem := t.mem }
    | .fault r => .fault r
    | .refused r => .refused r

/-- One step of the platform: the engine the schedule names, or nothing. -/
def Platform.step (pl : Platform) : Host.Outcome Platform Fault Refusal :=
  match pl.schedule with
  | [] => .next pl
  | k :: rest => Platform.stepEngine { pl with schedule := rest } k

/-- N_ENGINES engines out of reset, on memory that no agent has written, on a platform that admits what the OPEN parameter
MEM_ADMIT says (60_exceptions.md R281, 20_memory.md R77; log entry 4). Nothing is scheduled: DESIGN CHOICE (log entry 13),
safe. -/
def Platform.reset : Platform where
  engines := List.replicate Config.params.nEngines State.reset.park
  mem := []
  admission := Config.params.memAdmit
  schedule := []

end Sys2Proof.Machine
end

