-- ==== Sys2Proof/Safety.lean ====
section
/-! DEFINITION. The terms in which claims about the machine are stated: usable samples and words, the first failing access,
the invariants of the machine, the observable state, and states that differ only in what no command can read. -/

namespace Sys2Proof.Machine

/-- A sample read at address a succeeds: aligned, inside the 2^32 bytes, admitted, and below 2^bd (20_memory.md R76, R77). -/
def SampleReadable (s : State) (bd : BitDepth) (a : Nat) : Prop :=
  a % bd.bytes = 0 ∧ a + bd.bytes ≤ 2 ^ 32 ∧ s.memAdmit ⟨a, bd.bytes, .read⟩ = true ∧ s.sample bd a < 2 ^ bd.bits

/-- A sample write at address a succeeds (20_memory.md R77). -/
def SampleWritable (s : State) (bd : BitDepth) (a : Nat) : Prop :=
  a % bd.bytes = 0 ∧ a + bd.bytes ≤ 2 ^ 32 ∧ s.memAdmit ⟨a, bd.bytes, .write⟩ = true

/-- A four-byte store at address a succeeds (20_memory.md R77). -/
def WordWritable (s : State) (a : Nat) : Prop :=
  a % 4 = 0 ∧ a + 4 ≤ 2 ^ 32 ∧ s.memAdmit ⟨a, 4, .write⟩ = true

/-- Every position of an h by w block has the property. -/
def ForBlock (h w : Nat) (P : Nat → Nat → Prop) : Prop := ∀ r c, r < h → c < w → P r c

/-- x is the first element of the list, in its order, that fails the check. -/
def FirstBad {α : Type} (l : List α) (ok : α → Bool) (x : α) : Prop :=
  ∃ pre post, l = pre ++ x :: post ∧ (∀ y ∈ pre, ok y = true) ∧ ok x = false

/-- Every element of the list passes the check. -/
def AllOk {α : Type} (l : List α) (ok : α → Bool) : Prop := ∀ y ∈ l, ok y = true

/-- Byte b lies outside the n bytes at address a. -/
def Outside (a n b : Nat) : Prop := b < a ∨ a + n ≤ b

/-- The n-byte ranges at two addresses do not meet. -/
def Apart (a b n : Nat) : Prop := a + n ≤ b ∨ b + n ≤ a

/-- The state after an error of command i with code c and, where it has one, faulting address a (60_exceptions.md R271). -/
def State.failed (s : State) (i : Instr) (c : ErrCode) (a : Option Nat) : State := s.errorEntry (encode i) ⟨c, a⟩

/-- The registers whose write only stores: RW, and neither CTRL nor STATUS nor CMD (10_state.md section 1). -/
def storingRegs : List Reg :=
  [.picCfg, .qpBounds, .tuCfg, .tuXy, .predXy, .qidx, .cflAlpha, .lumaXy, .baseQp, .dqpDist, .dqpCtl, .dqpVar, .dqpActhr]
  ++ (Depth.list.flatMap fun d => [.dqpMin d, .dqpAvg d, .dqpMax d, .dqpWgt d])
  ++ (Plane.list.flatMap fun p => [.descBase .src p, .descBase .pred p, .descBase .recon p, .descStride .src p,
      .descStride .pred p, .descStride .recon p, .descOrg .src p, .descOrg .recon p, .coefBase p])

/-- A memory command whose register checks pass, with its complete access set in pseudocode order (20_memory.md R77, R79). -/
def MemoryAccesses (i : Instr) (s : State) (bd : BitDepth) (accesses : List Access) : Prop :=
  ∃ ts, s.bitDepth = some bd ∧ s.txSize = some ts ∧
    match i with
    | .resid p => accesses = sampleAccesses bd .read
        ((grid ts.height ts.width).flatMap fun rc => [s.srcAddr p bd rc.1 rc.2, s.predAddr p bd rc.1 rc.2])
    | .recon p f => (f = true ∨ s.scr.iresTag.accepts p ts bd = true) ∧ accesses =
        sampleAccesses bd .read ((grid ts.height ts.width).map fun rc => s.predAddr p bd rc.1 rc.2) ++
        sampleAccesses bd .write ((grid ts.height ts.width).map fun rc => s.reconAddr p bd rc.1 rc.2)
    | .stcoef p _ => s.scr.qcTag.accepts p ts bd = true ∧ accesses =
        (List.range (ts.codedHeight * ts.codedWidth)).map fun k => ⟨s.coefAddr p k, 4, .write⟩
    | .cflAc f => s.predMode = some .intra ∧ ts.width ≤ 32 ∧ ts.height ≤ 32 ∧ ∃ fmt, s.chromaFormat = some fmt ∧
        accesses = sampleAccesses bd .read
          ((grid (ts.height * 2 ^ fmt.ssy) (ts.width * 2 ^ fmt.ssx)).map fun yx => s.lumaAddr f bd yx.1 yx.2)
    | .cflPred p => p ≠ .y ∧ s.predMode = some .intra ∧ ts.width ≤ 32 ∧ ts.height ≤ 32 ∧
        s.scr.cflacTag.accepts .y ts bd = true ∧ accesses =
        sampleAccesses bd .read ((grid ts.height ts.width).map fun rc => s.predAddr p bd rc.1 rc.2) ++
        sampleAccesses bd .write ((grid ts.height ts.width).map fun rc => s.predAddr p bd rc.1 rc.2)
    | _ => False

/-- External memory is in its canonical form: the 2^32 bytes of 20_memory.md R70, in the model's own order (log entry 2). -/
def MemoryOk (s : State) : Prop := Memory.wf s.mem = true

/-- The reserved bits of every register hold 0 (10_state.md section 1, "rsvd"). -/
def ReservedZero (s : State) : Prop := ∀ r : Reg, s.regValue r &&& ~~~r.implemented = 0

/-- The error registers tell one story (10_state.md R32, R58, 60_exceptions.md R270, R271): all 0 with ERR = 0; with
ERR = 1 a code of the table, the opcode of the recorded command, an address flagged for ALIGN and BUS and never for the
other codes than RANGE, and ERR_ADDR 0 where none is flagged. -/
def ErrorOk (s : State) : Prop :=
  (s.errFlag = false → s.err = ErrRegs.reset) ∧
  (s.errFlag = true →
    s.err.status = packStatus true s.errAv s.errCode s.errOpc ∧
    0x01 ≤ s.errCode ∧ s.errCode ≤ 0x0E ∧
    s.errOpc = cmdOpc s.err.errCmd ∧
    (s.errCode = 0x09 ∨ s.errCode = 0x0A → s.errAv = true) ∧
    (s.errAv = true → s.errCode = 0x09 ∨ s.errCode = 0x0A ∨ s.errCode = 0x0B) ∧
    (s.errAv = false → s.err.errAddr = 0))

/-- A valid buffer holds data of its producer's own chain (10_state.md R55, 70_reset_and_hazards.md R307, R308): COEF was
computed from the RES now held, QC from that COEF, IRES from that QC; CFLAC's plane field is 0. -/
def ChainOk (s : State) : Prop :=
  (s.scr.coefTag.valid = true → s.scr.coefTag = s.scr.resTag) ∧
  (s.scr.qcTag.valid = true → s.scr.qcTag = s.scr.coefTag) ∧
  (s.scr.iresTag.valid = true → s.scr.iresTag = s.scr.qcTag) ∧
  s.scr.cflacTag.plane = .y

/-- While a buffer's tag is valid, it has n elements, each below the bound in magnitude. -/
def BufferOk (t : Tag) (n : TxSize → Nat) (bound : BitDepth → Int) (a : List Int) : Prop :=
  t.valid = true → a.length = n t.txsz ∧ ∀ x ∈ a, |x| < bound t.bd

/-- Every valid scratch buffer has the shape and the element range of 10_state.md R53: RES below 2^bd, COEF below 2^30,
QCOEF, DQCOEF and IRES below 2^31, CFLAC at most 32760 (42_cfl.md R202), and CFLAC at most 32 by 32. -/
def ScratchOk (s : State) : Prop :=
  BufferOk s.scr.resTag (fun ts => ts.height * ts.width) (fun bd => 2 ^ bd.bits) s.scr.res ∧
  BufferOk s.scr.coefTag TxSize.codedArea (fun _ => 2 ^ 30) s.scr.coef ∧
  BufferOk s.scr.qcTag TxSize.codedArea (fun _ => 2 ^ 31) s.scr.qcoef ∧
  BufferOk s.scr.qcTag TxSize.codedArea (fun _ => 2 ^ 31) s.scr.dqcoef ∧
  BufferOk s.scr.iresTag (fun ts => ts.height * ts.width) (fun _ => 2 ^ 31) s.scr.ires ∧
  BufferOk s.scr.cflacTag (fun ts => ts.height * ts.width) (fun _ => 32761) s.scr.cflac ∧
  (s.scr.cflacTag.valid = true → s.scr.cflacTag.txsz.width ≤ 32 ∧ s.scr.cflacTag.txsz.height ≤ 32)

/-- 0 ≤ NZ ≤ EOB ≤ 1024 on every plane, and NZ = 0 exactly when EOB = 0 (41_quant.md R173). -/
def CountsOk (s : State) : Prop :=
  ∀ p, (s.rslt.nz.get p).toNat ≤ (s.rslt.eob.get p).toNat ∧ (s.rslt.eob.get p).toNat ≤ 1024 ∧
    ((s.rslt.nz.get p).toNat = 0 ↔ (s.rslt.eob.get p).toNat = 0)

/-- Agreement on everything a host can compare: register reads, memory bytes, the irq level (44_control.md R258). -/
def SameObservable (s t : State) : Prop :=
  (∀ off, s.readOffset off = t.readOffset off) ∧ (∀ a, Memory.readByte s.mem a = Memory.readByte t.mem a) ∧ s.irq = t.irq

/-- Two tags agree as far as a consumer can tell: the same valid bit, and the same tag while valid. -/
def SameTag (t u : Tag) : Prop := t.valid = u.valid ∧ (t.valid = true → t = u)

/-- Two buffers agree while their tag is valid. -/
def SameBuffer (t : Tag) (a b : List Int) : Prop := t.valid = true → a = b

/-- Two states that differ only in what no command can read: the contents of scratch buffers that are not valid, and the
other fields of their tags (93_implementation_defined.md I40, I41). -/
def SameButInvalidScratch (s t : State) : Prop :=
  t = { s with scr := t.scr } ∧
  SameTag s.scr.resTag t.scr.resTag ∧ SameTag s.scr.coefTag t.scr.coefTag ∧ SameTag s.scr.qcTag t.scr.qcTag ∧
  SameTag s.scr.iresTag t.scr.iresTag ∧ SameTag s.scr.cflacTag t.scr.cflacTag ∧
  SameBuffer s.scr.resTag s.scr.res t.scr.res ∧ SameBuffer s.scr.coefTag s.scr.coef t.scr.coef ∧
  SameBuffer s.scr.qcTag s.scr.qcoef t.scr.qcoef ∧ SameBuffer s.scr.qcTag s.scr.dqcoef t.scr.dqcoef ∧
  SameBuffer s.scr.iresTag s.scr.ires t.scr.ires ∧ SameBuffer s.scr.cflacTag s.scr.cflac t.scr.cflac

end Sys2Proof.Machine
end

