-- ==== Sys2Proof/Certificates/Slice0/Obligations.lean ====
section
/-! DEFINITION. The statements for the provers, each a `def Obligations.<Name> : Prop`; OBLIGATIONS.json lists them with the
rules of spec/ they formalise. -/

open Sys2Proof Sys2Proof.Machine

/-! ### Encoding and dispatch (30_encoding.md) -/

/-- A word decodes to a command exactly if it is that command's word and the plane is one the opcode allows: no bit of an
encoding is dropped, and no other word is the command (30_encoding.md R100, R102, R103). -/
def Obligations.DecodeIsInverseOfEncode : Prop :=
  ∀ (w : Word) (i : Instr), decode w = .ok i ↔ i.wf = true ∧ encode i = w

/-- The words of 30_encoding.md R103, R109 decode as they read there, and the reserved ones of R108 are rejected by name. -/
def Obligations.TableWordsDecode : Prop :=
  decode 0x00000000 = .ok .nop ∧ decode 0x00000001 = .ok (.resid .y) ∧ decode 0x00000102 = .ok (.ftx .u) ∧
  decode 0x00000203 = .ok (.quant .v) ∧ decode 0x00000004 = .ok (.itx .y) ∧ decode 0x00000505 = .ok (.recon .u true) ∧
  decode 0x00000006 = .ok (.txflag .y) ∧ decode 0x00000607 = .ok (.stcoef .v true) ∧ decode 0x00000408 = .ok (.cflAc true) ∧
  decode 0x00000109 = .ok (.cflPred .u) ∧ decode 0x0000040A = .ok (.dqp true) ∧ decode 0x0000000B = .ok .tuClr ∧
  decode 0x0000000C = .error .badOpc ∧ decode 0x00000100 = .error .rsvd ∧ decode 0x00000009 = .error .badPlane

/-- Which error dispatch raises, for every word (30_encoding.md R101, R108): BAD_OPC from OPC 0x0C on; below that RSVD for a
bit of [31:11], for PLANE where NOP, CFL_AC, DQP or TU_CLR stands, or for FLAG where neither RECON, STCOEF, CFL_AC nor
DQP stands; then BAD_PLANE for PLANE 3, and for PLANE 0 of CFL_PRED. -/
def Obligations.DispatchErrorsInOrder : Prop :=
  ∀ w : Word,
    let opc := bits w 7 0
    let plane := bits w 9 8
    let reserved := bits w 31 11 ≠ 0 ∨ (opc ∈ [0x00, 0x08, 0x0A, 0x0B] ∧ plane ≠ 0) ∨
      (opc ∉ [0x05, 0x07, 0x08, 0x0A] ∧ bits w 10 10 ≠ 0)
    (decode w = .error .badOpc ↔ 0x0C ≤ opc) ∧
    (decode w = .error .rsvd ↔ opc < 0x0C ∧ reserved) ∧
    (decode w = .error .badPlane ↔ opc < 0x0C ∧ ¬ reserved ∧ (plane = 3 ∨ (opc = 0x09 ∧ plane = 0)))

/-! ### Reset (70_reset_and_hazards.md) -/

/-- Reset, whatever the state before it: every register reads 0 but ID, which reads 0x5458_0001 (always); irq is 0; no
scratch buffer is valid; external memory is unchanged. `State.reset` is such a state, with memory that nothing has
written (70_reset_and_hazards.md R300). -/
def Obligations.ResetReadsZero : Prop :=
  (∀ s : State, s.readReg .id = 0x54580001) ∧
  (∀ r : Reg, r ≠ .id → State.reset.readReg r = 0) ∧
  ∀ s : State, ∃ t, hostEvent .rst s = .next t ∧ (∀ r : Reg, r ≠ .id → t.readReg r = 0) ∧ t.irq = false ∧
    t.scr.resTag.valid = false ∧ t.scr.coefTag.valid = false ∧ t.scr.qcTag.valid = false ∧
    t.scr.iresTag.valid = false ∧ t.scr.cflacTag.valid = false ∧ t.mem = s.mem

/-! ### One step (10_state.md R33, R54, R56; 30_encoding.md R101) -/

/-- A 32-bit host write to CMD of a word that decodes to i runs exec of i, after the access has been taken from the host's
sequence, when no error is pending (30_encoding.md R101; the sequence as State holds it is the model's, log entry 1). -/
def Obligations.StepRunsDecodedCommand : Prop :=
  ∀ (s : State) (w : Word) (i : Instr) (rest : List HostEvent),
    s.port.pending = .regWrite 32 0x00C w :: rest → s.errFlag = false → decode w = .ok i →
    step s = exec i { s with port := { s.port with pending := rest, pos := s.port.pos + 1 } }

/-- A 32-bit host write to CMD of a word that dispatch rejects leaves STATUS = 1 | code << 8 | OPC << 16, ERR_CMD = the word,
ERR_ADDR = 0, and nothing else changed (60_exceptions.md R271). -/
def Obligations.StepRecordsDispatchError : Prop :=
  ∀ (s : State) (w : Word) (c : ErrCode) (rest : List HostEvent),
    s.port.pending = .regWrite 32 0x00C w :: rest → s.errFlag = false → decode w = .error c →
    step s = .next { s with
      port := { s.port with pending := rest, pos := s.port.pos + 1 }
      err := ⟨BitVec.ofNat 32 (1 + c.toByte.toNat * 2 ^ 8 + bits w 7 0 * 2 ^ 16), 0, w⟩ }

/-- While STATUS.ERR = 1 every CMD write is dropped: no effect at all; every other register write, and every read, has the
effect it always has; and no write but one to STATUS or CTRL changes the error registers (60_exceptions.md R274). -/
def Obligations.CommandsDroppedWhileError : Prop :=
  (∀ (s : State) (w : Word) (rest : List HostEvent),
    s.port.pending = .regWrite 32 0x00C w :: rest → s.errFlag = true →
    step s = .next { s with port := { s.port with pending := rest, pos := s.port.pos + 1 } }) ∧
  ∀ (s : State) (r : Reg) (v : Word), r ≠ .cmd →
    hostEvent (.regWrite 32 (BitVec.ofNat 12 r.offset) v) s = .next (s.writeReg r v) ∧
    hostEvent (.regRead 32 (BitVec.ofNat 12 r.offset)) s = .next (s.answer (s.readReg r)) ∧
    (r ≠ .status → r ≠ .ctrl → (s.writeReg r v).err = s.err)

/-- The engine does nothing until the host's next access: with none pending a step changes nothing
(70_reset_and_hazards.md R302, 60_exceptions.md R283; that the model has such a step at all is its own choice, log
entry 10). -/
def Obligations.IdleWithoutAccess : Prop := ∀ s : State, s.port.pending = [] → step s = .next s

/-- Every step takes the next event of the host's sequence and goes to the one that follows; a register access advances the
position by one, whatever the access and whatever command it issues (10_state.md R54, 44_control.md R254). A memory write
and an assertion of `rst` are no register access and leave it as it is (log entry 10). -/
def Obligations.PositionAdvancesByOne : Prop :=
  ∀ (s t : State) (e : HostEvent) (rest : List HostEvent), s.port.pending = e :: rest → step s = .next t →
    t.port.pending = rest ∧
    ((∃ width off v, e = .regWrite width off v) ∨ (∃ width off, e = .regRead width off) → t.port.pos = s.port.pos + 1) ∧
    ((∃ n a v, e = .memWrite n a v) ∨ e = .rst → t.port.pos = s.port.pos)

/-- A register access that is not 32 bits wide or not 4-byte aligned is refused (10_state.md R56). -/
def Obligations.MisshapenAccessRefused : Prop :=
  ∀ (s : State) (width : Nat) (off : BitVec 12) (v : Word), width ≠ 32 ∨ off.toNat % 4 ≠ 0 →
    hostEvent (.regWrite width off v) s = .refused .hostAccessShape ∧
    hostEvent (.regRead width off) s = .refused .hostAccessShape

/-- The register map is one to one and 4-byte aligned, and the registers stand at the offsets of 10_state.md section 1, listed
here in the order of `Reg.all`. -/
def Obligations.RegisterMapRoundTrip : Prop :=
  (∀ r : Reg, Reg.ofOffset r.offset = some r ∧ r.offset % 4 = 0 ∧ r.offset < 0x1000) ∧
  (∀ (off : Nat) (r : Reg), Reg.ofOffset off = some r → r.offset = off) ∧
  Reg.all.map Reg.offset =
    [0x000, 0x004, 0x008, 0x00C, 0x010, 0x014, 0x018, 0x01C, 0x020, 0x024, 0x028, 0x02C, 0x030, 0x034,
      0x038, 0x03C, 0x040, 0x044, 0x048, 0x04C]
    ++ [0x060, 0x064, 0x068, 0x06C, 0x070, 0x074, 0x078, 0x07C, 0x080, 0x084, 0x088, 0x08C, 0x090, 0x094,
      0x098, 0x09C]
    ++ [0x100, 0x104, 0x108, 0x110, 0x114, 0x118, 0x120, 0x124, 0x128, 0x130, 0x134, 0x138, 0x140, 0x144,
      0x148, 0x150, 0x154, 0x158, 0x160, 0x164, 0x168, 0x170, 0x174, 0x178, 0x180, 0x184, 0x188]
    ++ [0x190, 0x194, 0x198, 0x1A0, 0x1A4, 0x1A8, 0x1AC, 0x1B0, 0x1B4, 0x1B8, 0x1BC, 0x1C0, 0x1C4, 0x1C8,
      0x1CC, 0x1D0]

/-- An unmapped offset reads 0 and ignores the write (10_state.md R56). -/
def Obligations.UnmappedReadsZero : Prop :=
  ∀ (s : State) (off : BitVec 12) (v : Word), off.toNat % 4 = 0 → (∀ r : Reg, r.offset ≠ off.toNat) →
    hostEvent (.regWrite 32 off v) s = .next s ∧ hostEvent (.regRead 32 off) s = .next (s.answer 0)

/-- A host read answers the register's value and changes no state of the engine and no byte of memory
(44_control.md R256). -/
def Obligations.ReadHasNoSideEffect : Prop :=
  ∀ (s : State) (r : Reg), ∃ t, hostEvent (.regRead 32 (BitVec.ofNat 12 r.offset)) s = .next t ∧
    t = { s with port := { s.port with reads := s.readReg r :: s.port.reads } }

/-- A write to an RW register other than CTRL and STATUS stores the written value less its reserved bits, and only stores:
every other register reads as before (TU_STATUS among them, so no valid, QV or HC bit changes), and scratch, tags, memory
and the error registers are untouched (10_state.md R56, 44_control.md R255). -/
def Obligations.ConfigWriteOnlyStores : Prop :=
  ∀ (s : State) (r : Reg) (v : Word), r ∈ storingRegs →
    ∃ t, hostEvent (.regWrite 32 (BitVec.ofNat 12 r.offset) v) s = .next t ∧ t.readReg r = v &&& r.implemented ∧
      (∀ q, q ≠ r → t.readReg q = s.readReg q) ∧ t = { s with cfg := t.cfg }

/-- A write to a read-only register, or to DESC_ORG of PRED, is ignored (10_state.md R56, R43). -/
def Obligations.ReadOnlyIgnoresWrites : Prop :=
  ∀ (s : State) (r : Reg) (v : Word), r ∉ storingRegs → r ≠ .ctrl → r ≠ .status → r ≠ .cmd →
    hostEvent (.regWrite 32 (BitVec.ofNat 12 r.offset) v) s = .next s

/-- A host write to CTRL, whatever the error state. SRST = 1: a soft reset, the same effect as an assertion of `rst`, whatever
else is written: every register and every valid bit as after reset, external memory unchanged. SRST = 0: IRQ_EN is stored
and nothing else changes (44_control.md R252, 70_reset_and_hazards.md R301). -/
def Obligations.CtrlWriteResetsOrStoresIrqEn : Prop :=
  ∀ (s : State) (v : Word), ∃ t, hostEvent (.regWrite 32 0x004 v) s = .next t ∧
    (bits v 0 0 = 1 → hostEvent .rst s = .next t ∧ t.mem = s.mem ∧ t.irq = false ∧
      (∀ r, t.readReg r = State.reset.readReg r) ∧
      t.scr.resTag.valid = false ∧ t.scr.coefTag.valid = false ∧ t.scr.qcTag.valid = false ∧
      t.scr.iresTag.valid = false ∧ t.scr.cflacTag.valid = false) ∧
    (bits v 0 0 = 0 → t.irqEn = (bits v 1 1 == 1) ∧ t.readReg .ctrl = v &&& 0x2 ∧
      t = { s with cfg := { s.cfg with ctrl := t.cfg.ctrl } })

/-- A write to STATUS with bit 0 = 1 clears STATUS, ERR_ADDR and ERR_CMD and nothing else; with bit 0 = 0 it has no effect
(44_control.md R253). -/
def Obligations.StatusWriteClearsError : Prop :=
  ∀ (s : State) (v : Word),
    (bits v 0 0 = 1 → hostEvent (.regWrite 32 0x008 v) s = .next { s with err := ⟨0, 0, 0⟩ }) ∧
    (bits v 0 0 = 0 → hostEvent (.regWrite 32 0x008 v) s = .next s)

/-! ### Errors and the interrupt (60_exceptions.md) -/

/-- The error entry: what it writes, and that it writes nothing else (60_exceptions.md R271). ERR_ADDR is the address modulo
2^32 for every code: the rule says so in its BUS clause, and the model reads it for ALIGN too (log entry 9). -/
def Obligations.ErrorEntryFields : Prop :=
  ∀ (s : State) (w : Word) (c : ErrCode) (a : Option Nat), ∃ t, s.errorEntry w ⟨c, a⟩ = t ∧
    t.errFlag = true ∧ t.errCode = c.toByte.toNat ∧ t.errOpc = bits w 7 0 ∧ t.errAv = a.isSome ∧
    t.err.errCmd = w ∧ t.err.errAddr.toNat = a.getD 0 % 2 ^ 32 ∧ bits t.err.status 1 1 = 0 ∧
    bits t.err.status 7 3 = 0 ∧ bits t.err.status 31 24 = 0 ∧ t = { s with err := t.err }

/-- Errors are precise: a command that raises an error changes nothing but STATUS, ERR_ADDR and ERR_CMD, and a command that
raises none leaves those three alone (60_exceptions.md R273). Every command answers a next state. -/
def Obligations.ErrorsArePrecise : Prop :=
  ∀ (i : Instr) (s : State), s.errFlag = false →
    ∃ t, exec i s = .next t ∧ (t.errFlag = true → t = { s with err := t.err }) ∧ (t.errFlag = false → t.err = s.err)

/-- The first error is never overwritten: while ERR = 1, one step either keeps STATUS, ERR_ADDR and ERR_CMD or clears all
three (10_state.md R58, 60_exceptions.md R275). -/
def Obligations.FirstErrorKeptUntilCleared : Prop :=
  ∀ s t : State, s.errFlag = true → step s = .next t → t.err = s.err ∨ t.err = ⟨0, 0, 0⟩

/-- irq: raised by an error entry exactly if IRQ_EN = 1, lowered by the error clear and by reset
(60_exceptions.md R276, R275). -/
def Obligations.IrqFollowsError : Prop :=
  ∀ (s : State) (w : Word) (e : CmdError),
    (s.errorEntry w e).irq = s.irqEn ∧ s.clearError.irq = false ∧ s.engineReset.irq = false ∧
    (s.irq = true ↔ s.errFlag = true ∧ s.irqEn = true)

/-- The register checks of FTX, QUANT and ITX in their order, each with its error (40_transform.md R136, R138,
41_quant.md R174, 60_exceptions.md R272). -/
def Obligations.TransformChecksInOrder : Prop :=
  ∀ (p : Plane) (s : State) (i : Instr), i ∈ [Instr.ftx p, .quant p, .itx p] →
    let input := match i with
      | .ftx _ => s.scr.resTag
      | .quant _ => s.scr.coefTag
      | _ => s.scr.qcTag
    (s.bitDepth = none → exec i s = .next (s.failed i .badCfg none)) ∧
    ∀ bd, s.bitDepth = some bd →
      (s.txSize = none → exec i s = .next (s.failed i .badTxsz none)) ∧
      ∀ ts, s.txSize = some ts →
        (s.txType p ts = none → exec i s = .next (s.failed i .badTxtype none)) ∧
        ∀ tt, s.txType p ts = some tt → input.accepts p ts bd = false → exec i s = .next (s.failed i .seq none)

/-- FTX raises RANGE, without an address, if a coded output reaches 2^30 in magnitude; ITX if an output reaches 2^31. Stated
for every transform P, of which the machine's own is one (40_transform.md R136, R138). -/
def Obligations.TransformRangeErrors : Prop :=
  (∀ (p : Plane) (s : State), exec (.ftx p) s = .next (s.complete (encode (.ftx p)) (ftx Config.params p s)) ∧
    exec (.itx p) s = .next (s.complete (encode (.itx p)) (itx Config.params p s))) ∧
  ∀ (P : Params) (p : Plane) (s : State) (bd : BitDepth) (ts : TxSize) (tt : TxType),
    s.bitDepth = some bd → s.txSize = some ts → s.txType p ts = some tt →
    (s.scr.resTag.accepts p ts bd = true →
      (∃ r c, r < ts.codedHeight ∧ c < ts.codedWidth ∧ 2 ^ 30 ≤ |P.fwdTx ts tt bd s.scr.res r c|) →
      ftx P p s = .error ⟨.range, none⟩) ∧
    (s.scr.qcTag.accepts p ts bd = true →
      (∃ r c, r < ts.height ∧ c < ts.width ∧ 2 ^ 31 ≤ |P.invTx ts tt bd s.scr.dqcoef r c|) →
      itx P p s = .error ⟨.range, none⟩)

/-- The register checks of RESID, RECON and STCOEF in their order (40_transform.md R135, R139, 41_quant.md R178). -/
def Obligations.MemoryCommandChecksInOrder : Prop :=
  ∀ (p : Plane) (f : Bool) (s : State) (i : Instr), i ∈ [Instr.resid p, .recon p f, .stcoef p f] →
    (s.bitDepth = none → exec i s = .next (s.failed i .badCfg none)) ∧
    ∀ bd, s.bitDepth = some bd →
      (s.txSize = none → exec i s = .next (s.failed i .badTxsz none)) ∧
      ∀ ts, s.txSize = some ts →
        (i = .recon p false → s.scr.iresTag.accepts p ts bd = false → exec i s = .next (s.failed i .seq none)) ∧
        (i = .stcoef p f → s.scr.qcTag.accepts p ts bd = false → exec i s = .next (s.failed i .seq none))

/-- The register checks of CFL_AC and CFL_PRED in their order (42_cfl.md R202, R206, R207); plane 0 of CFL_PRED raises
BAD_PLANE before all of them (30_encoding.md R102; no word decodes to that term, log entry 11). -/
def Obligations.CflChecksInOrder : Prop :=
  (∀ s : State, exec (.cflPred .y) s = .next (s.failed (.cflPred .y) .badPlane none)) ∧
  ∀ (s : State) (i : Instr), i ∈ [Instr.cflAc false, .cflAc true, .cflPred .u, .cflPred .v] →
    (s.bitDepth = none → exec i s = .next (s.failed i .badCfg none)) ∧
    ((∃ f, i = .cflAc f) → s.chromaFormat = none → exec i s = .next (s.failed i .badCfg none)) ∧
    ∀ bd, s.bitDepth = some bd → ((∃ f, i = .cflAc f) → s.chromaFormat ≠ none) →
      (s.txSize = none → exec i s = .next (s.failed i .badTxsz none)) ∧
      ∀ ts, s.txSize = some ts →
        (s.predMode = none → exec i s = .next (s.failed i .badPmode none)) ∧
        ∀ m, s.predMode = some m →
          (m = .inter ∨ 32 < ts.width ∨ 32 < ts.height → exec i s = .next (s.failed i .badCfl none)) ∧
          (m = .intra → ts.width ≤ 32 → ts.height ≤ 32 → (∃ p, i = .cflPred p) → s.scr.cflacTag.accepts .y ts bd = false →
            exec i s = .next (s.failed i .seq none))

/-- Address and sample errors of RESID, RECON, STCOEF, CFL_AC and CFL_PRED: ALIGN with the first misaligned access, even
where an earlier access would fail the bus check; with all aligned, BUS with the first access out of range or not
admitted; with all admitted, RANGE with the first sample read that is ≥ 2^bd (20_memory.md R77, 60_exceptions.md R271,
R272). ERR_ADDR is the address modulo 2^32, for ALIGN too (log entry 9). -/
def Obligations.AddressErrorsInOrder : Prop :=
  ∀ (i : Instr) (s : State) (bd : BitDepth) (accesses : List Access) (a : Access), MemoryAccesses i s bd accesses →
    (FirstBad accesses (fun x => x.addr % x.width == 0) a → exec i s = .next (s.failed i .align (some a.addr))) ∧
    (AllOk accesses (fun x => x.addr % x.width == 0) →
      (FirstBad accesses (fun x => decide (x.addr + x.width ≤ 2 ^ 32) && s.memAdmit x) a →
        exec i s = .next (s.failed i .bus (some a.addr))) ∧
      (AllOk accesses (fun x => decide (x.addr + x.width ≤ 2 ^ 32) && s.memAdmit x) →
        FirstBad (accesses.filter fun x => x.kind == .read) (fun x => decide (s.sample bd x.addr < 2 ^ bd.bits)) a →
        exec i s = .next (s.failed i .range (some a.addr))))

/-- The checks of TXFLAG and DQP in their order (41_quant.md R177, 43_dqp.md R230). -/
def Obligations.ControlChecksInOrder : Prop :=
  ∀ (s : State) (p : Plane) (f : Bool),
    (s.predMode = none → exec (.txflag p) s = .next (s.failed (.txflag p) .badPmode none)) ∧
    (∀ m, s.predMode = some m → s.rslt.qv.get p = false → exec (.txflag p) s = .next (s.failed (.txflag p) .seq none)) ∧
    (s.qpMod = none → exec (.dqp f) s = .next (s.failed (.dqp f) .badCfg none)) ∧
    (∀ m, s.qpMod = some m → s.dqpEn = true →
      (s.hiQp < s.minQp → exec (.dqp f) s = .next (s.failed (.dqp f) .badQpb none)) ∧
      (s.minQp ≤ s.hiQp → ∀ d, s.depthFor m = some d → ¬ (s.dqpMin d ≤ s.dqpAvg d ∧ s.dqpAvg d ≤ s.dqpMax d) →
        exec (.dqp f) s = .next (s.failed (.dqp f) .badDqp none)))

/-- The address of a sample: base + ((ORG_Y + y)·stride + ORG_X + x)·sw in unbounded integers, the origin being 0 for PRED
(20_memory.md R75). -/
def Obligations.SampleAddressFormula : Prop :=
  ∀ (s : State) (p : Plane) (bd : BitDepth) (x y : Nat),
    (∀ b, b ≠ .pred → s.sampleAddr b p bd x y =
      ((s.cfg.descBase.get b).get p).toNat +
        (((s.readReg (.descOrg b p)).toNat / 2 ^ 16 + y) * (((s.cfg.descStride.get b).get p).toNat % 2 ^ 16) +
          ((s.readReg (.descOrg b p)).toNat % 2 ^ 16 + x)) * (if bd = .b8 then 1 else 2)) ∧
    s.sampleAddr .pred p bd x y =
      ((s.cfg.descBase.get .pred).get p).toNat +
        (y * (((s.cfg.descStride.get .pred).get p).toNat % 2 ^ 16) + x) * (if bd = .b8 then 1 else 2)

/-! ### What each command does, and what it leaves unchanged -/

/-- NOP: its only word is 0, any other word with OPC 0x00 raises RSVD, and it leaves every register, tag and byte unchanged,
also when written to CMD while an error is pending (44_control.md R250). -/
def Obligations.NopChangesNothing : Prop :=
  (∀ s : State, exec .nop s = .next s ∧ issue 0x00000000 s = .next s) ∧
  ∀ w : Word, (decode w = .ok .nop ↔ w = 0x00000000) ∧ (bits w 7 0 = 0 → w ≠ 0 → decode w = .error .rsvd)

/-- TU_STATUS reads the flags field by field: HC in [2:0], their OR in [3], QV in [6:4], the valid bits of RES, COEF, QC,
IRES and CFLAC in [12:8], and 0 elsewhere (10_state.md R52). TU_CLR: EOB, NZ, E3Q and TU_STATUS read 0; scratch contents,
the tags' other fields, DQP_RESULT, every configuration register, the error registers and memory are unchanged
(44_control.md R251). -/
def Obligations.TuClrClearsResults : Prop :=
  (∀ s : State,
    let v := s.readReg .tuStatus
    bits v 0 0 = s.rslt.hc.y.toNat ∧ bits v 1 1 = s.rslt.hc.u.toNat ∧ bits v 2 2 = s.rslt.hc.v.toNat ∧
    bits v 3 3 = (s.rslt.hc.y || s.rslt.hc.u || s.rslt.hc.v).toNat ∧
    bits v 4 4 = s.rslt.qv.y.toNat ∧ bits v 5 5 = s.rslt.qv.u.toNat ∧ bits v 6 6 = s.rslt.qv.v.toNat ∧ bits v 7 7 = 0 ∧
    bits v 8 8 = s.scr.resTag.valid.toNat ∧ bits v 9 9 = s.scr.coefTag.valid.toNat ∧
    bits v 10 10 = s.scr.qcTag.valid.toNat ∧ bits v 11 11 = s.scr.iresTag.valid.toNat ∧
    bits v 12 12 = s.scr.cflacTag.valid.toNat ∧ bits v 31 13 = 0) ∧
  ∀ s : State, ∃ t, exec .tuClr s = .next t ∧
    (∀ p, t.rslt.eob.get p = 0 ∧ t.rslt.nz.get p = 0 ∧ t.rslt.e3qLo.get p = 0 ∧ t.rslt.e3qHi.get p = 0) ∧
    t.readReg .tuStatus = 0 ∧ t.rslt.dqpResult = s.rslt.dqpResult ∧
    t.scr = { s.scr with resTag := s.scr.resTag.clear, coefTag := s.scr.coefTag.clear, qcTag := s.scr.qcTag.clear,
                         iresTag := s.scr.iresTag.clear, cflacTag := s.scr.cflacTag.clear } ∧
    t = { s with rslt := t.rslt, scr := t.scr }

/-- RESID: RES[r][c] = SRC sample - PRED sample over the whole block, its tag set, COEF, QC and IRES invalid, QV[p] clear,
and nothing else changed (40_transform.md R135). -/
def Obligations.ResidWritesDifference : Prop :=
  ∀ (p : Plane) (s : State) (bd : BitDepth) (ts : TxSize),
    s.bitDepth = some bd → s.txSize = some ts →
    ForBlock ts.height ts.width (fun r c =>
      SampleReadable s bd (s.srcAddr p bd r c) ∧ SampleReadable s bd (s.predAddr p bd r c)) →
    ∃ t, exec (.resid p) s = .next t ∧
      t.scr.res.length = ts.height * ts.width ∧
      ForBlock ts.height ts.width (fun r c =>
        elem t.scr.res ts.width r c = (s.sample bd (s.srcAddr p bd r c) : Int) - s.sample bd (s.predAddr p bd r c)) ∧
      t.scr = { s.scr with res := t.scr.res, resTag := ⟨true, p, ts, bd⟩, coefTag := s.scr.coefTag.clear,
                           qcTag := s.scr.qcTag.clear, iresTag := s.scr.iresTag.clear } ∧
      t.rslt = { s.rslt with qv := s.rslt.qv.set p false } ∧
      t = { s with scr := t.scr, rslt := t.rslt }

/-- FTX: COEF[r][c] = FWD_TX(RES)[r][c] over the coded region; E3Q[p] is the sum of the squares outside it, saturated at
2^64 - 1; the tag set, QC and IRES invalid, QV[p] clear, and nothing else changed: RES stays (40_transform.md R136). -/
def Obligations.FtxWritesCoefficients : Prop :=
  ∀ (p : Plane) (s : State) (bd : BitDepth) (ts : TxSize) (tt : TxType),
    s.bitDepth = some bd → s.txSize = some ts → s.txType p ts = some tt → s.scr.resTag = ⟨true, p, ts, bd⟩ →
    ForBlock ts.codedHeight ts.codedWidth (fun r c => |Config.params.fwdTx ts tt bd s.scr.res r c| < 2 ^ 30) →
    ∃ t, exec (.ftx p) s = .next t ∧
      t.scr.coef.length = ts.codedHeight * ts.codedWidth ∧
      ForBlock ts.codedHeight ts.codedWidth (fun r c =>
        elem t.scr.coef ts.codedWidth r c = Config.params.fwdTx ts tt bd s.scr.res r c) ∧
      ((t.rslt.e3qHi.get p).toNat * 2 ^ 32 + (t.rslt.e3qLo.get p).toNat : Int) =
        min (∑ r ∈ Finset.range ts.height, ∑ c ∈ Finset.range ts.width,
          if ts.codedHeight ≤ r ∨ ts.codedWidth ≤ c then Config.params.fwdTx ts tt bd s.scr.res r c ^ 2 else 0) (2 ^ 64 - 1) ∧
      t.scr = { s.scr with coef := t.scr.coef, coefTag := ⟨true, p, ts, bd⟩, qcTag := s.scr.qcTag.clear,
                           iresTag := s.scr.iresTag.clear } ∧
      t.rslt = { s.rslt with qv := s.rslt.qv.set p false, e3qLo := s.rslt.e3qLo.set p (t.rslt.e3qLo.get p),
                             e3qHi := s.rslt.e3qHi.set p (t.rslt.e3qHi.get p) } ∧
      t = { s with scr := t.scr, rslt := t.rslt }

/-- QUANT: every coded coefficient through the datapath of R172; EOB[p] is one past the last non-zero coefficient in scan
order and NZ[p] the number of non-zero ones; the tag and QV[p] set, IRES invalid, and nothing else changed: COEF stays
(41_quant.md R173, R174). -/
def Obligations.QuantWritesBoth : Prop :=
  ∀ (p : Plane) (s : State) (bd : BitDepth) (ts : TxSize) (tt : TxType),
    s.bitDepth = some bd → s.txSize = some ts → s.txType p ts = some tt → s.scr.coefTag = ⟨true, p, ts, bd⟩ →
    ∃ (t : State) (eob : Nat), exec (.quant p) s = .next t ∧
      t.scr.qcoef.length = ts.codedArea ∧ t.scr.dqcoef.length = ts.codedArea ∧
      (∀ rc < ts.codedArea, (t.scr.qcoef.getD rc 0, t.scr.dqcoef.getD rc 0) =
        quantCoef (quantParams Config.params.qstep s.qindex bd (if rc = 0 then .dc else .ac)) ts.logScale bd
          (s.scr.coef.getD rc 0)) ∧
      (t.rslt.eob.get p).toNat = eob ∧ eob ≤ ts.codedArea ∧
      (∀ i, eob ≤ i → i < ts.codedArea → t.scr.qcoef.getD (Config.params.scan ts tt i) 0 = 0) ∧
      (0 < eob → t.scr.qcoef.getD (Config.params.scan ts tt (eob - 1)) 0 ≠ 0) ∧
      (t.rslt.nz.get p).toNat = ((Finset.range ts.codedArea).filter fun rc => t.scr.qcoef.getD rc 0 ≠ 0).card ∧
      t.scr = { s.scr with qcoef := t.scr.qcoef, dqcoef := t.scr.dqcoef, qcTag := ⟨true, p, ts, bd⟩,
                           iresTag := s.scr.iresTag.clear } ∧
      t.rslt = { s.rslt with qv := s.rslt.qv.set p true, eob := s.rslt.eob.set p (t.rslt.eob.get p),
                             nz := s.rslt.nz.set p (t.rslt.nz.get p) } ∧
      t = { s with scr := t.scr, rslt := t.rslt }

/-- ITX: IRES[r][c] = INV_TX(DQCOEF)[r][c] over the block, its tag set, and nothing else changed: QCOEF and DQCOEF stay
(40_transform.md R138). -/
def Obligations.ItxWritesResidual : Prop :=
  ∀ (p : Plane) (s : State) (bd : BitDepth) (ts : TxSize) (tt : TxType),
    s.bitDepth = some bd → s.txSize = some ts → s.txType p ts = some tt → s.scr.qcTag = ⟨true, p, ts, bd⟩ →
    ForBlock ts.height ts.width (fun r c => |Config.params.invTx ts tt bd s.scr.dqcoef r c| < 2 ^ 31) →
    ∃ t, exec (.itx p) s = .next t ∧
      t.scr.ires.length = ts.height * ts.width ∧
      ForBlock ts.height ts.width (fun r c =>
        elem t.scr.ires ts.width r c = Config.params.invTx ts tt bd s.scr.dqcoef r c) ∧
      t.scr = { s.scr with ires := t.scr.ires, iresTag := ⟨true, p, ts, bd⟩ } ∧
      t = { s with scr := t.scr }

/-- RECON, both forms: every element of RECON[p] that no later element of the block overlaps reads clip_bd(q + e), with q the
PRED sample and e the IRES element as they were before the command, or e = 0 in the skip form; every byte outside the
elements' ranges, and everything else, is unchanged (40_transform.md R139, 20_memory.md R81). That the later of two
overlapping elements stands is the model's reading of the loop order (log entry 12). -/
def Obligations.ReconWritesSamples : Prop :=
  ∀ (p : Plane) (skip : Bool) (s : State) (bd : BitDepth) (ts : TxSize),
    s.bitDepth = some bd → s.txSize = some ts → (skip = true ∨ s.scr.iresTag = ⟨true, p, ts, bd⟩) →
    ForBlock ts.height ts.width (fun r c =>
      SampleReadable s bd (s.predAddr p bd r c) ∧ SampleWritable s bd (s.reconAddr p bd r c)) →
    ∃ t, exec (.recon p skip) s = .next t ∧
      ForBlock ts.height ts.width (fun r c =>
        ForBlock ts.height ts.width (fun r' c' => r * ts.width + c < r' * ts.width + c' →
          Apart (s.reconAddr p bd r c) (s.reconAddr p bd r' c') bd.bytes) →
        (t.sample bd (s.reconAddr p bd r c) : Int) =
          clamp (s.sample bd (s.predAddr p bd r c) + if skip then 0 else elem s.scr.ires ts.width r c)
            0 (2 ^ bd.bits - 1)) ∧
      (∀ b, ForBlock ts.height ts.width (fun r c => Outside (s.reconAddr p bd r c) bd.bytes b) →
        Memory.readByte t.mem b = Memory.readByte s.mem b) ∧
      t = { s with mem := t.mem }

/-- TXFLAG: HC[p] = (NZ[p] ≠ 0); with NZ[p] = 0 the type TT[p] becomes DCT_DCT, and for inter-predicted luma TT_U and TT_V
too; with NZ[p] ≠ 0 TU_CFG is unchanged; TXSZ, PMODE, the other types and everything else are unchanged
(41_quant.md R177). -/
def Obligations.TxflagDerivesFlags : Prop :=
  ∀ (p : Plane) (s : State) (m : PredMode), s.predMode = some m → s.rslt.qv.get p = true →
    ∃ t, exec (.txflag p) s = .next t ∧
      t.rslt = { s.rslt with hc := s.rslt.hc.set p (decide (bits (s.rslt.nz.get p) 12 0 ≠ 0)) } ∧
      (bits (s.rslt.nz.get p) 12 0 ≠ 0 → t.cfg = s.cfg) ∧
      (bits (s.rslt.nz.get p) 12 0 = 0 → ∀ q,
        t.ttCode q = if q = p ∨ (p = .y ∧ m = .inter) then 0 else s.ttCode q) ∧
      bits t.cfg.tuCfg 4 0 = bits s.cfg.tuCfg 4 0 ∧ bits t.cfg.tuCfg 31 20 = bits s.cfg.tuCfg 31 20 ∧
      t = { s with rslt := t.rslt, cfg := { s.cfg with tuCfg := t.cfg.tuCfg } }

/-- STCOEF, both forms: the word at COEF_BASE[p] + 4·i reads, little-endian, as coefficient i of the coded region in 32-bit
two's complement, for every i; every byte outside the words, and everything else, is unchanged (41_quant.md R178). -/
def Obligations.StcoefStoresWords : Prop :=
  ∀ (p : Plane) (dequant : Bool) (s : State) (bd : BitDepth) (ts : TxSize),
    s.bitDepth = some bd → s.txSize = some ts → s.scr.qcTag = ⟨true, p, ts, bd⟩ →
    (∀ i < ts.codedHeight * ts.codedWidth, WordWritable s (s.coefAddr p i)) →
    ∃ t, exec (.stcoef p dequant) s = .next t ∧
      (∀ i < ts.codedHeight * ts.codedWidth, BitVec.ofNat 32 (Memory.read t.mem (s.coefAddr p i) 4) =
        BitVec.ofInt 32 ((if dequant then s.scr.dqcoef else s.scr.qcoef).getD i 0)) ∧
      (∀ b, (∀ i < ts.codedHeight * ts.codedWidth, Outside (s.coefAddr p i) 4 b) →
        Memory.readByte t.mem b = Memory.readByte s.mem b) ∧
      t = { s with mem := t.mem }

/-- CFL_AC, both forms: CFLAC[r][c] = Q3(r, c) - avg, where avg is the average of Q3 over the block rounded half up; its tag
set, and nothing else changed (42_cfl.md R201, R202). -/
def Obligations.CflAcRemovesAverage : Prop :=
  ∀ (fromPred : Bool) (s : State) (bd : BitDepth) (fmt : ChromaFormat) (ts : TxSize),
    s.bitDepth = some bd → s.chromaFormat = some fmt → s.txSize = some ts → s.predMode = some .intra →
    ts.width ≤ 32 → ts.height ≤ 32 →
    ForBlock (ts.height * 2 ^ fmt.ssy) (ts.width * 2 ^ fmt.ssx) (fun y x =>
      SampleReadable s bd (s.lumaAddr fromPred bd y x)) →
    ∃ (t : State) (avg : Int), exec (.cflAc fromPred) s = .next t ∧
      avg = (2 * (∑ r ∈ Finset.range ts.height, ∑ c ∈ Finset.range ts.width, cflQ3 fmt (s.luma fromPred bd) r c)
              + ts.height * ts.width) / (2 * (ts.height * ts.width)) ∧
      t.scr.cflac.length = ts.height * ts.width ∧
      ForBlock ts.height ts.width (fun r c =>
        elem t.scr.cflac ts.width r c = cflQ3 fmt (s.luma fromPred bd) r c - avg) ∧
      t.scr = { s.scr with cflac := t.scr.cflac, cflacTag := ⟨true, .y, ts, bd⟩ } ∧
      t = { s with scr := t.scr }

/-- CFL_PRED: every element of PRED[p] that no later element of the block overlaps reads
clip_bd(dc + round2signed(alpha·CFLAC[r][c], 6)), with dc as it was before the command; every byte outside the elements'
ranges, and everything else, is unchanged (42_cfl.md R204, R206). That the later of two overlapping elements stands is the
model's reading of the loop order (log entry 12). -/
def Obligations.CflPredWritesSamples : Prop :=
  ∀ (p : Plane) (s : State) (bd : BitDepth) (ts : TxSize), p ≠ .y →
    s.bitDepth = some bd → s.txSize = some ts → s.predMode = some .intra → ts.width ≤ 32 → ts.height ≤ 32 →
    s.scr.cflacTag = ⟨true, .y, ts, bd⟩ →
    ForBlock ts.height ts.width (fun r c =>
      SampleReadable s bd (s.predAddr p bd r c) ∧ SampleWritable s bd (s.predAddr p bd r c)) →
    ∃ t, exec (.cflPred p) s = .next t ∧
      ForBlock ts.height ts.width (fun r c =>
        ForBlock ts.height ts.width (fun r' c' => r * ts.width + c < r' * ts.width + c' →
          Apart (s.predAddr p bd r c) (s.predAddr p bd r' c') bd.bytes) →
        (t.sample bd (s.predAddr p bd r c) : Int) =
          clamp (s.sample bd (s.predAddr p bd r c)
            + round2signed (alphaQ3 s.cfg.cflAlpha p * elem s.scr.cflac ts.width r c) 6) 0 (2 ^ bd.bits - 1)) ∧
      (∀ b, ForBlock ts.height ts.width (fun r c => Outside (s.predAddr p bd r c) bd.bytes b) →
        Memory.readByte t.mem b = Memory.readByte s.mem b) ∧
      t = { s with mem := t.mem }

/-- DQP, both forms: DQP_RESULT holds the derived QP and QP - BASE_QP as a 16-bit two's-complement value, its bits [15:8] 0;
with FLAG = 1 QINDEX holds the QP too, with FLAG = 0 QIDX is unchanged; nothing else changes (43_dqp.md R232). -/
def Obligations.DqpWritesResult : Prop :=
  ∀ (f : Bool) (s : State) (m : QpMod), s.qpMod = some m →
    (s.dqpEn = true → s.minQp ≤ s.hiQp ∧ ∀ d, s.depthFor m = some d → s.dqpMin d ≤ s.dqpAvg d ∧ s.dqpAvg d ≤ s.dqpMax d) →
    ∃ (t : State) (qp : Nat), exec (.dqp f) s = .next t ∧
      (qp : Int) = (if s.dqpEn then clamp (s.baseQp + s.dqpOffset m * 2 ^ s.dqpResLog2) s.minQp s.hiQp else s.baseQp) ∧
      bits t.rslt.dqpResult 7 0 = qp ∧ bits t.rslt.dqpResult 15 8 = 0 ∧
      (bits t.rslt.dqpResult 31 16 : Int) = ((qp : Int) - s.baseQp) % 2 ^ 16 ∧
      bits t.cfg.qidx 7 0 = (if f then qp else bits s.cfg.qidx 7 0) ∧ bits t.cfg.qidx 31 8 = bits s.cfg.qidx 31 8 ∧
      t = { s with rslt := { s.rslt with dqpResult := t.rslt.dqpResult }, cfg := { s.cfg with qidx := t.cfg.qidx } }

/-! ### What no command changes, over all commands -/

/-- The configuration registers belong to the host: no command changes any of them but TU_CFG, by TXFLAG, and there only the
type fields, and QIDX, by DQP with FLAG = 1, and there only QINDEX (10_state.md R36, R39, 42_cfl.md R208). -/
def Obligations.CommandsKeepConfiguration : Prop :=
  ∀ (i : Instr) (s t : State), exec i s = .next t →
    t.cfg = { s.cfg with tuCfg := t.cfg.tuCfg, qidx := t.cfg.qidx } ∧
    ((∀ p, i ≠ .txflag p) → t.cfg.tuCfg = s.cfg.tuCfg) ∧ (i ≠ .dqp true → t.cfg.qidx = s.cfg.qidx) ∧
    bits t.cfg.tuCfg 4 0 = bits s.cfg.tuCfg 4 0 ∧ bits t.cfg.tuCfg 31 20 = bits s.cfg.tuCfg 31 20 ∧
    bits t.cfg.qidx 31 8 = bits s.cfg.qidx 31 8

/-- Only RECON, STCOEF and CFL_PRED write external memory: every other command leaves every byte as it was
(20_memory.md R79). -/
def Obligations.OnlyStoresWriteMemory : Prop :=
  ∀ (i : Instr) (s t : State), exec i s = .next t →
    (∀ p f, i ≠ .recon p f) → (∀ p f, i ≠ .stcoef p f) → (∀ p, i ≠ .cflPred p) →
    ∀ a, Memory.readByte t.mem a = Memory.readByte s.mem a

/-- Each result register has one writer besides TU_CLR: DQP_RESULT is changed by DQP, HC by TXFLAG, EOB and NZ by QUANT, E3Q
by FTX, and each of those on its own plane only (10_state.md R50, R51, R57). -/
def Obligations.ResultRegistersHaveOneWriter : Prop :=
  ∀ (i : Instr) (s t : State), exec i s = .next t → i ≠ .tuClr →
    ((∀ f, i ≠ .dqp f) → t.rslt.dqpResult = s.rslt.dqpResult) ∧
    ∀ p, (i ≠ .txflag p → t.rslt.hc.get p = s.rslt.hc.get p) ∧
      (i ≠ .quant p → t.rslt.eob.get p = s.rslt.eob.get p ∧ t.rslt.nz.get p = s.rslt.nz.get p) ∧
      (i ≠ .ftx p → t.rslt.e3qLo.get p = s.rslt.e3qLo.get p ∧ t.rslt.e3qHi.get p = s.rslt.e3qHi.get p) ∧
      (i ≠ .resid p → i ≠ .ftx p → i ≠ .quant p → t.rslt.qv.get p = s.rslt.qv.get p)

/-- What a scratch buffer without a valid tag holds cannot be observed: two states that differ only in that step to states
that differ only in that, whatever the access or command (93_implementation_defined.md I40, 70_reset_and_hazards.md R300). -/
def Obligations.InvalidScratchUnobservable : Prop :=
  ∀ s s' t : State, SameButInvalidScratch s s' → step s = .next t →
    ∃ t', step s' = .next t' ∧ SameButInvalidScratch t t' ∧ SameObservable t t'

/-- One engine's step leaves every other engine of the platform as it was: they share only external memory
(60_exceptions.md R281; the platform's form and schedule are the model's, log entry 13). -/
def Obligations.EnginesShareOnlyMemory : Prop :=
  ∀ (pl pl' : Platform) (k : Nat), pl.stepEngine k = .next pl' →
    pl'.engines.length = pl.engines.length ∧ (∀ j, j ≠ k → pl'.engines[j]? = pl.engines[j]?) ∧ pl'.admission = pl.admission

/-! ### Numeric properties -/

/-- The quantizer's values fit their fields, at every qidx, bit depth, k and log_scale of a transform size: the derived
parameters signed 16-bit ones (41_quant.md R171), and the outputs, for every coefficient below 2^30, signed 32-bit ones
with the coefficient's sign (R172). -/
def Obligations.QuantizedValuesFit : Prop :=
  ∀ (qidx : BitVec 8) (bd : BitDepth) (k : CoefKind),
    let P := quantParams Config.params.qstep qidx bd k
    (P.quant ≤ 1 ∧ -(2 ^ 15) + 2 ≤ P.quant ∧ 4 ≤ P.shift ∧ P.shift ≤ 2 ^ 14 ∧
      0 < P.zbin ∧ P.zbin < 2 ^ 15 ∧ 0 < P.round ∧ P.round < 2 ^ 15 ∧ 4 ≤ P.dequant ∧ P.dequant < 2 ^ 15) ∧
    ∀ (ts : TxSize) (c : Int), |c| < 2 ^ 30 →
      let r := quantCoef P ts.logScale bd c
      |r.1| < 2 ^ 31 ∧ |r.2| < 2 ^ 31 ∧ 0 ≤ r.1 * c ∧ 0 ≤ r.2 * c

/-- The class offset: 0 at the average, +POS at the maximum, -NEG at the minimum, and between -NEG and +POS everywhere, for
buckets in order (43_dqp.md R231). -/
def Obligations.ClassOffsetInterpolates : Prop :=
  ∀ dist mn av mx neg pos : Int, mn ≤ av → av ≤ mx → 0 ≤ neg → 0 ≤ pos →
    -neg ≤ classInterp dist mn av mx neg pos ∧ classInterp dist mn av mx neg pos ≤ pos ∧
    (dist = av → classInterp dist mn av mx neg pos = 0) ∧
    (av < mx → mx ≤ dist → classInterp dist mn av mx neg pos = pos) ∧
    (mn < av → dist ≤ mn → classInterp dist mn av mx neg pos = -neg)

/-- With DQP_EN = 1, whatever the inputs, DQP either reports an inconsistent configuration or leaves
MIN_QP ≤ QP ≤ hi ≤ MAX_QP, and with SEDGE = 1 and no anti-contouring it never raises an in-range base QP
(43_dqp.md R232, R234). -/
def Obligations.DqpStaysInBounds : Prop :=
  ∀ (f : Bool) (s t : State), s.errFlag = false → s.dqpEn = true → exec (.dqp f) s = .next t → t.errFlag = false →
    s.minQp ≤ bits t.rslt.dqpResult 7 0 ∧ bits t.rslt.dqpResult 7 0 ≤ s.hiQp ∧ s.hiQp ≤ s.maxQp ∧
    (s.dqpSedge = true → s.dqpAcen = false → s.minQp ≤ s.baseQp →
      bits t.rslt.dqpResult 7 0 ≤ s.baseQp)

/-- The alpha decode: the sign formulas, the magnitudes, the joint-sign table, and |alpha| ≤ 16, 0 only through a zero sign,
for every CFL_ALPHA (42_cfl.md R205). -/
def Obligations.AlphaDecode : Prop :=
  ((List.range 8).map fun js => (cflSignU js, cflSignV js)) =
    [(0, 1), (0, 2), (1, 0), (1, 1), (1, 2), (2, 0), (2, 1), (2, 2)] ∧
  ∀ w : Word,
    let signU := (bits w 10 8 + 1) * 11 / 2 ^ 5
    let signV := bits w 10 8 + 1 - 3 * signU
    alphaQ3 w .u = (if signU = 0 then 0 else if signU = 2 then (bits w 7 4 : Int) + 1 else -((bits w 7 4 : Int) + 1)) ∧
    alphaQ3 w .v = (if signV = 0 then 0 else if signV = 2 then (bits w 3 0 : Int) + 1 else -((bits w 3 0 : Int) + 1)) ∧
    |alphaQ3 w .u| ≤ 16 ∧ |alphaQ3 w .v| ≤ 16 ∧ (alphaQ3 w .u = 0 ↔ signU = 0) ∧ (alphaQ3 w .v = 0 ↔ signV = 0) ∧
    (alphaQ3 w .u = 0 → alphaQ3 w .v ≠ 0)

/-- Zero-residual idempotence: RESID on equal SRC and PRED samples, then FTX, QUANT and TXFLAG, all run, with RES = 0 and
COEF = 0, and leave EOB[p] = NZ[p] = 0, HC[p] = 0 and TT[p] = DCT_DCT, at every qidx and every valid size and type (41_quant.md R176). -/
def Obligations.ZeroResidualIdempotent : Prop :=
  ∀ (p : Plane) (s : State) (bd : BitDepth) (ts : TxSize) (tt : TxType) (m : PredMode),
    s.bitDepth = some bd → s.txSize = some ts → s.txType p ts = some tt → s.predMode = some m →
    ForBlock ts.height ts.width (fun r c =>
      SampleReadable s bd (s.srcAddr p bd r c) ∧ SampleReadable s bd (s.predAddr p bd r c) ∧
      s.sample bd (s.srcAddr p bd r c) = s.sample bd (s.predAddr p bd r c)) →
    ∃ t1 t2 t3 t4, exec (.resid p) s = .next t1 ∧ exec (.ftx p) t1 = .next t2 ∧ exec (.quant p) t2 = .next t3 ∧
      exec (.txflag p) t3 = .next t4 ∧
      t1.scr.res = List.replicate (ts.height * ts.width) 0 ∧ t2.scr.coef = List.replicate ts.codedArea 0 ∧
      t4.rslt.eob.get p = 0 ∧ t4.rslt.nz.get p = 0 ∧ t4.rslt.hc.get p = false ∧ t4.ttCode p = 0 ∧ t4.err = s.err

/-- The lossless pair: with WHT_WHT at TX_4X4 and QINDEX 0, FTX, QUANT and ITX run from any held residual of the block whose
coefficients raise no RANGE, and IRES is that residual exactly (40_transform.md R134). -/
def Obligations.LosslessRoundTrip : Prop :=
  ∀ (p : Plane) (s : State) (bd : BitDepth),
    s.bitDepth = some bd → s.txSize = some .tx4x4 → s.txType p .tx4x4 = some .whtWht → s.qindex = 0 →
    s.scr.resTag = ⟨true, p, .tx4x4, bd⟩ → s.scr.res.length = 16 → (∀ e ∈ s.scr.res, |e| ≤ 2 ^ bd.bits - 1) →
    ForBlock 4 4 (fun r c => |Config.params.fwdTx .tx4x4 .whtWht bd s.scr.res r c| < 2 ^ 30) →
    ∃ t1 t2 t3, exec (.ftx p) s = .next t1 ∧ exec (.quant p) t1 = .next t2 ∧ exec (.itx p) t2 = .next t3 ∧
      t3.scr.ires = s.scr.res

/-- Little-endian: byte k of a stored value is its bits [8k+7:8k], at address + k; every other byte is unchanged; and a read
of n bytes is the number its bytes spell, the lowest address least significant (20_memory.md R74, 00_scope.md R10). -/
def Obligations.MemoryIsLittleEndian : Prop :=
  ∀ (m : Memory) (a n v : Nat),
    (∀ k < n, (Memory.readByte (Memory.write m a n v) (a + k)).toNat = v / 2 ^ (8 * k) % 2 ^ 8) ∧
    (∀ b, b < a ∨ a + n ≤ b → Memory.readByte (Memory.write m a n v) b = Memory.readByte m b) ∧
    Memory.read m a n = ∑ k ∈ Finset.range n, (Memory.readByte m (a + k)).toNat * 2 ^ (8 * k)

/-- The size codes with (w, h, Wc, Hc, log_scale), the type codes with their (vertical, horizontal) kernels, every other code
illegal (30_encoding.md R104, R105); and exactly which pairs TX_VALID allows: WHT_WHT at 4 by 4 alone; every other type where
its two kernels exist at h and at w, with a dimension of 64 for DCT_DCT alone (R106). -/
def Obligations.TxValidPairs : Prop :=
  ((List.range 32).map fun c =>
      (TxSize.ofCode c).map fun ts => (ts.width, ts.height, ts.codedWidth, ts.codedHeight, ts.logScale)) =
    ([(4, 4, 4, 4, 0), (8, 8, 8, 8, 0), (16, 16, 16, 16, 0), (32, 32, 32, 32, 1), (64, 64, 32, 32, 2), (4, 8, 4, 8, 0),
      (8, 4, 8, 4, 0), (8, 16, 8, 16, 0), (16, 8, 16, 8, 0), (16, 32, 16, 32, 1), (32, 16, 32, 16, 1), (32, 64, 32, 32, 2),
      (64, 32, 32, 32, 2), (4, 16, 4, 16, 0), (16, 4, 16, 4, 0), (8, 32, 8, 32, 0), (32, 8, 32, 8, 0), (16, 64, 16, 32, 1),
      (64, 16, 32, 16, 1)] : List (Nat × Nat × Nat × Nat × Nat)).map some ++ List.replicate 13 none ∧
  ((List.range 32).map fun c => (TxType.ofCode c).map fun tt => (tt.vertical, tt.horizontal)) =
    ([(.dct, .dct), (.adst, .dct), (.dct, .adst), (.adst, .adst), (.flipadst, .dct),
      (.dct, .flipadst), (.flipadst, .flipadst), (.adst, .flipadst), (.flipadst, .adst), (.identity, .identity),
      (.dct, .identity), (.identity, .dct), (.adst, .identity), (.identity, .adst), (.flipadst, .identity),
      (.identity, .flipadst), (.wht, .wht)] : List (Kernel × Kernel)).map some ++ List.replicate 15 none ∧
  ∀ (ts : TxSize) (tt : TxType),
    let existsAt := fun (k : Kernel) (n : Nat) =>
      (k = .dct ∧ n ∈ [4, 8, 16, 32, 64]) ∨ ((k = .adst ∨ k = .flipadst) ∧ n ∈ [4, 8, 16]) ∨
        (k = .identity ∧ n ∈ [4, 8, 16, 32])
    (txValid ts .whtWht = true ↔ ts = .tx4x4) ∧
    (tt ≠ .whtWht → (txValid ts tt = true ↔
      (ts.width = 64 ∨ ts.height = 64 → tt = .dctDct) ∧ existsAt tt.vertical ts.height ∧ existsAt tt.horizontal ts.width))

/-! ### Invariants -/

/-- The reset state meets every invariant below; the form of memory that MemoryOk states is the model's choice (log entry 2). -/
def Obligations.ResetMeetsInvariants : Prop :=
  MemoryOk State.reset ∧ ReservedZero State.reset ∧ ErrorOk State.reset ∧ ChainOk State.reset ∧ ScratchOk State.reset ∧
  CountsOk State.reset

/-- Every step keeps external memory in its canonical form: addresses strictly rising, each one of the 2^32 bytes. The bound is
20_memory.md R70; the list and its order are the model's choice (log entry 2). -/
def Obligations.StepKeepsMemoryOk : Prop := ∀ s t : State, MemoryOk s → step s = .next t → MemoryOk t

/-- Every step keeps the reserved bits of every register 0 (10_state.md R56). -/
def Obligations.StepKeepsReservedZero : Prop := ∀ s t : State, ReservedZero s → step s = .next t → ReservedZero t

/-- Every step keeps the error registers consistent (10_state.md R32, R58, 60_exceptions.md R270, R271). -/
def Obligations.StepKeepsErrorOk : Prop := ∀ s t : State, ErrorOk s → step s = .next t → ErrorOk t

/-- Every step keeps the chain: a valid buffer was computed from the valid buffer before it, of the same plane, size and
depth (70_reset_and_hazards.md R307, R308). -/
def Obligations.StepKeepsChainOk : Prop := ∀ s t : State, ChainOk s → step s = .next t → ChainOk t

/-- Every step keeps every valid scratch buffer in its shape and element range (10_state.md R53). That the elements are held as
unbounded integers is the model's choice (log entry 16). -/
def Obligations.StepKeepsScratchOk : Prop := ∀ s t : State, ScratchOk s → step s = .next t → ScratchOk t

/-- Every step keeps 0 ≤ NZ ≤ EOB ≤ 1024, with NZ = 0 exactly when EOB = 0 (41_quant.md R173). -/
def Obligations.StepKeepsCountsOk : Prop := ∀ s t : State, CountsOk s → step s = .next t → CountsOk t
end

