-- ==== Sys2Proof/Laws/Bits.lean ====
section
/-! SUPPORT. Bit fields: the bits of a field read and of a field written, and a field read after a field write. -/

namespace Sys2Proof

theorem testBit_bits (w : Word) (hi lo i : Nat) :
    (bits w hi lo).testBit i = (decide (i < hi + 1 - lo) && w.getLsbD (lo + i)) := by
  rw [bits, Nat.testBit_mod_two_pow, Nat.testBit_div_two_pow, BitVec.getLsbD, Nat.add_comm i lo]

theorem bits_lt (w : Word) (hi lo : Nat) : bits w hi lo < 2 ^ (hi + 1 - lo) := Nat.mod_lt _ (Nat.two_pow_pos _)

theorem getLsbD_fieldMask (hi lo i : Nat) : (fieldMask hi lo).getLsbD i = (decide (i < 32) && decide (lo ≤ i ∧ i ≤ hi)) := by
  rw [fieldMask, BitVec.getLsbD_ofNat, Nat.testBit_mul_two_pow, Nat.testBit_two_pow_sub_one, ← Bool.decide_and]
  congr 2
  rw [eq_iff_iff]
  omega

theorem getLsbD_setBits (w : Word) (hi lo v i : Nat) :
    (setBits w hi lo v).getLsbD i =
      (decide (i < 32) && if lo ≤ i ∧ i ≤ hi then v.testBit (i - lo) else w.getLsbD i) := by
  rw [setBits, BitVec.getLsbD_or, BitVec.getLsbD_and, BitVec.getLsbD_not, getLsbD_fieldMask, BitVec.getLsbD_shiftLeft,
    BitVec.getLsbD_ofNat, Nat.testBit_mod_two_pow]
  by_cases h32 : i < 32
  · by_cases hf : lo ≤ i ∧ i ≤ hi
    · have h1 : ¬ i < lo := by omega
      have h2 : i - lo < 32 := by omega
      have h3 : i - lo < hi + 1 - lo := by omega
      simp [h32, hf, h1, h2, h3]
    · by_cases h1 : i < lo
      · simp [h32, hf, h1]
      · have h3 : ¬ i - lo < hi + 1 - lo := by omega
        simp [h32, hf, h3]
  · simp [h32, BitVec.getLsbD_of_ge _ _ (Nat.le_of_not_lt h32)]

/-- The field just written reads as the value's low bits. -/
theorem bits_setBits_same (w : Word) {hi lo : Nat} (v : Nat) (h : hi < 32) :
    bits (setBits w hi lo v) hi lo = v % 2 ^ (hi + 1 - lo) := by
  refine Nat.eq_of_testBit_eq fun i => ?_
  rw [testBit_bits, getLsbD_setBits, Nat.testBit_mod_two_pow]
  by_cases hi' : i < hi + 1 - lo
  · have h1 : lo + i < 32 := by omega
    have h2 : lo ≤ lo + i ∧ lo + i ≤ hi := by omega
    have h3 : lo + i - lo = i := by omega
    rw [if_pos h2, h3]; simp [h1]
  · simp [hi']

/-- A field that does not meet the one written reads as before. -/
theorem bits_setBits_other (w : Word) {hi lo hi' lo' : Nat} (v : Nat) (h : hi < lo' ∨ hi' < lo) :
    bits (setBits w hi lo v) hi' lo' = bits w hi' lo' := by
  refine Nat.eq_of_testBit_eq fun i => ?_
  rw [testBit_bits, testBit_bits, getLsbD_setBits]
  by_cases hi' : i < hi' + 1 - lo'
  · have h2 : ¬ (lo ≤ lo' + i ∧ lo' + i ≤ hi) := by omega
    rw [if_neg h2]
    by_cases h32 : lo' + i < 32
    · simp [h32]
    · simp [h32, BitVec.getLsbD_of_ge _ _ (Nat.le_of_not_lt h32)]
  · simp [hi']

end Sys2Proof
end

