-- ==== Sys2Proof/Laws/State.lean ====
section
/-! SUPPORT. One lemma per group of State and named update, true by rfl, so that no later proof unfolds a record update; and
reading an indexed register after writing it. -/

namespace Sys2Proof.Machine

variable (s : State)

@[simp] theorem State.errorEntry_err (w : Word) (e : CmdError) :
    (s.errorEntry w e).err = ⟨packStatus true e.addr.isSome e.code.toByte.toNat (cmdOpc w), BitVec.ofNat 32 (e.addr.getD 0), w⟩ := rfl
@[simp] theorem State.errorEntry_cfg (w : Word) (e : CmdError) :
    (s.errorEntry w e).cfg = s.cfg := rfl
@[simp] theorem State.errorEntry_rslt (w : Word) (e : CmdError) :
    (s.errorEntry w e).rslt = s.rslt := rfl
@[simp] theorem State.errorEntry_scr (w : Word) (e : CmdError) :
    (s.errorEntry w e).scr = s.scr := rfl
@[simp] theorem State.errorEntry_mem (w : Word) (e : CmdError) :
    (s.errorEntry w e).mem = s.mem := rfl
@[simp] theorem State.errorEntry_admit (w : Word) (e : CmdError) :
    (s.errorEntry w e).admission = s.admission := rfl
@[simp] theorem State.errorEntry_port (w : Word) (e : CmdError) :
    (s.errorEntry w e).port = s.port := rfl

@[simp] theorem State.clearError_err :
    (s.clearError).err = ErrRegs.reset := rfl
@[simp] theorem State.clearError_cfg :
    (s.clearError).cfg = s.cfg := rfl
@[simp] theorem State.clearError_rslt :
    (s.clearError).rslt = s.rslt := rfl
@[simp] theorem State.clearError_scr :
    (s.clearError).scr = s.scr := rfl
@[simp] theorem State.clearError_mem :
    (s.clearError).mem = s.mem := rfl
@[simp] theorem State.clearError_admit :
    (s.clearError).admission = s.admission := rfl
@[simp] theorem State.clearError_port :
    (s.clearError).port = s.port := rfl

@[simp] theorem State.engineReset_err :
    (s.engineReset).err = ErrRegs.reset := rfl
@[simp] theorem State.engineReset_cfg :
    (s.engineReset).cfg = CfgRegs.reset := rfl
@[simp] theorem State.engineReset_rslt :
    (s.engineReset).rslt = ResultRegs.reset := rfl
@[simp] theorem State.engineReset_scr :
    (s.engineReset).scr = Scratch.reset := rfl
@[simp] theorem State.engineReset_mem :
    (s.engineReset).mem = s.mem := rfl
@[simp] theorem State.engineReset_admit :
    (s.engineReset).admission = s.admission := rfl
@[simp] theorem State.engineReset_port :
    (s.engineReset).port = s.port := rfl

@[simp] theorem State.commitRes_err (p : Plane) (ts : TxSize) (bd : BitDepth) (a : List Int) :
    (s.commitRes p ts bd a).err = s.err := rfl
@[simp] theorem State.commitRes_cfg (p : Plane) (ts : TxSize) (bd : BitDepth) (a : List Int) :
    (s.commitRes p ts bd a).cfg = s.cfg := rfl
@[simp] theorem State.commitRes_rslt (p : Plane) (ts : TxSize) (bd : BitDepth) (a : List Int) :
    (s.commitRes p ts bd a).rslt = { s.rslt with qv := s.rslt.qv.set p false } := rfl
@[simp] theorem State.commitRes_scr (p : Plane) (ts : TxSize) (bd : BitDepth) (a : List Int) :
    (s.commitRes p ts bd a).scr = { s.scr with res := a, resTag := Tag.of p ts bd, coefTag := s.scr.coefTag.clear, qcTag := s.scr.qcTag.clear, iresTag := s.scr.iresTag.clear } := rfl
@[simp] theorem State.commitRes_mem (p : Plane) (ts : TxSize) (bd : BitDepth) (a : List Int) :
    (s.commitRes p ts bd a).mem = s.mem := rfl
@[simp] theorem State.commitRes_admit (p : Plane) (ts : TxSize) (bd : BitDepth) (a : List Int) :
    (s.commitRes p ts bd a).admission = s.admission := rfl
@[simp] theorem State.commitRes_port (p : Plane) (ts : TxSize) (bd : BitDepth) (a : List Int) :
    (s.commitRes p ts bd a).port = s.port := rfl

@[simp] theorem State.commitCoef_err (p : Plane) (ts : TxSize) (bd : BitDepth) (a : List Int) (e : Nat) :
    (s.commitCoef p ts bd a e).err = s.err := rfl
@[simp] theorem State.commitCoef_cfg (p : Plane) (ts : TxSize) (bd : BitDepth) (a : List Int) (e : Nat) :
    (s.commitCoef p ts bd a e).cfg = s.cfg := rfl
@[simp] theorem State.commitCoef_rslt (p : Plane) (ts : TxSize) (bd : BitDepth) (a : List Int) (e : Nat) :
    (s.commitCoef p ts bd a e).rslt = { s.rslt with qv := s.rslt.qv.set p false, e3qLo := s.rslt.e3qLo.set p (BitVec.ofNat 32 (e % 2 ^ 32)), e3qHi := s.rslt.e3qHi.set p (BitVec.ofNat 32 (e / 2 ^ 32)) } := rfl
@[simp] theorem State.commitCoef_scr (p : Plane) (ts : TxSize) (bd : BitDepth) (a : List Int) (e : Nat) :
    (s.commitCoef p ts bd a e).scr = { s.scr with coef := a, coefTag := Tag.of p ts bd, qcTag := s.scr.qcTag.clear, iresTag := s.scr.iresTag.clear } := rfl
@[simp] theorem State.commitCoef_mem (p : Plane) (ts : TxSize) (bd : BitDepth) (a : List Int) (e : Nat) :
    (s.commitCoef p ts bd a e).mem = s.mem := rfl
@[simp] theorem State.commitCoef_admit (p : Plane) (ts : TxSize) (bd : BitDepth) (a : List Int) (e : Nat) :
    (s.commitCoef p ts bd a e).admission = s.admission := rfl
@[simp] theorem State.commitCoef_port (p : Plane) (ts : TxSize) (bd : BitDepth) (a : List Int) (e : Nat) :
    (s.commitCoef p ts bd a e).port = s.port := rfl

@[simp] theorem State.commitQuant_err (p : Plane) (ts : TxSize) (bd : BitDepth) (a b : List Int) (eob nz : Nat) :
    (s.commitQuant p ts bd a b eob nz).err = s.err := rfl
@[simp] theorem State.commitQuant_cfg (p : Plane) (ts : TxSize) (bd : BitDepth) (a b : List Int) (eob nz : Nat) :
    (s.commitQuant p ts bd a b eob nz).cfg = s.cfg := rfl
@[simp] theorem State.commitQuant_rslt (p : Plane) (ts : TxSize) (bd : BitDepth) (a b : List Int) (eob nz : Nat) :
    (s.commitQuant p ts bd a b eob nz).rslt = { s.rslt with qv := s.rslt.qv.set p true, eob := s.rslt.eob.set p (BitVec.ofNat 32 eob), nz := s.rslt.nz.set p (BitVec.ofNat 32 nz) } := rfl
@[simp] theorem State.commitQuant_scr (p : Plane) (ts : TxSize) (bd : BitDepth) (a b : List Int) (eob nz : Nat) :
    (s.commitQuant p ts bd a b eob nz).scr = { s.scr with qcoef := a, dqcoef := b, qcTag := Tag.of p ts bd, iresTag := s.scr.iresTag.clear } := rfl
@[simp] theorem State.commitQuant_mem (p : Plane) (ts : TxSize) (bd : BitDepth) (a b : List Int) (eob nz : Nat) :
    (s.commitQuant p ts bd a b eob nz).mem = s.mem := rfl
@[simp] theorem State.commitQuant_admit (p : Plane) (ts : TxSize) (bd : BitDepth) (a b : List Int) (eob nz : Nat) :
    (s.commitQuant p ts bd a b eob nz).admission = s.admission := rfl
@[simp] theorem State.commitQuant_port (p : Plane) (ts : TxSize) (bd : BitDepth) (a b : List Int) (eob nz : Nat) :
    (s.commitQuant p ts bd a b eob nz).port = s.port := rfl

@[simp] theorem State.commitIres_err (p : Plane) (ts : TxSize) (bd : BitDepth) (a : List Int) :
    (s.commitIres p ts bd a).err = s.err := rfl
@[simp] theorem State.commitIres_cfg (p : Plane) (ts : TxSize) (bd : BitDepth) (a : List Int) :
    (s.commitIres p ts bd a).cfg = s.cfg := rfl
@[simp] theorem State.commitIres_rslt (p : Plane) (ts : TxSize) (bd : BitDepth) (a : List Int) :
    (s.commitIres p ts bd a).rslt = s.rslt := rfl
@[simp] theorem State.commitIres_scr (p : Plane) (ts : TxSize) (bd : BitDepth) (a : List Int) :
    (s.commitIres p ts bd a).scr = { s.scr with ires := a, iresTag := Tag.of p ts bd } := rfl
@[simp] theorem State.commitIres_mem (p : Plane) (ts : TxSize) (bd : BitDepth) (a : List Int) :
    (s.commitIres p ts bd a).mem = s.mem := rfl
@[simp] theorem State.commitIres_admit (p : Plane) (ts : TxSize) (bd : BitDepth) (a : List Int) :
    (s.commitIres p ts bd a).admission = s.admission := rfl
@[simp] theorem State.commitIres_port (p : Plane) (ts : TxSize) (bd : BitDepth) (a : List Int) :
    (s.commitIres p ts bd a).port = s.port := rfl

@[simp] theorem State.commitCflac_err (ts : TxSize) (bd : BitDepth) (a : List Int) :
    (s.commitCflac ts bd a).err = s.err := rfl
@[simp] theorem State.commitCflac_cfg (ts : TxSize) (bd : BitDepth) (a : List Int) :
    (s.commitCflac ts bd a).cfg = s.cfg := rfl
@[simp] theorem State.commitCflac_rslt (ts : TxSize) (bd : BitDepth) (a : List Int) :
    (s.commitCflac ts bd a).rslt = s.rslt := rfl
@[simp] theorem State.commitCflac_scr (ts : TxSize) (bd : BitDepth) (a : List Int) :
    (s.commitCflac ts bd a).scr = { s.scr with cflac := a, cflacTag := Tag.of .y ts bd } := rfl
@[simp] theorem State.commitCflac_mem (ts : TxSize) (bd : BitDepth) (a : List Int) :
    (s.commitCflac ts bd a).mem = s.mem := rfl
@[simp] theorem State.commitCflac_admit (ts : TxSize) (bd : BitDepth) (a : List Int) :
    (s.commitCflac ts bd a).admission = s.admission := rfl
@[simp] theorem State.commitCflac_port (ts : TxSize) (bd : BitDepth) (a : List Int) :
    (s.commitCflac ts bd a).port = s.port := rfl

@[simp] theorem State.commitMem_err (n : Nat) (l : List (Nat × Nat)) :
    (s.commitMem n l).err = s.err := rfl
@[simp] theorem State.commitMem_cfg (n : Nat) (l : List (Nat × Nat)) :
    (s.commitMem n l).cfg = s.cfg := rfl
@[simp] theorem State.commitMem_rslt (n : Nat) (l : List (Nat × Nat)) :
    (s.commitMem n l).rslt = s.rslt := rfl
@[simp] theorem State.commitMem_scr (n : Nat) (l : List (Nat × Nat)) :
    (s.commitMem n l).scr = s.scr := rfl
@[simp] theorem State.commitMem_mem (n : Nat) (l : List (Nat × Nat)) :
    (s.commitMem n l).mem = Memory.writeAll s.mem n l := rfl
@[simp] theorem State.commitMem_admit (n : Nat) (l : List (Nat × Nat)) :
    (s.commitMem n l).admission = s.admission := rfl
@[simp] theorem State.commitMem_port (n : Nat) (l : List (Nat × Nat)) :
    (s.commitMem n l).port = s.port := rfl

@[simp] theorem State.clearTu_err :
    (s.clearTu).err = s.err := rfl
@[simp] theorem State.clearTu_cfg :
    (s.clearTu).cfg = s.cfg := rfl
@[simp] theorem State.clearTu_rslt :
    (s.clearTu).rslt = { s.rslt with eob := PerPlane.all 0, nz := PerPlane.all 0, e3qLo := PerPlane.all 0, e3qHi := PerPlane.all 0, hc := PerPlane.all false, qv := PerPlane.all false } := rfl
@[simp] theorem State.clearTu_scr :
    (s.clearTu).scr = { s.scr with resTag := s.scr.resTag.clear, coefTag := s.scr.coefTag.clear, qcTag := s.scr.qcTag.clear, iresTag := s.scr.iresTag.clear, cflacTag := s.scr.cflacTag.clear } := rfl
@[simp] theorem State.clearTu_mem :
    (s.clearTu).mem = s.mem := rfl
@[simp] theorem State.clearTu_admit :
    (s.clearTu).admission = s.admission := rfl
@[simp] theorem State.clearTu_port :
    (s.clearTu).port = s.port := rfl

@[simp] theorem State.answer_err (v : Word) :
    (s.answer v).err = s.err := rfl
@[simp] theorem State.answer_cfg (v : Word) :
    (s.answer v).cfg = s.cfg := rfl
@[simp] theorem State.answer_rslt (v : Word) :
    (s.answer v).rslt = s.rslt := rfl
@[simp] theorem State.answer_scr (v : Word) :
    (s.answer v).scr = s.scr := rfl
@[simp] theorem State.answer_mem (v : Word) :
    (s.answer v).mem = s.mem := rfl
@[simp] theorem State.answer_admit (v : Word) :
    (s.answer v).admission = s.admission := rfl
@[simp] theorem State.answer_port (v : Word) :
    (s.answer v).port = { s.port with reads := v :: s.port.reads } := rfl

@[simp] theorem State.advance_err : s.advance.err = s.err := by unfold State.advance; split <;> rfl
@[simp] theorem State.advance_cfg : s.advance.cfg = s.cfg := by unfold State.advance; split <;> rfl
@[simp] theorem State.advance_rslt : s.advance.rslt = s.rslt := by unfold State.advance; split <;> rfl
@[simp] theorem State.advance_scr : s.advance.scr = s.scr := by unfold State.advance; split <;> rfl
@[simp] theorem State.advance_mem : s.advance.mem = s.mem := by unfold State.advance; split <;> rfl
@[simp] theorem State.advance_admit : s.advance.admission = s.admission := by unfold State.advance; split <;> rfl

theorem State.advance_of_pending {e : HostEvent} {rest : List HostEvent} (h : s.port.pending = e :: rest) :
    s.advance = { s with port := { s.port with pending := rest, pos := s.port.pos + e.isRegAccess.toNat } } := by
  unfold State.advance; rw [h]

@[simp] theorem Tag.clear_valid (t : Tag) : t.clear.valid = false := rfl
@[simp] theorem Tag.clear_plane (t : Tag) : t.clear.plane = t.plane := rfl
@[simp] theorem Tag.of_valid (p : Plane) (ts : TxSize) (bd : BitDepth) : (Tag.of p ts bd).valid = true := rfl

/-- A consumer accepts a tag exactly if it is the tag its own producer sets. -/
theorem Tag.accepts_iff (t : Tag) (p : Plane) (ts : TxSize) (bd : BitDepth) :
    t.accepts p ts bd = true ↔ t = ⟨true, p, ts, bd⟩ := by
  cases t; simp [Tag.accepts, and_assoc]

end Sys2Proof.Machine

namespace Sys2Proof

variable {α : Type}

@[simp] theorem PerPlane.get_all (a : α) (p : Plane) : (PerPlane.all a).get p = a := by cases p <;> rfl
@[simp] theorem PerPlane.get_set_self (x : PerPlane α) (p : Plane) (a : α) : (x.set p a).get p = a := by cases p <;> rfl
theorem PerPlane.get_set (x : PerPlane α) (p q : Plane) (a : α) : (x.set p a).get q = if q = p then a else x.get q := by
  cases p <;> cases q <;> rfl
theorem PerPlane.get_set_of_ne (x : PerPlane α) {p q : Plane} (a : α) (h : q ≠ p) : (x.set p a).get q = x.get q := by
  rw [PerPlane.get_set, if_neg h]
@[simp] theorem PerBuf.get_all (a : α) (b : Buf) : (PerBuf.all a).get b = a := by cases b <;> rfl
theorem PerBuf.get_set (x : PerBuf α) (p q : Buf) (a : α) : (x.set p a).get q = if q = p then a else x.get q := by
  cases p <;> cases q <;> rfl
@[simp] theorem PerDepth.get_all (a : α) (d : Depth) : (PerDepth.all a).get d = a := by cases d <;> rfl
theorem PerDepth.get_set (x : PerDepth α) (p q : Depth) (a : α) : (x.set p a).get q = if q = p then a else x.get q := by
  cases p <;> cases q <;> rfl

end Sys2Proof
end

