-- ==== Sys2Proof/Laws/Checks.lean ====
section
/-! SUPPORT. What each shared check can answer: `.ok` exactly when its condition holds, and otherwise which error. -/

namespace Sys2Proof.Machine

/-- Sequencing of checks: the whole succeeds exactly if each part does. -/
theorem bind_eq_ok {ε α β : Type} (x : Except ε α) (f : α → Except ε β) (b : β) :
    (x >>= f) = .ok b ↔ ∃ a, x = .ok a ∧ f a = .ok b := by
  cases x with
  | ok a => exact ⟨fun h => ⟨a, rfl, h⟩, fun ⟨_, h, h'⟩ => by cases h; exact h'⟩
  | error e => exact ⟨nofun, fun ⟨_, h, _⟩ => nomatch h⟩

@[simp] theorem ok_bind {ε α β : Type} (a : α) (f : α → Except ε β) : (Except.ok a >>= f) = f a := rfl
@[simp] theorem error_bind {ε α β : Type} (e : ε) (f : α → Except ε β) : (Except.error e >>= f) = .error e := rfl

theorem require_eq_ok (b : Bool) (c : ErrCode) (u : Unit) : require b c = .ok u ↔ b = true := by
  cases b <;> simp [require]

@[simp] theorem require_true (c : ErrCode) : require true c = .ok () := rfl
@[simp] theorem require_false (c : ErrCode) : require false c = .error ⟨c, none⟩ := rfl

theorem decoded_eq_ok {α : Type} (o : Option α) (c : ErrCode) (a : α) : decoded o c = .ok a ↔ o = some a := by
  cases o <;> simp [decoded]

@[simp] theorem decoded_some {α : Type} (a : α) (c : ErrCode) : decoded (some a) c = .ok a := rfl
@[simp] theorem decoded_none {α : Type} (c : ErrCode) : decoded (none : Option α) c = .error ⟨c, none⟩ := rfl

/-- A search for the first element that fails a check finds exactly the first bad one. -/
theorem find_not_eq_some {α : Type} (l : List α) (ok : α → Bool) (x : α) :
    l.find? (fun a => !ok a) = some x ↔ FirstBad l ok x := by
  rw [List.find?_eq_some_iff_append]
  constructor
  · rintro ⟨h, as, bs, rfl, hp⟩
    exact ⟨as, bs, rfl, fun y hy => by simpa using hp y hy, by simpa using h⟩
  · rintro ⟨as, bs, rfl, hp, h⟩
    exact ⟨by simpa using h, as, bs, rfl, fun y hy => by simpa using hp y hy⟩

theorem find_not_eq_none {α : Type} (l : List α) (ok : α → Bool) : l.find? (fun a => !ok a) = none ↔ AllOk l ok := by
  simp [List.find?_eq_none, AllOk]

theorem checkAlign_eq_ok (as : List Access) (u : Unit) : checkAlign as = .ok u ↔ AllOk as isAligned := by
  rw [← find_not_eq_none, checkAlign]; split <;> simp_all

theorem checkAlign_of_firstBad {as : List Access} {a : Access} (h : FirstBad as isAligned a) :
    checkAlign as = .error ⟨.align, some a.addr⟩ := by
  rw [checkAlign, (find_not_eq_some _ _ _).2 h]

theorem State.checkBus_eq_ok (s : State) (as : List Access) (u : Unit) : s.checkBus as = .ok u ↔ AllOk as s.admits := by
  rw [← find_not_eq_none, State.checkBus]; split <;> simp_all

theorem State.checkBus_of_firstBad {s : State} {as : List Access} {a : Access} (h : FirstBad as s.admits a) :
    s.checkBus as = .error ⟨.bus, some a.addr⟩ := by
  rw [State.checkBus, (find_not_eq_some _ _ _).2 h]

theorem State.checkAccesses_eq_ok (s : State) (as : List Access) (u : Unit) :
    s.checkAccesses as = .ok u ↔ AllOk as isAligned ∧ AllOk as s.admits := by
  rw [State.checkAccesses, bind_eq_ok]
  simp [checkAlign_eq_ok, State.checkBus_eq_ok]

theorem State.checkSamples_eq_ok (s : State) (bd : BitDepth) (reads : List Nat) (u : Unit) :
    s.checkSamples bd reads = .ok u ↔ ∀ a ∈ reads, s.sample bd a < 2 ^ bd.bits := by
  rw [State.checkSamples]
  split
  · rename_i a h
    have h1 := List.mem_of_find?_eq_some h
    have h2 := List.find?_some h
    simp at h2
    exact ⟨nofun, fun h' => absurd (h' a h1) (by omega)⟩
  · rename_i h
    rw [List.find?_eq_none] at h
    simpa using h

theorem State.checkSamples_of_firstBad {s : State} {bd : BitDepth} {reads : List Nat} {a : Nat}
    (h : FirstBad reads (fun x => decide (s.sample bd x < 2 ^ bd.bits)) a) :
    s.checkSamples bd reads = .error ⟨.range, some a⟩ := by
  have h' := (find_not_eq_some _ _ _).2 h
  have e : (fun x => decide (2 ^ bd.bits ≤ s.sample bd x)) = fun x => !decide (s.sample bd x < 2 ^ bd.bits) := by
    funext x; rw [← decide_not, decide_eq_decide, Nat.not_lt]
  rw [State.checkSamples, e, h']

theorem isAligned_iff (a : Access) : isAligned a = true ↔ a.addr % a.width = 0 := by simp [isAligned]

theorem State.admits_iff (s : State) (a : Access) : s.admits a = true ↔ a.addr + a.width ≤ 2 ^ 32 ∧ s.memAdmit a = true := by
  simp [State.admits]

/-- Sample reads that can be carried out pass every check. -/
theorem State.checks_of_readable {s : State} {bd : BitDepth} {as : List Nat} (h : ∀ a ∈ as, SampleReadable s bd a) :
    AllOk (sampleAccesses bd .read as) isAligned ∧ AllOk (sampleAccesses bd .read as) s.admits ∧
      ∀ a ∈ as, s.sample bd a < 2 ^ bd.bits := by
  refine ⟨fun x hx => ?_, fun x hx => ?_, fun a ha => (h a ha).2.2.2⟩ <;>
  · obtain ⟨a, ha, rfl⟩ := List.mem_map.1 hx
    have := h a ha
    first
    | exact (isAligned_iff _).2 this.1
    | exact (s.admits_iff _).2 ⟨this.2.1, this.2.2.1⟩

theorem State.checks_of_writable {s : State} {bd : BitDepth} {as : List Nat} (h : ∀ a ∈ as, SampleWritable s bd a) :
    AllOk (sampleAccesses bd .write as) isAligned ∧ AllOk (sampleAccesses bd .write as) s.admits := by
  refine ⟨fun x hx => ?_, fun x hx => ?_⟩ <;>
  · obtain ⟨a, ha, rfl⟩ := List.mem_map.1 hx
    have := h a ha
    first
    | exact (isAligned_iff _).2 this.1
    | exact (s.admits_iff _).2 ⟨this.2.1, this.2.2⟩

theorem allOk_append {α : Type} (l l' : List α) (ok : α → Bool) : AllOk (l ++ l') ok ↔ AllOk l ok ∧ AllOk l' ok := by
  simp only [AllOk, List.mem_append, or_imp, forall_and]

/-! ### Positions of a block -/

theorem mem_grid {h w r c : Nat} : (r, c) ∈ grid h w ↔ r < h ∧ c < w := by
  simp only [grid, List.mem_map, List.mem_range, Prod.mk.injEq]
  constructor
  · rintro ⟨i, hi, rfl, rfl⟩
    have hw : 0 < w := by rcases Nat.eq_zero_or_pos w with h0 | h0; · subst h0; omega
                          · exact h0
    exact ⟨Nat.div_lt_of_lt_mul (by rwa [Nat.mul_comm]), Nat.mod_lt _ hw⟩
  · rintro ⟨hr, hc⟩
    refine ⟨r * w + c, ?_, ?_, ?_⟩
    · calc r * w + c < r * w + w := by omega
        _ = (r + 1) * w := by rw [Nat.succ_mul]
        _ ≤ h * w := Nat.mul_le_mul_right _ hr
    · rw [Nat.mul_comm, Nat.mul_add_div (by omega), Nat.div_eq_of_lt hc, Nat.add_zero]
    · rw [Nat.mul_comm, Nat.mul_add_mod, Nat.mod_eq_of_lt hc]

theorem forall_grid {h w : Nat} {P : Nat × Nat → Prop} : (∀ x ∈ grid h w, P x) ↔ ForBlock h w fun r c => P (r, c) :=
  ⟨fun H r c hr hc => H (r, c) (mem_grid.2 ⟨hr, hc⟩), fun H x hx => by
    obtain ⟨r, c⟩ := x; exact H r c (mem_grid.1 hx).1 (mem_grid.1 hx).2⟩

/-- Element (r, c) of a tabulated block. -/
theorem elem_tabulate {h w r c : Nat} (f : Nat → Nat → Int) (hr : r < h) (hc : c < w) :
    elem (tabulate h w f) w r c = f r c := by
  have hlt : r * w + c < h * w := by
    calc r * w + c < r * w + w := by omega
      _ = (r + 1) * w := by rw [Nat.succ_mul]
      _ ≤ h * w := Nat.mul_le_mul_right _ hr
  rw [elem, List.getD_eq_getElem _ _ (by rwa [length_tabulate]), getElem_tabulate, Nat.mul_comm,
    Nat.mul_add_div (by omega), Nat.div_eq_of_lt hc, Nat.mul_add_mod, Nat.mod_eq_of_lt hc, Nat.add_zero]

theorem mem_tabulate {h w : Nat} {f : Nat → Nat → Int} {x : Int} :
    x ∈ tabulate h w f ↔ ∃ r c, r < h ∧ c < w ∧ f r c = x := by
  simp only [tabulate, List.mem_map]
  constructor
  · rintro ⟨⟨r, c⟩, hm, rfl⟩; exact ⟨r, c, (mem_grid.1 hm).1, (mem_grid.1 hm).2, rfl⟩
  · rintro ⟨r, c, hr, hc, rfl⟩; exact ⟨(r, c), mem_grid.2 ⟨hr, hc⟩, rfl⟩

theorem allBelow_iff {h w : Nat} {b : Int} {f : Nat → Nat → Int} :
    allBelow h w b f = true ↔ ForBlock h w fun r c => |f r c| < b := by
  simp only [allBelow, List.all_eq_true, decide_eq_true_eq]
  exact forall_grid

end Sys2Proof.Machine
end

