-- ==== Sys2Proof/Laws/Exec.lean ====
section
/-! SUPPORT. What one command can do: `exec` completes the command's effect, and one inversion lemma per command says when
its effect is reached and what it is. -/

namespace Sys2Proof.Machine

/-- The effect of a command, before completion: its next state, or the error it raises. -/
def effect (i : Instr) (s : State) : Except CmdError State :=
  match i with
  | .nop => .ok s
  | .resid p => resid p s
  | .ftx p => ftx Config.params p s
  | .quant p => quant Config.params p s
  | .itx p => itx Config.params p s
  | .recon p f => recon p f s
  | .txflag p => txflag p s
  | .stcoef p f => stcoef p f s
  | .cflAc f => cflAc f s
  | .cflPred p => cflPred p s
  | .dqp f => dqp f s
  | .tuClr => .ok s.clearTu

theorem exec_eq (i : Instr) (s : State) : exec i s = .next (s.complete (encode i) (effect i s)) := by cases i <;> rfl

theorem exec_of_ok {i : Instr} {s t : State} (h : effect i s = .ok t) : exec i s = .next t := by
  rw [exec_eq, h]; rfl

theorem exec_of_error {i : Instr} {s : State} {c : ErrCode} {a : Option Nat} (h : effect i s = .error ⟨c, a⟩) :
    exec i s = .next (s.failed i c a) := by
  rw [exec_eq, h]; rfl

/-- A command's next state is the error entry or the command's effect. -/
theorem exec_cases {i : Instr} {s t : State} (h : exec i s = .next t) :
    (∃ e, effect i s = .error e ∧ t = s.errorEntry (encode i) e) ∨ effect i s = .ok t := by
  rw [exec_eq] at h
  cases he : effect i s with
  | ok u => rw [he] at h; right; cases h; rfl
  | error e => rw [he] at h; left; cases h; exact ⟨e, rfl, rfl⟩

theorem resid_ok {p : Plane} {s t : State} : resid p s = .ok t ↔
    ∃ bd ts, s.bitDepth = some bd ∧ s.txSize = some ts ∧
      AllOk (sampleAccesses bd .read (s.residReads p ts bd)) isAligned ∧
      AllOk (sampleAccesses bd .read (s.residReads p ts bd)) s.admits ∧
      (∀ a ∈ s.residReads p ts bd, s.sample bd a < 2 ^ bd.bits) ∧
      t = s.commitRes p ts bd (tabulate ts.height ts.width (s.residual p bd)) := by
  simp only [resid, bind_eq_ok, State.needBitDepth, State.needTxSize, decoded_eq_ok, State.checkAccesses_eq_ok,
    State.checkSamples_eq_ok, Except.ok.injEq]
  constructor
  · rintro ⟨bd, h1, ts, h2, _, ⟨h3, h4⟩, _, h5, h6⟩; exact ⟨bd, ts, h1, h2, h3, h4, h5, h6.symm⟩
  · rintro ⟨bd, ts, h1, h2, h3, h4, h5, h6⟩; exact ⟨bd, h1, ts, h2, (), ⟨h3, h4⟩, (), h5, h6.symm⟩

theorem ftx_ok {P : Params} {p : Plane} {s t : State} : ftx P p s = .ok t ↔
    ∃ bd ts tt, s.bitDepth = some bd ∧ s.txSize = some ts ∧ s.txType p ts = some tt ∧
      s.scr.resTag = ⟨true, p, ts, bd⟩ ∧
      (ForBlock ts.codedHeight ts.codedWidth fun r c => |P.fwdTx ts tt bd s.scr.res r c| < 2 ^ 30) ∧
      t = s.commitCoef p ts bd (tabulate ts.codedHeight ts.codedWidth (P.fwdTx ts tt bd s.scr.res))
        (energy3q ts (P.fwdTx ts tt bd s.scr.res)) := by
  simp only [ftx, needTag, bind_eq_ok, State.needBitDepth, State.needTxSize, State.needTxType, decoded_eq_ok, require_eq_ok,
    Tag.accepts_iff, allBelow_iff, Except.ok.injEq]
  constructor
  · rintro ⟨bd, h1, ts, h2, tt, h3, _, h4, _, h5, h6⟩; exact ⟨bd, ts, tt, h1, h2, h3, h4, h5, h6.symm⟩
  · rintro ⟨bd, ts, tt, h1, h2, h3, h4, h5, h6⟩; exact ⟨bd, h1, ts, h2, tt, h3, (), h4, (), h5, h6.symm⟩

theorem quant_ok {P : Params} {p : Plane} {s t : State} : quant P p s = .ok t ↔
    ∃ bd ts tt, s.bitDepth = some bd ∧ s.txSize = some ts ∧ s.txType p ts = some tt ∧
      s.scr.coefTag = ⟨true, p, ts, bd⟩ ∧
      t = s.commitQuant p ts bd ((s.quantized P ts bd).map Prod.fst) ((s.quantized P ts bd).map Prod.snd)
        (eobOf (P.scan ts tt) ((s.quantized P ts bd).map Prod.fst) ts.codedArea)
        (nzOf ((s.quantized P ts bd).map Prod.fst)) := by
  simp only [quant, needTag, bind_eq_ok, State.needBitDepth, State.needTxSize, State.needTxType, decoded_eq_ok,
    require_eq_ok, Tag.accepts_iff, Except.ok.injEq]
  constructor
  · rintro ⟨bd, h1, ts, h2, tt, h3, _, h4, h5⟩; exact ⟨bd, ts, tt, h1, h2, h3, h4, h5.symm⟩
  · rintro ⟨bd, ts, tt, h1, h2, h3, h4, h5⟩; exact ⟨bd, h1, ts, h2, tt, h3, (), h4, h5.symm⟩

theorem itx_ok {P : Params} {p : Plane} {s t : State} : itx P p s = .ok t ↔
    ∃ bd ts tt, s.bitDepth = some bd ∧ s.txSize = some ts ∧ s.txType p ts = some tt ∧
      s.scr.qcTag = ⟨true, p, ts, bd⟩ ∧
      (ForBlock ts.height ts.width fun r c => |P.invTx ts tt bd s.scr.dqcoef r c| < 2 ^ 31) ∧
      t = s.commitIres p ts bd (tabulate ts.height ts.width (P.invTx ts tt bd s.scr.dqcoef)) := by
  simp only [itx, needTag, bind_eq_ok, State.needBitDepth, State.needTxSize, State.needTxType, decoded_eq_ok, require_eq_ok,
    Tag.accepts_iff, allBelow_iff, Except.ok.injEq]
  constructor
  · rintro ⟨bd, h1, ts, h2, tt, h3, _, h4, _, h5, h6⟩; exact ⟨bd, ts, tt, h1, h2, h3, h4, h5, h6.symm⟩
  · rintro ⟨bd, ts, tt, h1, h2, h3, h4, h5, h6⟩; exact ⟨bd, h1, ts, h2, tt, h3, (), h4, (), h5, h6.symm⟩

/-- RECON's accesses in pseudocode order (40_transform.md R139). -/
def State.reconAccesses (s : State) (p : Plane) (ts : TxSize) (bd : BitDepth) : List Access :=
  sampleAccesses bd .read (s.predReads p ts bd) ++ sampleAccesses bd .write (s.reconWrites p ts bd)

theorem recon_ok {p : Plane} {f : Bool} {s t : State} : recon p f s = .ok t ↔
    ∃ bd ts, s.bitDepth = some bd ∧ s.txSize = some ts ∧ (f = true ∨ s.scr.iresTag = ⟨true, p, ts, bd⟩) ∧
      AllOk (s.reconAccesses p ts bd) isAligned ∧ AllOk (s.reconAccesses p ts bd) s.admits ∧
      (∀ a ∈ s.predReads p ts bd, s.sample bd a < 2 ^ bd.bits) ∧
      t = s.commitMem bd.bytes ((grid ts.height ts.width).map fun rc =>
        (s.reconAddr p bd rc.1 rc.2, (s.recSample p ts bd f rc.1 rc.2).toNat)) := by
  simp only [recon, bind_eq_ok, State.needBitDepth, State.needTxSize, decoded_eq_ok, State.checkAccesses_eq_ok,
    State.checkSamples_eq_ok, Except.ok.injEq, require_eq_ok, Bool.or_eq_true, Tag.accepts_iff]
  constructor
  · rintro ⟨bd, h1, ts, h2, _, h0, _, ⟨h3, h4⟩, _, h5, h6⟩; exact ⟨bd, ts, h1, h2, h0, h3, h4, h5, h6.symm⟩
  · rintro ⟨bd, ts, h1, h2, h0, h3, h4, h5, h6⟩; exact ⟨bd, h1, ts, h2, (), h0, (), ⟨h3, h4⟩, (), h5, h6.symm⟩

theorem txflag_ok {p : Plane} {s t : State} : txflag p s = .ok t ↔
    ∃ m, s.predMode = some m ∧ s.rslt.qv.get p = true ∧
      t = { s with
        cfg := { s.cfg with tuCfg := if s.nzIsZero p then forcedTuCfg s.cfg.tuCfg p m else s.cfg.tuCfg }
        rslt := { s.rslt with hc := s.rslt.hc.set p (!s.nzIsZero p) } } := by
  simp only [txflag, bind_eq_ok, State.needPredMode, decoded_eq_ok, require_eq_ok, Except.ok.injEq]
  constructor
  · rintro ⟨m, h1, _, h2, h3⟩; exact ⟨m, h1, h2, h3.symm⟩
  · rintro ⟨m, h1, h2, h3⟩; exact ⟨m, h1, (), h2, h3.symm⟩

theorem stcoef_ok {p : Plane} {f : Bool} {s t : State} : stcoef p f s = .ok t ↔
    ∃ bd ts, s.bitDepth = some bd ∧ s.txSize = some ts ∧ s.scr.qcTag = ⟨true, p, ts, bd⟩ ∧
      AllOk (s.coefAccesses p ts) isAligned ∧ AllOk (s.coefAccesses p ts) s.admits ∧
      t = s.commitMem 4 ((List.range ts.codedArea).map fun i =>
        (s.coefAddr p i, wordOfInt ((s.storedCoefs f).getD i 0))) := by
  simp only [stcoef, needTag, bind_eq_ok, State.needBitDepth, State.needTxSize, decoded_eq_ok, State.checkAccesses_eq_ok,
    Except.ok.injEq, require_eq_ok, Tag.accepts_iff]
  constructor
  · rintro ⟨bd, h1, ts, h2, _, h0, _, ⟨h3, h4⟩, h6⟩; exact ⟨bd, ts, h1, h2, h0, h3, h4, h6.symm⟩
  · rintro ⟨bd, ts, h1, h2, h0, h3, h4, h6⟩; exact ⟨bd, h1, ts, h2, (), h0, (), ⟨h3, h4⟩, h6.symm⟩

theorem needCfl_eq_ok {ts : TxSize} {m : PredMode} {u : Unit} :
    needCfl ts m = .ok u ↔ m = .intra ∧ ts.width ≤ 32 ∧ ts.height ≤ 32 := by
  simp [needCfl, require_eq_ok, and_assoc]

theorem cflAc_ok {f : Bool} {s t : State} : cflAc f s = .ok t ↔
    ∃ bd fmt ts, s.bitDepth = some bd ∧ s.chromaFormat = some fmt ∧ s.txSize = some ts ∧ s.predMode = some .intra ∧
      ts.width ≤ 32 ∧ ts.height ≤ 32 ∧
      AllOk (sampleAccesses bd .read (s.lumaReads f ts fmt bd)) isAligned ∧
      AllOk (sampleAccesses bd .read (s.lumaReads f ts fmt bd)) s.admits ∧
      (∀ a ∈ s.lumaReads f ts fmt bd, s.sample bd a < 2 ^ bd.bits) ∧
      t = s.commitCflac ts bd (tabulate ts.height ts.width (s.cflAcValue f ts fmt bd)) := by
  simp only [cflAc, bind_eq_ok, State.needBitDepth, State.needTxSize, State.needChromaFormat, State.needPredMode,
    decoded_eq_ok, State.checkAccesses_eq_ok, State.checkSamples_eq_ok, Except.ok.injEq, needCfl_eq_ok]
  constructor
  · rintro ⟨bd, h1, fmt, h2, ts, h3, m, h4, _, ⟨rfl, h5, h6⟩, _, ⟨h7, h8⟩, _, h9, h10⟩
    exact ⟨bd, fmt, ts, h1, h2, h3, h4, h5, h6, h7, h8, h9, h10.symm⟩
  · rintro ⟨bd, fmt, ts, h1, h2, h3, h4, h5, h6, h7, h8, h9, h10⟩
    exact ⟨bd, h1, fmt, h2, ts, h3, _, h4, (), ⟨rfl, h5, h6⟩, (), ⟨h7, h8⟩, (), h9, h10.symm⟩

/-- CFL_PRED's accesses in pseudocode order (42_cfl.md R206). -/
def State.cflPredAccesses (s : State) (p : Plane) (ts : TxSize) (bd : BitDepth) : List Access :=
  sampleAccesses bd .read (s.dcReads p ts bd) ++ sampleAccesses bd .write (s.dcReads p ts bd)

theorem cflPred_ok {p : Plane} {s t : State} : cflPred p s = .ok t ↔
    ∃ bd ts, p ≠ .y ∧ s.bitDepth = some bd ∧ s.txSize = some ts ∧ s.predMode = some .intra ∧
      ts.width ≤ 32 ∧ ts.height ≤ 32 ∧ s.scr.cflacTag = ⟨true, .y, ts, bd⟩ ∧
      AllOk (s.cflPredAccesses p ts bd) isAligned ∧ AllOk (s.cflPredAccesses p ts bd) s.admits ∧
      (∀ a ∈ s.dcReads p ts bd, s.sample bd a < 2 ^ bd.bits) ∧
      t = s.commitMem bd.bytes ((grid ts.height ts.width).map fun rc =>
        (s.predAddr p bd rc.1 rc.2, (s.cflSample p ts bd rc.1 rc.2).toNat)) := by
  simp only [cflPred, needTag, bind_eq_ok, State.needBitDepth, State.needTxSize, State.needPredMode, decoded_eq_ok,
    State.checkAccesses_eq_ok, State.checkSamples_eq_ok, Except.ok.injEq, needCfl_eq_ok, require_eq_ok, Tag.accepts_iff,
    bne_iff_ne]
  constructor
  · rintro ⟨_, h0, bd, h1, ts, h3, m, h4, _, ⟨rfl, h5, h6⟩, _, h, _, ⟨h7, h8⟩, _, h9, h10⟩
    exact ⟨bd, ts, h0, h1, h3, h4, h5, h6, h, h7, h8, h9, h10.symm⟩
  · rintro ⟨bd, ts, h0, h1, h3, h4, h5, h6, h, h7, h8, h9, h10⟩
    exact ⟨(), h0, bd, h1, ts, h3, _, h4, (), ⟨rfl, h5, h6⟩, (), h, (), ⟨h7, h8⟩, (), h9, h10.symm⟩

theorem dqp_ok {f : Bool} {s t : State} : dqp f s = .ok t ↔
    ∃ m, s.qpMod = some m ∧ (s.dqpEn = true → s.minQp ≤ s.hiQp) ∧ (s.dqpEn = true → s.bucketsOk m = true) ∧
      t = { s with
        rslt := { s.rslt with dqpResult := dqpResultWord (s.dqpQp m) s.baseQp }
        cfg := { s.cfg with qidx := if f then setBits s.cfg.qidx 7 0 (s.dqpQp m).toNat else s.cfg.qidx } } := by
  simp only [dqp, bind_eq_ok, State.needQpMod, decoded_eq_ok, require_eq_ok, Except.ok.injEq, Bool.or_eq_true,
    Bool.not_eq_true', decide_eq_true_eq]
  constructor
  · rintro ⟨m, h1, _, h2, _, h3, h4⟩
    exact ⟨m, h1, fun h => h2.resolve_left (by simp [h]), fun h => h3.resolve_left (by simp [h]), h4.symm⟩
  · rintro ⟨m, h1, h2, h3, h4⟩
    refine ⟨m, h1, (), ?_, (), ?_, h4.symm⟩ <;> cases h : s.dqpEn <;> simp_all

end Sys2Proof.Machine
end

