-- ==== Sys2Proof/Laws/Memory.lean ====
section
/-! SUPPORT. The laws of external memory: a byte read after a write, wide reads and writes, a command's list of writes, and
that every memory operation keeps the canonical form. -/

namespace Sys2Proof.Machine

/-! ### One byte -/

theorem Memory.find_put (m : Memory) (a b : Nat) (v : Byte) :
    Memory.find (Memory.put m a v) b = if b = a then some v else Memory.find m b := by
  induction m with
  | nil => simp only [Memory.put, Memory.find]; split <;> rename_i h <;> simp [eq_comm] at h ⊢ <;> simp [h]
  | cons c t ih =>
    obtain ⟨k, u⟩ := c
    simp only [Memory.put]
    split
    · simp only [Memory.find, eq_comm (a := b)]
    · split
      · rename_i h1 h2
        subst h2
        simp only [Memory.find]
        by_cases hb : a = b <;> simp [hb, eq_comm]
      · rename_i h1 h2
        simp only [Memory.find, ih]
        by_cases hk : k = b
        · have : b ≠ a := by omega
          simp [hk, this]
        · simp [hk]

/-- Reading a byte after writing one. -/
theorem Memory.readByte_put (m : Memory) (a b : Nat) (v : Byte) :
    Memory.readByte (Memory.put m a v) b = if b = a then v else Memory.readByte m b := by
  unfold Memory.readByte
  rw [Memory.find_put]
  split <;> simp

/-! ### n bytes -/

theorem Memory.readByte_write (m : Memory) (a n v b : Nat) :
    Memory.readByte (Memory.write m a n v) b =
      if a ≤ b ∧ b < a + n then BitVec.ofNat 8 (v / 256 ^ (b - a) % 256) else Memory.readByte m b := by
  induction n generalizing m a v with
  | zero => simp [Memory.write]
  | succ n ih =>
    rw [Memory.write, ih, Memory.readByte_put]
    by_cases hba : b = a
    · subst hba; simp
    · by_cases hin : a + 1 ≤ b ∧ b < a + 1 + n
      · have h1 : a ≤ b ∧ b < a + (n + 1) := by omega
        have h2 : b - a = (b - (a + 1)) + 1 := by omega
        rw [if_pos hin, if_pos h1, h2, pow_succ', Nat.div_div_eq_div_mul]
      · have h1 : ¬ (a ≤ b ∧ b < a + (n + 1)) := by omega
        rw [if_neg hin, if_neg hba, if_neg h1]

/-- A write leaves every byte outside its range alone. -/
theorem Memory.readByte_write_outside (m : Memory) {a n b : Nat} (v : Nat) (h : b < a ∨ a + n ≤ b) :
    Memory.readByte (Memory.write m a n v) b = Memory.readByte m b := by
  rw [Memory.readByte_write, if_neg (by omega)]

/-- A read depends on its own bytes alone. -/
theorem Memory.read_congr (m m' : Memory) (a n : Nat)
    (h : ∀ b, a ≤ b → b < a + n → Memory.readByte m b = Memory.readByte m' b) :
    Memory.read m a n = Memory.read m' a n := by
  induction n generalizing a with
  | zero => rfl
  | succ n ih =>
    rw [Memory.read, Memory.read, h a (by omega) (by omega), ih (a + 1) fun b h1 h2 => h b (by omega) (by omega)]

theorem Memory.read_lt (m : Memory) (a n : Nat) : Memory.read m a n < 256 ^ n := by
  induction n generalizing a with
  | zero => simp [Memory.read]
  | succ n ih =>
    have h1 := ih (a + 1)
    have h2 := (Memory.readByte m a).isLt
    rw [Memory.read, pow_succ']
    omega

/-- Reading back what was written: the low 8n bits. -/
theorem Memory.read_write (m : Memory) (a n v : Nat) : Memory.read (Memory.write m a n v) a n = v % 256 ^ n := by
  have key : ∀ k, k ≤ n → Memory.read (Memory.write m a n v) (a + (n - k)) k = v / 256 ^ (n - k) % 256 ^ k := by
    intro k hk
    induction k with
    | zero => simp [Memory.read, Nat.mod_one]
    | succ k ih =>
      have h1 : a + (n - (k + 1)) + 1 = a + (n - k) := by omega
      have h2 : n - k = n - (k + 1) + 1 := by omega
      have h3 : a + (n - (k + 1)) - a = n - (k + 1) := by omega
      have hb : Memory.readByte (Memory.write m a n v) (a + (n - (k + 1))) =
          BitVec.ofNat 8 (v / 256 ^ (n - (k + 1)) % 256) := by
        rw [Memory.readByte_write, if_pos (by omega), h3]
      rw [Memory.read, h1, ih (by omega), h2, hb]
      rw [BitVec.toNat_ofNat, show (2 : Nat) ^ 8 = 256 from rfl, Nat.mod_mod, pow_succ 256 (n - (k + 1)),
        ← Nat.div_div_eq_div_mul, pow_succ' 256 k, Nat.mod_mul]
  have := key n (Nat.le_refl n)
  simpa using this

/-! ### A command's writes -/

theorem Memory.writeAll_nil (m : Memory) (n : Nat) : Memory.writeAll m n [] = m := rfl

theorem Memory.writeAll_cons (m : Memory) (n : Nat) (x : Nat × Nat) (l : List (Nat × Nat)) :
    Memory.writeAll m n (x :: l) = Memory.writeAll (Memory.write m x.1 n x.2) n l := rfl

theorem Memory.writeAll_append (m : Memory) (n : Nat) (l l' : List (Nat × Nat)) :
    Memory.writeAll m n (l ++ l') = Memory.writeAll (Memory.writeAll m n l) n l' := List.foldl_append

/-- A list of writes leaves every byte outside all their ranges alone. -/
theorem Memory.readByte_writeAll_outside (m : Memory) (n b : Nat) (l : List (Nat × Nat))
    (h : ∀ x ∈ l, b < x.1 ∨ x.1 + n ≤ b) : Memory.readByte (Memory.writeAll m n l) b = Memory.readByte m b := by
  induction l generalizing m with
  | nil => rfl
  | cons x l ih =>
    rw [Memory.writeAll_cons, ih _ fun y hy => h y (List.mem_cons_of_mem _ hy),
      Memory.readByte_write_outside _ _ (h x List.mem_cons_self)]

/-- The value of a write that no later write of the list overlaps. -/
theorem Memory.read_writeAll (m : Memory) (n : Nat) (l l' : List (Nat × Nat)) (x : Nat × Nat)
    (h : ∀ y ∈ l', x.1 + n ≤ y.1 ∨ y.1 + n ≤ x.1) :
    Memory.read (Memory.writeAll m n (l ++ x :: l')) x.1 n = x.2 % 256 ^ n := by
  rw [Memory.writeAll_append, Memory.writeAll_cons,
    Memory.read_congr _ (Memory.write (Memory.writeAll m n l) x.1 n x.2), Memory.read_write]
  intro b h1 h2
  refine Memory.readByte_writeAll_outside _ _ _ _ fun y hy => ?_
  have := h y hy
  omega

/-! ### The canonical form -/

theorem Memory.rising_cons (a : Nat) (v : Byte) (t : Memory) :
    Memory.rising ((a, v) :: t) = true ↔ (∀ c ∈ t.head?, a < c.1) ∧ Memory.rising t = true := by
  cases t with
  | nil => simp [Memory.rising]
  | cons c t => obtain ⟨b, u⟩ := c; simp [Memory.rising]

theorem Memory.head_put (m : Memory) (a : Nat) (v : Byte) :
    ∀ c ∈ (Memory.put m a v).head?, c.1 = a ∨ ∃ d ∈ m.head?, c.1 = d.1 := by
  cases m with
  | nil => simp [Memory.put]
  | cons c t =>
    obtain ⟨k, u⟩ := c
    simp only [Memory.put]
    split
    · simp
    · split <;> simp

theorem Memory.rising_put (m : Memory) (a : Nat) (v : Byte) (h : Memory.rising m = true) :
    Memory.rising (Memory.put m a v) = true := by
  induction m with
  | nil => simp [Memory.put, Memory.rising]
  | cons c t ih =>
    obtain ⟨k, u⟩ := c
    have hr := (Memory.rising_cons k u t).1 h
    simp only [Memory.put]
    split
    · rw [Memory.rising_cons]; exact ⟨by simpa, h⟩
    · split
      · rename_i h2
        subst h2
        rw [Memory.rising_cons]; exact hr
      · rw [Memory.rising_cons]
        refine ⟨fun c hc => ?_, ih hr.2⟩
        rcases Memory.head_put t a v c hc with h1 | ⟨d, hd, h1⟩
        · omega
        · have := hr.1 d hd; omega

theorem Memory.mem_put {m : Memory} {a : Nat} {v : Byte} {c : Host.Cell} (h : c ∈ Memory.put m a v) : c.1 = a ∨ c ∈ m := by
  induction m with
  | nil => simp [Memory.put] at h; simp [h]
  | cons d t ih =>
    obtain ⟨k, u⟩ := d
    simp only [Memory.put] at h
    split at h
    · rcases List.mem_cons.1 h with h | h
      · exact .inl (by rw [h])
      · exact .inr h
    · split at h
      · rcases List.mem_cons.1 h with h | h
        · exact .inl (by rw [h])
        · exact .inr (List.mem_cons_of_mem _ h)
      · rcases List.mem_cons.1 h with h | h
        · exact .inr (by rw [h]; exact List.mem_cons_self)
        · exact (ih h).imp id (List.mem_cons_of_mem _)

theorem Memory.wf_iff (m : Memory) : Memory.wf m = true ↔ Memory.rising m = true ∧ ∀ c ∈ m, c.1 < 2 ^ 32 := by
  simp [Memory.wf]

theorem Memory.wf_put {m : Memory} {a : Nat} (v : Byte) (h : Memory.wf m = true) (ha : a < 2 ^ 32) :
    Memory.wf (Memory.put m a v) = true := by
  rw [Memory.wf_iff] at h ⊢
  refine ⟨Memory.rising_put m a v h.1, fun c hc => ?_⟩
  rcases Memory.mem_put hc with h1 | h1
  · omega
  · exact h.2 c h1

theorem Memory.wf_write {m : Memory} {a n : Nat} (v : Nat) (h : Memory.wf m = true) (ha : a + n ≤ 2 ^ 32) :
    Memory.wf (Memory.write m a n v) = true := by
  induction n generalizing m a v with
  | zero => exact h
  | succ n ih => exact ih _ (Memory.wf_put _ h (by omega)) (by omega)

theorem Memory.wf_writeAll {m : Memory} {n : Nat} {l : List (Nat × Nat)} (h : Memory.wf m = true)
    (hl : ∀ x ∈ l, x.1 + n ≤ 2 ^ 32) : Memory.wf (Memory.writeAll m n l) = true := by
  induction l generalizing m with
  | nil => exact h
  | cons x l ih =>
    exact ih (Memory.wf_write _ h (hl x List.mem_cons_self)) fun y hy => hl y (List.mem_cons_of_mem _ hy)

theorem Memory.wf_nil : Memory.wf [] = true := rfl

end Sys2Proof.Machine
end

