-- ==== Sys2Proof/Laws/PerInstr.lean ====
section
/-! SUPPORT. Per-instruction family EncodeFields: the fields of a command's word (30_encoding.md R100, R102): the reserved
bits are 0, OPC is one of the twelve opcodes, PLANE is never 3. -/

namespace Sys2Proof.Laws.EncodeFields

open Sys2Proof

/-- The word of i has its reserved bits 0, an assigned opcode, and no plane 3. -/
def Statement (i : Instr) : Prop := cmdRsvd (encode i) = 0 ∧ cmdOpc (encode i) < 0x0C ∧ cmdPlane (encode i) < 3

theorem nop : Statement .nop := by unfold Statement; decide
theorem resid (p : Plane) : Statement (.resid p) := by unfold Statement; cases p <;> decide
theorem ftx (p : Plane) : Statement (.ftx p) := by unfold Statement; cases p <;> decide
theorem quant (p : Plane) : Statement (.quant p) := by unfold Statement; cases p <;> decide
theorem itx (p : Plane) : Statement (.itx p) := by unfold Statement; cases p <;> decide
theorem recon (p : Plane) (skip : Bool) : Statement (.recon p skip) := by
  unfold Statement; cases p <;> cases skip <;> decide
theorem txflag (p : Plane) : Statement (.txflag p) := by unfold Statement; cases p <;> decide
theorem stcoef (p : Plane) (dequant : Bool) : Statement (.stcoef p dequant) := by
  unfold Statement; cases p <;> cases dequant <;> decide
theorem cflAc (fromPred : Bool) : Statement (.cflAc fromPred) := by unfold Statement; cases fromPred <;> decide
theorem cflPred (p : Plane) : Statement (.cflPred p) := by unfold Statement; cases p <;> decide
theorem dqp (toQidx : Bool) : Statement (.dqp toQidx) := by unfold Statement; cases toQidx <;> decide
theorem tuClr : Statement .tuClr := by unfold Statement; decide

end Sys2Proof.Laws.EncodeFields
end

