-- ==== Sys2Proof/Laws/Step.lean ====
section
/-! SUPPORT. What one step can do: the cases of a command's issue, of a host event and of a step, the shape of the errors a
command raises, and what every step keeps. -/

namespace Sys2Proof.Machine

/-! ### Errors of a command -/

/-- Sequencing of checks: the error is that of the first part that fails. -/
theorem bind_eq_error {ε α β : Type} (x : Except ε α) (f : α → Except ε β) (e : ε) :
    (x >>= f) = .error e ↔ x = .error e ∨ ∃ a, x = .ok a ∧ f a = .error e := by
  cases x <;> simp

theorem require_eq_error {b : Bool} {c : ErrCode} {e : CmdError} :
    require b c = .error e ↔ b = false ∧ e = ⟨c, none⟩ := by
  cases b <;> simp [require, eq_comm]

theorem decoded_eq_error {α : Type} {o : Option α} {c : ErrCode} {e : CmdError} :
    decoded o c = .error e ↔ o = none ∧ e = ⟨c, none⟩ := by
  cases o <;> simp [decoded, eq_comm]

theorem checkAlign_eq_error {as : List Access} {e : CmdError} (h : checkAlign as = .error e) :
    ∃ a, FirstBad as isAligned a ∧ e = ⟨.align, some a.addr⟩ := by
  unfold checkAlign at h
  split at h
  · rename_i a ha; cases h; exact ⟨a, (find_not_eq_some _ _ _).1 ha, rfl⟩
  · cases h

theorem State.checkBus_eq_error {s : State} {as : List Access} {e : CmdError} (h : s.checkBus as = .error e) :
    ∃ a, FirstBad as s.admits a ∧ e = ⟨.bus, some a.addr⟩ := by
  unfold State.checkBus at h
  split at h
  · rename_i a ha; cases h; exact ⟨a, (find_not_eq_some _ _ _).1 ha, rfl⟩
  · cases h

theorem State.checkSamples_eq_error {s : State} {bd : BitDepth} {as : List Nat} {e : CmdError}
    (h : s.checkSamples bd as = .error e) : ∃ a, e = ⟨.range, some a⟩ := by
  unfold State.checkSamples at h
  split at h
  · rename_i a ha; cases h; exact ⟨a, rfl⟩
  · cases h

/-- An error names an address for ALIGN and BUS always, for RANGE sometimes, and for no other code (60_exceptions.md R271). -/
def ErrAddrOk (e : CmdError) : Prop :=
  (e.code = .align ∨ e.code = .bus → e.addr.isSome = true) ∧
  (e.addr.isSome = true → e.code = .align ∨ e.code = .bus ∨ e.code = .range)

theorem addrOk_of_none {c : ErrCode} (h1 : c ≠ .align) (h2 : c ≠ .bus) : ErrAddrOk ⟨c, none⟩ :=
  ⟨fun h => (h.elim h1 h2).elim, nofun⟩

theorem State.checkAccesses_addrOk {s : State} {as : List Access} {e : CmdError} (h : s.checkAccesses as = .error e) :
    ErrAddrOk e := by
  rw [State.checkAccesses, bind_eq_error] at h
  rcases h with h | ⟨_, _, h⟩
  · obtain ⟨a, _, rfl⟩ := checkAlign_eq_error h; exact ⟨fun _ => rfl, fun _ => .inl rfl⟩
  · obtain ⟨a, _, rfl⟩ := State.checkBus_eq_error h; exact ⟨fun _ => rfl, fun _ => .inr (.inl rfl)⟩

theorem State.checkSamples_addrOk {s : State} {bd : BitDepth} {as : List Nat} {e : CmdError}
    (h : s.checkSamples bd as = .error e) : ErrAddrOk e := by
  obtain ⟨a, rfl⟩ := State.checkSamples_eq_error h; exact ⟨nofun, fun _ => .inr (.inr rfl)⟩

theorem decoded_addrOk {α : Type} {o : Option α} {c : ErrCode} {e : CmdError} (h1 : c ≠ .align) (h2 : c ≠ .bus)
    (h : decoded o c = .error e) : ErrAddrOk e := by
  obtain ⟨_, rfl⟩ := decoded_eq_error.1 h; exact addrOk_of_none h1 h2

theorem require_addrOk {b : Bool} {c : ErrCode} {e : CmdError} (h1 : c ≠ .align) (h2 : c ≠ .bus)
    (h : require b c = .error e) : ErrAddrOk e := by
  obtain ⟨_, rfl⟩ := require_eq_error.1 h; exact addrOk_of_none h1 h2

/-- A sequence of checks raises only errors of the right shape if each of them does. -/
theorem bind_addrOk {α β : Type} {x : Except CmdError α} {f : α → Except CmdError β} {e : CmdError}
    (hx : x = .error e → ErrAddrOk e) (hf : ∀ a, f a = .error e → ErrAddrOk e) (h : (x >>= f) = .error e) : ErrAddrOk e := by
  rcases (bind_eq_error _ _ _).1 h with h | ⟨a, _, h⟩
  · exact hx h
  · exact hf a h

/-- Every error of every command names an address exactly where R271 says. -/
theorem effect_addrOk {i : Instr} {s : State} {e : CmdError} (h : effect i s = .error e) : ErrAddrOk e := by
  cases i <;> simp only [effect] at h <;> try cases h
  all_goals
    revert h
    first
    | unfold resid | unfold ftx | unfold quant | unfold itx | unfold recon | unfold txflag | unfold stcoef | unfold cflAc
    | unfold cflPred | unfold dqp
    repeat' (first
      | (intro h; cases h)
      | exact decoded_addrOk nofun nofun
      | exact require_addrOk nofun nofun
      | exact State.checkAccesses_addrOk
      | exact State.checkSamples_addrOk
      | refine bind_addrOk ?_ fun _ => ?_)

/-! ### What a command keeps -/

/-- No command touches the host's sequence or the admission map, and a command that raises no error leaves the error
registers alone. -/
theorem effect_keeps {i : Instr} {s t : State} (h : effect i s = .ok t) :
    t.port = s.port ∧ t.admission = s.admission ∧ t.err = s.err := by
  cases i <;> simp only [effect] at h
  case nop => cases h; exact ⟨rfl, rfl, rfl⟩
  case tuClr => cases h; exact ⟨rfl, rfl, rfl⟩
  case resid p => obtain ⟨_, _, _, _, _, _, _, rfl⟩ := resid_ok.1 h; exact ⟨rfl, rfl, rfl⟩
  case ftx p => obtain ⟨_, _, _, _, _, _, _, _, rfl⟩ := ftx_ok.1 h; exact ⟨rfl, rfl, rfl⟩
  case quant p => obtain ⟨_, _, _, _, _, _, _, rfl⟩ := quant_ok.1 h; exact ⟨rfl, rfl, rfl⟩
  case itx p => obtain ⟨_, _, _, _, _, _, _, _, rfl⟩ := itx_ok.1 h; exact ⟨rfl, rfl, rfl⟩
  case recon p f => obtain ⟨_, _, _, _, _, _, _, _, rfl⟩ := recon_ok.1 h; exact ⟨rfl, rfl, rfl⟩
  case txflag p => obtain ⟨_, _, _, rfl⟩ := txflag_ok.1 h; exact ⟨rfl, rfl, rfl⟩
  case stcoef p f => obtain ⟨_, _, _, _, _, _, _, rfl⟩ := stcoef_ok.1 h; exact ⟨rfl, rfl, rfl⟩
  case cflAc f => obtain ⟨_, _, _, _, _, _, _, _, _, _, _, _, rfl⟩ := cflAc_ok.1 h; exact ⟨rfl, rfl, rfl⟩
  case cflPred p => obtain ⟨_, _, _, _, _, _, _, _, _, _, _, _, rfl⟩ := cflPred_ok.1 h; exact ⟨rfl, rfl, rfl⟩
  case dqp f => obtain ⟨_, _, _, _, rfl⟩ := dqp_ok.1 h; exact ⟨rfl, rfl, rfl⟩

/-- No register write touches memory, the admission map or the host's sequence. -/
theorem State.writeReg_keeps (s : State) (r : Reg) (v : Word) :
    (s.writeReg r v).mem = s.mem ∧ (s.writeReg r v).admission = s.admission ∧ (s.writeReg r v).port = s.port := by
  cases r <;> try exact ⟨rfl, rfl, rfl⟩
  case ctrl => simp only [State.writeReg, State.writeCtrl]; split <;> exact ⟨rfl, rfl, rfl⟩
  case status => simp only [State.writeReg, State.writeStatus]; split <;> exact ⟨rfl, rfl, rfl⟩
  case descOrg b p => cases b <;> exact ⟨rfl, rfl, rfl⟩

/-- Taking the next event changes the host's side alone. -/
theorem State.advance_eq (s : State) : s.advance = { s with port := s.advance.port } := by
  unfold State.advance; split <;> rfl

/-! ### The cases of one step -/

/-- Everything a CMD write can do (30_encoding.md R101): nothing while ERR = 1; else an error entry, whose error names an
address where R271 says; or the command's effect. -/
theorem issue_cases {w : Word} {s t : State} (h : issue w s = .next t) :
    (s.errFlag = true ∧ t = s) ∨
    (s.errFlag = false ∧ ∃ v e, t = s.errorEntry v e ∧ ErrAddrOk e) ∨
    (s.errFlag = false ∧ ∃ i, decode w = .ok i ∧ effect i s = .ok t) := by
  unfold issue at h
  split at h
  · rename_i hf; cases h; exact .inl ⟨hf, rfl⟩
  rename_i hf
  have hf : s.errFlag = false := by simpa using hf
  split at h
  · rename_i c hc
    cases h
    refine .inr (.inl ⟨hf, w, ⟨c, none⟩, rfl, addrOk_of_none ?_ ?_⟩) <;>
    · rintro rfl
      revert hc
      unfold decode
      split
      · exact nofun
      split
      · exact nofun
      unfold decodeOpc unusedPlane unusedFlag usedPlane usedChroma
      repeat' (first | (intro h; cases h) | split)
  · rename_i i hi
    rcases exec_cases h with ⟨e, he, rfl⟩ | h
    · exact .inr (.inl ⟨hf, _, e, rfl, effect_addrOk he⟩)
    · exact .inr (.inr ⟨hf, i, hi, h⟩)

/-- Everything an event can do. -/
theorem hostEvent_cases {e : HostEvent} {s t : State} (h : hostEvent e s = .next t) :
    t = s ∨ (∃ v, t = s.answer v) ∨
    (∃ n a v, a + n ≤ 2 ^ 32 ∧ t = { s with mem := Memory.write s.mem a n v }) ∨ t = s.engineReset ∨
    (∃ r v, r ≠ .cmd ∧ t = s.writeReg r v) ∨
    (s.errFlag = false ∧ ∃ v e, t = s.errorEntry v e ∧ ErrAddrOk e) ∨
    (s.errFlag = false ∧ ∃ i, effect i s = .ok t) := by
  cases e <;> simp only [hostEvent] at h
  · split at h
    · unfold portWrite at h
      split at h
      · cases h; exact .inl rfl
      · rcases issue_cases h with ⟨_, rfl⟩ | h | ⟨hf, i, _, h⟩
        · exact .inl rfl
        · exact .inr (.inr (.inr (.inr (.inr (.inl h)))))
        · exact .inr (.inr (.inr (.inr (.inr (.inr ⟨hf, i, h⟩)))))
      · rename_i r hr _
        cases h
        exact .inr (.inr (.inr (.inr (.inl ⟨r, _, hr, rfl⟩))))
    · cases h
  · split at h
    · cases h; exact .inr (.inl ⟨_, rfl⟩)
    · cases h
  · split at h
    · rename_i n a v hr; cases h; exact .inr (.inr (.inl ⟨n, a, v, hr, rfl⟩))
    · cases h
  · cases h; exact .inr (.inr (.inr (.inl rfl)))

/-- A property that taking an event and every event keep, every step keeps. -/
theorem step_keeps {I : State → Prop} (hadv : ∀ s, I s → I s.advance)
    (hev : ∀ e s t, I s → hostEvent e s = .next t → I t) {s t : State} (hs : I s) (h : step s = .next t) : I t := by
  change hostStep s = _ at h
  unfold hostStep at h
  split at h
  · cases h; exact hs
  · exact hev _ _ _ (hadv _ hs) h

end Sys2Proof.Machine
end

