-- ==== Sys2Proof/Tests/Slice0.lean ====
section
/-! SUPPORT. Tests: well-formedness, one word per opcode written out bit by bit, at most two steps per command with the
expected values of 95_test_vectors.md, and for every obligation with hypotheses a witness that meets them. -/

namespace Sys2Proof.Machine

/-! ### Well-formedness and decoding -/

/-- 30_encoding.md R102, V2.19: CFL_PRED has no plane 0; the check refuses that term alone. -/
theorem test_wf_cflPred :
    Instr.wf (.cflPred .y) = false ∧ Instr.wf (.cflPred .u) = true ∧ Instr.wf (.cflPred .v) = true := by decide

/-- One word per opcode, its fields written as reserved, FLAG, PLANE, OPC from R100 and R102. -/
theorem test_decode_words :
    decode 0b000000000000000000000_0_00_00000000 = .ok .nop ∧
    decode 0b000000000000000000000_0_01_00000001 = .ok (.resid .u) ∧
    decode 0b000000000000000000000_0_10_00000010 = .ok (.ftx .v) ∧
    decode 0b000000000000000000000_0_00_00000011 = .ok (.quant .y) ∧
    decode 0b000000000000000000000_0_10_00000100 = .ok (.itx .v) ∧
    decode 0b000000000000000000000_1_01_00000101 = .ok (.recon .u true) ∧
    decode 0b000000000000000000000_0_10_00000110 = .ok (.txflag .v) ∧
    decode 0b000000000000000000000_1_10_00000111 = .ok (.stcoef .v true) ∧
    decode 0b000000000000000000000_1_00_00001000 = .ok (.cflAc true) ∧
    decode 0b000000000000000000000_0_10_00001001 = .ok (.cflPred .v) ∧
    decode 0b000000000000000000000_1_00_00001010 = .ok (.dqp true) ∧
    decode 0b000000000000000000000_0_00_00001011 = .ok .tuClr := by decide

/-- V2.10 to V2.21: the words dispatch rejects, each by its name. -/
theorem test_decode_rejects :
    decode 0x0000000C = .error .badOpc ∧ decode 0xFFFFFFFF = .error .badOpc ∧ decode 0x00000800 = .error .rsvd ∧
    decode 0x00000100 = .error .rsvd ∧ decode 0x00000400 = .error .rsvd ∧ decode 0x00000401 = .error .rsvd ∧
    decode 0x00000108 = .error .rsvd ∧ decode 0x0000010A = .error .rsvd ∧ decode 0x00000301 = .error .badPlane ∧
    decode 0x00000009 = .error .badPlane ∧ decode 0x00000709 = .error .rsvd ∧ decode 0x00010005 = .error .rsvd := by
  decide

/-- R109: the text of RECON.F p1 is the word 0x0000_0505. -/
theorem test_assemble : assemble "RECON.F p1" = some (.recon .u true) ∧ encode (.recon .u true) = 0x00000505 := by decide

/-! ### Helpers -/

/-- The next state, or s itself where there is none. -/
def after (i : Instr) (s : State) : State :=
  match exec i s with
  | .next t => t
  | .fault _ => s
  | .refused _ => s

/-- The state after one host event. -/
def afterEvent (e : HostEvent) (s : State) : State :=
  match hostEvent e s with
  | .next t => t
  | .fault _ => s
  | .refused _ => s

/-- The platform that admits every access of 1, 2 or 4 bytes to the 2^32 bytes of external memory. -/
def admitAll : List AdmitRule :=
  [⟨0, 2 ^ 32, 1, .read⟩, ⟨0, 2 ^ 32, 2, .read⟩, ⟨0, 2 ^ 32, 4, .read⟩,
   ⟨0, 2 ^ 32, 1, .write⟩, ⟨0, 2 ^ 32, 2, .write⟩, ⟨0, 2 ^ 32, 4, .write⟩]

/-- The reset state on that platform. -/
def openReset : State := { State.reset with admission := admitAll }

/-- Cells that hold these bytes from address a on. -/
def cells (a : Nat) (l : List Nat) : Memory := (List.range l.length).map fun i => (a + i, BitVec.ofNat 8 (l.getD i 0))

/-- The n bytes at address a. -/
def dump (s : State) (a n : Nat) : List Nat := (List.range n).map fun i => (Memory.readByte s.mem (a + i)).toNat

/-- SRC, PRED and RECON at 0x10000, 0x20000 and 0x30000 on every plane, stride 4, coefficients at 0x40000. -/
def blockCfg : CfgRegs :=
  { CfgRegs.reset with
    descBase := ⟨PerPlane.all 0x10000, PerPlane.all 0x20000, PerPlane.all 0x30000⟩
    descStride := PerBuf.all (PerPlane.all 4)
    coefBase := PerPlane.all 0x40000 }

/-- The reset state with those descriptors and 16 equal bytes in SRC and in PRED. -/
def flat (src pred : Nat) : State :=
  { openReset with
    cfg := blockCfg
    mem := cells 0x10000 (List.replicate 16 src) ++ cells 0x20000 (List.replicate 16 pred) }

/-- The same with 32 bytes each: 16 samples of two bytes, low byte first, at bit depth 10. -/
def flat10 (srcLo srcHi predLo predHi : Nat) : State :=
  { openReset with
    cfg := { blockCfg with picCfg := 1 }
    mem := cells 0x10000 (List.replicate 16 [srcLo, srcHi]).flatten ++
      cells 0x20000 (List.replicate 16 [predLo, predHi]).flatten }

/-- A valid tag of the 4 by 4 block of plane Y at bit depth 8. -/
def tag4 : Tag := ⟨true, .y, .tx4x4, .b8⟩

/-- V3.50's quantizer: the step is 40 everywhere, SCAN is the identity. -/
def params40 : Params := { Params.example0 with qstep := fun _ _ _ => 40 }

theorem forBlock_of {h w : Nat} {P : Nat → Nat → Prop} (H : ∀ r, r < h → ∀ c, c < w → P r c) : ForBlock h w P :=
  fun r c hr hc => H r hr c hc

/-! ### One step per command -/

/-- V2.1: NOP through the host's CMD write advances the position and changes nothing else. -/
theorem test_nop : step (State.reset.withFetchWord 32 0) = .next { State.reset with port := ⟨[], 1, []⟩ } := rfl

/-- V4.4: source 100, prediction 98: RES is 2 everywhere. -/
theorem test_resid : (after (.resid .y) (flat 100 98)).scr.res = List.replicate 16 2 := by decide

/-- P5: an odd SRC base at 10 bits: ALIGN, with the address. -/
theorem test_resid_align :
    (after (.resid .y) { flat10 0 2 0 1 with
      cfg := { (flat10 0 2 0 1).cfg with descBase := ⟨PerPlane.all 0x10001, PerPlane.all 0x20000, PerPlane.all 0⟩ } }).err =
      ⟨0x00010905, 0x10001, 0x00000001⟩ := by decide

/-- V4.12 and R136: the coded region is the transform, and a size up to 32 has E3Q = 0. -/
theorem test_ftx :
    (match ftx Params.example0 .y
        { openReset with scr := { Scratch.reset with resTag := tag4, res := List.replicate 16 7 } } with
      | .ok t => (t.scr.coef == List.replicate 16 28 && t.rslt.e3qLo.y == 0 && t.scr.coefTag == tag4)
      | .error _ => false) = true := by decide

/-- V4.13: FTX p0 where RES is plane 1's: SEQ. -/
theorem test_ftx_seq :
    (after (.ftx .y) { openReset with scr := { Scratch.reset with resTag := ⟨true, .u, .tx4x4, .b8⟩ } }).err =
      ⟨0x00020801, 0, 0x00000002⟩ := by decide

/-- V3.50: QUANT at step 40. -/
theorem test_quant :
    (match quant params40 .y
        { openReset with
          cfg := { CfgRegs.reset with qidx := 100 }
          scr := { Scratch.reset with coefTag := tag4, coef := [100, -100, 26, 25] ++ List.replicate 12 0 } } with
      | .ok t => (t.scr.qcoef == [2, -2, 1] ++ List.replicate 13 0 && t.scr.dqcoef == [80, -80, 40] ++ List.replicate 13 0
          && t.rslt.eob.y == 3 && t.rslt.nz.y == 3 && t.rslt.qv.y)
      | .error _ => false) = true := by decide

/-- V3.51: QUANT p0 where COEF is plane 1's: SEQ. -/
theorem test_quant_seq :
    (after (.quant .y) { openReset with scr := { Scratch.reset with coefTag := ⟨true, .u, .tx4x4, .b8⟩ } }).err.status =
      0x00030801 := by decide

/-- R138 on an inverse that divides by 4. -/
theorem test_itx :
    (match itx Params.example0 .y
        { openReset with scr := { Scratch.reset with qcTag := tag4, dqcoef := [40, -8] ++ List.replicate 14 0 } } with
      | .ok t => (t.scr.ires == [10, -2] ++ List.replicate 14 0 && t.scr.iresTag == tag4)
      | .error _ => false) = true := by decide

/-- V4.17: pred 250 + 10 clips to 255; 250 - 251 clips to 0. -/
theorem test_recon :
    dump (after (.recon .y false) { flat 0 250 with
      scr := { Scratch.reset with iresTag := tag4, ires := [10, -251] ++ List.replicate 14 (-50) } }) 0x30000 3 =
      [255, 0, 200] := by decide

/-- V4.19 at 10 bits (P5): the skip form copies PRED, low byte first, with no valid IRES. -/
theorem test_recon_skip : dump (after (.recon .y true) (flat10 0 2 0 1)) 0x30000 4 = [0, 1, 0, 1] := by decide

/-- V5.1: inter luma with NZ = 0 forces all three types. -/
theorem test_txflag :
    (after (.txflag .y) { openReset with
      cfg := { CfgRegs.reset with tuCfg := 0x00129460 }
      rslt := { ResultRegs.reset with qv := PerPlane.all true } }).cfg.tuCfg = 0x00100000 := by decide

/-- V5.4: TXFLAG p1 forces TT_U alone. -/
theorem test_txflag_chroma :
    (after (.txflag .u) { openReset with
      cfg := { CfgRegs.reset with tuCfg := 0x00129460 }
      rslt := { ResultRegs.reset with qv := PerPlane.all true } }).cfg.tuCfg = 0x00128060 := by decide

/-- V5.10: QCOEF 2, -2 as little-endian words. -/
theorem test_stcoef :
    dump (after (.stcoef .y false) { flat 0 0 with
      scr := { Scratch.reset with qcTag := tag4, qcoef := [2, -2, 1], dqcoef := [80, -80, 40] } }) 0x40000 8 =
      [2, 0, 0, 0, 0xFE, 0xFF, 0xFF, 0xFF] := by decide

/-- V5.12: word 4 lies past 2^32: BUS with the address mod 2^32, and no byte is written. -/
theorem test_stcoef_bus :
    (fun t : State => (t.err, t.mem))
      (after (.stcoef .y false) { openReset with
        cfg := { CfgRegs.reset with coefBase := PerPlane.all 0xFFFFFFF0 }
        scr := { Scratch.reset with qcTag := tag4 } }) = (⟨0x00070A05, 0, 0x00000007⟩, []) := by decide

/-- Luma of V6.10: 8 rows of (100 x 4, 120 x 4) in RECON at 0x30000, and DC 128 in PRED U. -/
def cflState : State :=
  { openReset with
    cfg := { blockCfg with descStride := ⟨PerPlane.all 0, PerPlane.all 4, PerPlane.all 8⟩, cflAlpha := 0x510 }
    mem := cells 0x20000 (List.replicate 16 128) ++
      cells 0x30000 (List.replicate 8 [100, 100, 100, 100, 120, 120, 120, 120]).flatten }

/-- V6.10: the CFLAC row. -/
theorem test_cflAc :
    (after (.cflAc false) cflState).scr.cflac = (List.replicate 4 [-80, -80, 80, 80]).flatten := by decide

/-- V6.14: PMODE inter: BAD_CFL. -/
theorem test_cflAc_inter :
    (after (.cflAc false) { cflState with cfg := { cflState.cfg with tuCfg := 0x100000 } }).err.status = 0x00080C01 := by
  decide

/-- V6.20: U rows (125, 125, 131, 131). -/
theorem test_cflPred :
    dump (after (.cflPred .u) { cflState with
      scr := { Scratch.reset with cflacTag := tag4, cflac := (List.replicate 4 [-80, -80, 80, 80]).flatten } }) 0x20000 4 =
      [125, 125, 131, 131] := by decide

/-- The base configuration of 95_test_vectors.md section 7. -/
def dqpState : State :=
  { openReset with
    cfg := { CfgRegs.reset with
      picCfg := 0x150
      qpBounds := 0xFF00
      baseQp := 100
      dqpDist := 300
      dqpCtl := 1
      dqpMin := ⟨0, 100, 0, 0⟩
      dqpAvg := ⟨0, 200, 0, 0⟩
      dqpMax := ⟨0, 400, 0, 0⟩
      dqpWgt := ⟨0, 0x1E140C08, 0, 0⟩ } }

/-- V7.1, V7.34: DQP.F. -/
theorem test_dqp :
    (fun t : State => (t.rslt.dqpResult, t.cfg.qidx)) (after (.dqp true) dqpState) = (0x000C0070, 0x70) := by decide

/-- V7.13: anti-contouring replaces the stationary-edge step; FLAG = 0 leaves QIDX alone. -/
theorem test_dqp_acen :
    (fun t : State => (t.rslt.dqpResult, t.cfg.qidx)) (after (.dqp false) { dqpState with
      cfg := { dqpState.cfg with dqpCtl := 0x030031, dqpVar := 5, dqpActhr := 10 } }) = (0xFFFA005E, 0) := by decide

/-- V8.2: TU_CLR clears TU_STATUS, EOB and NZ. -/
theorem test_tuClr :
    (fun t : State => (t.readReg .tuStatus, t.rslt.eob.y, t.rslt.nz.y)) (after .tuClr { openReset with
      rslt := { ResultRegs.reset with eob := PerPlane.all 3, nz := PerPlane.all 3, hc := PerPlane.all true,
                                      qv := PerPlane.all true }
      scr := { Scratch.reset with resTag := tag4, qcTag := tag4 } }) = (0, 0, 0) := by decide

/-- R52: with HC_U, QV_V, V_RES and V_QC set, TU_STATUS reads bits 1, 3 (HC_ANY), 6, 8 and 10. -/
theorem test_tuStatus :
    ({ openReset with
      rslt := { ResultRegs.reset with hc := ⟨false, true, false⟩, qv := ⟨false, false, true⟩ }
      scr := { Scratch.reset with resTag := tag4, qcTag := tag4 } } : State).readReg .tuStatus = 0x54A := by decide

/-! ### The register port -/

/-- V8.8: reads of ID, CMD and unmapped offsets. -/
theorem test_reads :
    State.reset.readOffset 0x000 = 0x54580001 ∧ State.reset.readOffset 0x00C = 0 ∧ State.reset.readOffset 0x050 = 0 ∧
    State.reset.readOffset 0x10C = 0 ∧ State.reset.readOffset 0x19C = 0 := by decide

/-- V8.9: the reserved bits of DESC_STRIDE[0][0] are dropped. -/
theorem test_write_reserved :
    (afterEvent (.regWrite 32 0x104 0xFFFF0040) State.reset).readOffset 0x104 = 0x00000040 := by decide

/-- V8.7: CTRL = 3 is a soft reset that does not keep IRQ_EN. -/
theorem test_soft_reset :
    (afterEvent (.regWrite 32 0x004 3) { openReset with cfg := { blockCfg with ctrl := 2 } }).cfg = CfgRegs.reset := by
  decide

/-! ### Witnesses: hypotheses of the obligations, met together -/

/-- An engine with a pending error. -/
def failedState : State := { openReset with err := ⟨0x00030801, 0, 0x00000003⟩ }

theorem test_witness_ResetReadsZero : Reg.ctrl ≠ .id ∧ Reg.tuStatus ≠ .id := by decide

theorem test_witness_DispatchErrorsInOrder :
    decode 0x0000000B = .ok .tuClr ∧ decode 0x0000080C = .error .badOpc ∧ decode 0x0000030B = .error .rsvd ∧
    decode 0x00000705 = .error .badPlane := by decide

theorem test_witness_CtrlWriteResetsOrStoresIrqEn : bits 0x00000003 0 0 = 1 ∧ bits 0x00000002 0 0 = 0 := by decide

theorem test_witness_StepRunsDecodedCommand :
    (State.reset.withCommand 0x00000105).port.pending = [.regWrite 32 0x00C 0x00000105] ∧
    (State.reset.withCommand 0x00000105).errFlag = false ∧ decode 0x00000105 = .ok (.recon .u false) := by decide

theorem test_witness_StepRecordsDispatchError :
    (State.reset.withCommand 0x0000000C).port.pending = [.regWrite 32 0x00C 0x0000000C] ∧
    (State.reset.withCommand 0x0000000C).errFlag = false ∧ decode 0x0000000C = .error .badOpc := by decide

theorem test_witness_CommandsDroppedWhileError :
    (failedState.withCommand 0x00000001).port.pending = [.regWrite 32 0x00C 0x00000001] ∧
    (failedState.withCommand 0x00000001).errFlag = true ∧ failedState.errFlag = true ∧ Reg.tuCfg ≠ .cmd ∧
    Reg.tuCfg ≠ .status ∧ Reg.tuCfg ≠ .ctrl := by decide

theorem test_witness_NopChangesNothing : bits 0x00000100 7 0 = 0 ∧ (0x00000100 : Word) ≠ 0 ∧ decode 0x00000100 = .error .rsvd := by
  decide

theorem test_witness_IdleWithoutAccess : State.reset.port.pending = [] := rfl

/-- A register write, which counts; a memory write, which does not. -/
theorem test_witness_PositionAdvancesByOne :
    ((State.reset.withCommand 0).port.pending = [.regWrite 32 0x00C 0] ∧
      (∃ width off v, HostEvent.regWrite 32 0x00C 0 = .regWrite width off v) ∧
      step (State.reset.withCommand 0) = .next { State.reset with port := ⟨[], 1, []⟩ }) ∧
    (fun s : State => s.port.pending = [.memWrite 1 7 9] ∧ (∃ n a v, HostEvent.memWrite 1 7 9 = .memWrite n a v) ∧
      step s = .next { State.reset with mem := [(7, 9)], port := ⟨[], 5, []⟩ })
      { State.reset with port := ⟨[.memWrite 1 7 9], 5, []⟩ } :=
  ⟨⟨rfl, ⟨_, _, _, rfl⟩, rfl⟩, rfl, ⟨_, _, _, rfl⟩, rfl⟩

theorem test_witness_MisshapenAccessRefused : (16 ≠ 32 ∨ (0x008 : BitVec 12).toNat % 4 ≠ 0) ∧
    (32 ≠ 32 ∨ (0x002 : BitVec 12).toNat % 4 ≠ 0) := by decide

theorem test_witness_RegisterMapRoundTrip :
    Reg.ofOffset 0x000 = some .id ∧ Reg.ofOffset 0x188 = some (.descOrg .recon .v) ∧ Reg.ofOffset 0x1D0 = some .tuStatus := by
  decide

theorem test_witness_UnmappedReadsZero :
    ∀ off ∈ [(0x050 : BitVec 12), 0x10C, 0x1D4, 0xFFC], off.toNat % 4 = 0 ∧ ∀ r : Reg, r.offset ≠ off.toNat := by
  intro off h
  have hr : ∀ r : Reg, r ∈ Reg.all := fun r => by
    cases r <;> first
    | decide
    | (rename_i x; cases x <;> decide)
    | (rename_i b p; cases b <;> cases p <;> decide)
  have key : ∀ off ∈ [(0x050 : BitVec 12), 0x10C, 0x1D4, 0xFFC],
      off.toNat % 4 = 0 ∧ ∀ r ∈ Reg.all, r.offset ≠ off.toNat := by decide
  exact ⟨(key off h).1, fun r => (key off h).2 r (hr r)⟩

theorem test_witness_ConfigWriteOnlyStores :
    Reg.picCfg ∈ storingRegs ∧ Reg.dqpWgt .d3 ∈ storingRegs ∧ Reg.descOrg .recon .v ∈ storingRegs ∧
    Reg.coefBase .v ∈ storingRegs := by decide

theorem test_witness_ReadOnlyIgnoresWrites :
    ∀ r ∈ [Reg.id, .eob .y, .tuStatus, .descOrg .pred .v], r ∉ storingRegs ∧ r ≠ .ctrl ∧ r ≠ .status ∧ r ≠ .cmd := by decide

theorem test_witness_StatusWriteClearsError : bits 0x00000001 0 0 = 1 ∧ bits 0xFFFFFFFE 0 0 = 0 := by decide

theorem test_witness_ErrorsArePrecise :
    State.reset.errFlag = false ∧ (after (.ftx .y) State.reset).errFlag = true ∧
    (after .tuClr State.reset).errFlag = false := by decide

theorem test_witness_FirstErrorKeptUntilCleared :
    (failedState.withCommand 1).errFlag = true ∧
    step (failedState.withCommand 1) = .next { failedState with port := ⟨[], 1, []⟩ } := ⟨by decide, rfl⟩

/-- Reset with a value in PIC_CFG and one in TU_CFG. -/
def withModes (pic tu : Word) : State := { openReset with cfg := { CfgRegs.reset with picCfg := pic, tuCfg := tu } }

/-- BD = 3; TXSZ = 19; IDTX at TX_64X64, and TT = 17; no RES. -/
theorem test_witness_TransformChecksInOrder :
    (withModes 3 0).bitDepth = none ∧
    ((withModes 0 19).bitDepth = some .b8 ∧ (withModes 0 19).txSize = none) ∧
    ((withModes 0 0x124).txSize = some .tx64x64 ∧ (withModes 0 0x124).txType .y .tx64x64 = none) ∧
    ((withModes 0 0x220).txSize = some .tx4x4 ∧ (withModes 0 0x220).txType .y .tx4x4 = none) ∧
    ((withModes 0 0).txType .y .tx4x4 = some .dctDct ∧ State.reset.scr.resTag.accepts .y .tx4x4 .b8 = false) := by decide

/-- A transform whose every output is 2^31. -/
def hugeParams : Params :=
  { Params.example0 with fwdTx := fun _ _ _ _ _ _ => 2 ^ 30, invTx := fun _ _ _ _ _ _ => -2 ^ 31 }

theorem test_witness_TransformRangeErrors :
    (fun s : State => s.bitDepth = some .b8 ∧ s.txSize = some .tx4x4 ∧ s.txType .y .tx4x4 = some .dctDct ∧
      (s.scr.resTag.accepts .y .tx4x4 .b8 = true ∧
        ∃ r c, r < TxSize.codedHeight .tx4x4 ∧ c < TxSize.codedWidth .tx4x4 ∧
          2 ^ 30 ≤ |hugeParams.fwdTx .tx4x4 .dctDct .b8 s.scr.res r c|) ∧
      s.scr.qcTag.accepts .y .tx4x4 .b8 = true ∧
        ∃ r c, r < TxSize.height .tx4x4 ∧ c < TxSize.width .tx4x4 ∧
          2 ^ 31 ≤ |hugeParams.invTx .tx4x4 .dctDct .b8 s.scr.dqcoef r c|)
      { openReset with scr := { Scratch.reset with resTag := tag4, qcTag := tag4 } } :=
  ⟨by decide, by decide, by decide, ⟨by decide, 3, 3, by decide, by decide, by decide⟩, by decide, 3, 3, by decide, by decide,
    by decide⟩

theorem test_witness_MemoryCommandChecksInOrder :
    Instr.recon .y false ∈ [Instr.resid .y, .recon .y false, .stcoef .y false] ∧
    (withModes 3 0).bitDepth = none ∧ (withModes 0 19).bitDepth = some .b8 ∧ (withModes 0 19).txSize = none ∧
    (withModes 0 0).txSize = some .tx4x4 ∧ State.reset.scr.iresTag.accepts .y .tx4x4 .b8 = false ∧
    State.reset.scr.qcTag.accepts .y .tx4x4 .b8 = false := by decide

/-- BD = 3; CFMT = 3; TXSZ = 31; PMODE = 2; inter; 64 wide; no CFLAC. -/
theorem test_witness_CflChecksInOrder :
    Instr.cflAc true ∈ [Instr.cflAc false, .cflAc true, .cflPred .u, .cflPred .v] ∧
    (withModes 3 0).bitDepth = none ∧ (withModes 12 0).chromaFormat = none ∧
    ((withModes 0 31).bitDepth = some .b8 ∧ (withModes 0 31).chromaFormat ≠ none ∧ (withModes 0 31).txSize = none) ∧
    ((withModes 0 0x200000).txSize = some .tx4x4 ∧ (withModes 0 0x200000).predMode = none) ∧
    (withModes 0 0x100000).predMode = some .inter ∧
    ((withModes 0 17).txSize = some .tx16x64 ∧ 32 < TxSize.height .tx16x64) ∧
    ((withModes 0 3).txSize = some .tx32x32 ∧ (withModes 0 3).predMode = some .intra ∧ TxSize.width .tx32x32 ≤ 32 ∧
      TxSize.height .tx32x32 ≤ 32 ∧ State.reset.scr.cflacTag.accepts .y .tx32x32 .b8 = false) := by decide

/-- RESID at 10 bits with an odd SRC base: the first access is misaligned. -/
theorem test_witness_AddressErrorsInOrder_align :
    (fun s : State => ∃ accesses, MemoryAccesses (.resid .y) s .b10 accesses ∧
      FirstBad accesses (fun x => x.addr % x.width == 0) ⟨0x10001, 2, .read⟩)
      { flat10 0 2 0 1 with
        cfg := { (flat10 0 2 0 1).cfg with
          descBase := ⟨PerPlane.all 0x10001, PerPlane.all 0x20000, PerPlane.all 0⟩ } } :=
  ⟨_, ⟨.tx4x4, rfl, rfl, rfl⟩, [], _, rfl, by decide, by decide⟩

/-- STCOEF at 0xFFFF_FFF0: words 0 to 3 fit, word 4 does not. -/
theorem test_witness_AddressErrorsInOrder_bus :
    (fun s : State => ∃ accesses, MemoryAccesses (.stcoef .y false) s .b8 accesses ∧
      AllOk accesses (fun x => x.addr % x.width == 0) ∧
      FirstBad accesses (fun x => decide (x.addr + x.width ≤ 2 ^ 32) && s.memAdmit x) ⟨2 ^ 32, 4, .write⟩)
      { openReset with
        cfg := { CfgRegs.reset with coefBase := PerPlane.all 0xFFFFFFF0 }
        scr := { Scratch.reset with qcTag := tag4 } } :=
  ⟨_, ⟨.tx4x4, rfl, rfl, by decide, rfl⟩, by unfold AllOk; decide,
    (List.range 4).map fun k => ⟨0xFFFFFFF0 + 4 * k, 4, .write⟩, _, rfl, by decide, by decide⟩

/-- RECON.F at 10 bits with PRED samples of 1024: the first is out of range. -/
theorem test_witness_AddressErrorsInOrder_range :
    (fun s : State => ∃ accesses, MemoryAccesses (.recon .y true) s .b10 accesses ∧
      AllOk accesses (fun x => x.addr % x.width == 0) ∧
      AllOk accesses (fun x => decide (x.addr + x.width ≤ 2 ^ 32) && s.memAdmit x) ∧
      FirstBad (accesses.filter fun x => x.kind == .read) (fun x => decide (s.sample .b10 x.addr < 2 ^ BitDepth.bits .b10))
        ⟨0x20000, 2, .read⟩)
      (flat10 0 0 0 4) :=
  ⟨_, ⟨.tx4x4, rfl, rfl, .inl rfl, rfl⟩, by unfold AllOk; decide, by unfold AllOk; decide, [], _, rfl, by decide, by decide⟩

theorem test_witness_ControlChecksInOrder :
    (withModes 0 0x200000).predMode = none ∧
    (State.reset.predMode = some .intra ∧ State.reset.rslt.qv.get .y = false) ∧
    (withModes 0x60 0).qpMod = none ∧
    (fun s : State => s.qpMod = some .block ∧ s.dqpEn = true ∧ s.hiQp < s.minQp)
      { dqpState with cfg := { dqpState.cfg with qpBounds := 0x2832 } } ∧
    (fun s : State => s.qpMod = some .block ∧ s.dqpEn = true ∧ s.minQp ≤ s.hiQp ∧ s.depthFor .block = some .d1 ∧
      ¬ (s.dqpMin .d1 ≤ s.dqpAvg .d1 ∧ s.dqpAvg .d1 ≤ s.dqpMax .d1))
      { dqpState with cfg := { dqpState.cfg with dqpMin := ⟨0, 201, 0, 0⟩ } } := by decide

theorem test_witness_SampleAddressFormula : Buf.src ≠ .pred ∧ Buf.recon ≠ .pred := by decide

theorem test_witness_ResidWritesDifference :
    (fun s : State => s.bitDepth = some .b8 ∧ s.txSize = some .tx4x4 ∧
      ForBlock (TxSize.height .tx4x4) (TxSize.width .tx4x4) (fun r c =>
        SampleReadable s .b8 (s.srcAddr .y .b8 r c) ∧ SampleReadable s .b8 (s.predAddr .y .b8 r c))) (flat 255 0) :=
  ⟨by decide, by decide, forBlock_of (by unfold SampleReadable; decide)⟩

/-- RES = 0, whose coefficients are 0 by the contract (R133). -/
theorem test_witness_FtxWritesCoefficients :
    (fun s : State => s.bitDepth = some .b8 ∧ s.txSize = some .tx4x4 ∧ s.txType .y .tx4x4 = some .dctDct ∧
      s.scr.resTag = ⟨true, .y, .tx4x4, .b8⟩ ∧
      ForBlock (TxSize.codedHeight .tx4x4) (TxSize.codedWidth .tx4x4) (fun r c =>
        |Config.params.fwdTx .tx4x4 .dctDct .b8 s.scr.res r c| < 2 ^ 30))
      { openReset with scr := { Scratch.reset with resTag := tag4, res := List.replicate 16 0 } } :=
  ⟨by decide, by decide, by decide, rfl, fun r c hr hc => by
    have := (Config.contract.zero .tx4x4 .dctDct .b8 (by decide) r c hr hc).1
    exact lt_of_eq_of_lt (congrArg abs this) (by decide)⟩

theorem test_witness_QuantWritesBoth :
    (fun s : State => s.bitDepth = some .b8 ∧ s.txSize = some .tx4x4 ∧ s.txType .y .tx4x4 = some .dctDct ∧
      s.scr.coefTag = ⟨true, .y, .tx4x4, .b8⟩)
      { openReset with scr := { Scratch.reset with coefTag := tag4, coef := List.replicate 16 100 } } := by decide

/-- DQCOEF = 0, whose inverse is 0 by the contract (R133). -/
theorem test_witness_ItxWritesResidual :
    (fun s : State => s.bitDepth = some .b8 ∧ s.txSize = some .tx4x4 ∧ s.txType .y .tx4x4 = some .dctDct ∧
      s.scr.qcTag = ⟨true, .y, .tx4x4, .b8⟩ ∧
      ForBlock (TxSize.height .tx4x4) (TxSize.width .tx4x4) (fun r c =>
        |Config.params.invTx .tx4x4 .dctDct .b8 s.scr.dqcoef r c| < 2 ^ 31))
      { openReset with scr := { Scratch.reset with qcTag := tag4, dqcoef := List.replicate 16 0 } } :=
  ⟨by decide, by decide, by decide, rfl, fun r c hr hc => by
    have := (Config.contract.zero .tx4x4 .dctDct .b8 (by decide) r c hr hc).2
    exact lt_of_eq_of_lt (congrArg abs this) (by decide)⟩

/-- Both forms; and the last element, which no other overlaps. -/
theorem test_witness_ReconWritesSamples :
    (fun s : State => s.bitDepth = some .b8 ∧ s.txSize = some .tx4x4 ∧
      (false = true ∨ s.scr.iresTag = ⟨true, .y, .tx4x4, .b8⟩) ∧
      ForBlock (TxSize.height .tx4x4) (TxSize.width .tx4x4) (fun r c =>
        SampleReadable s .b8 (s.predAddr .y .b8 r c) ∧ SampleWritable s .b8 (s.reconAddr .y .b8 r c)) ∧
      ForBlock (TxSize.height .tx4x4) (TxSize.width .tx4x4) (fun r' c' => 0 * 4 + 0 < r' * 4 + c' →
        Apart (s.reconAddr .y .b8 0 0) (s.reconAddr .y .b8 r' c') 1) ∧
      ForBlock (TxSize.height .tx4x4) (TxSize.width .tx4x4) (fun r c => Outside (s.reconAddr .y .b8 r c) 1 0x2FFFF ∧
        Outside (s.reconAddr .y .b8 r c) 1 0x30010))
      { flat 0 250 with scr := { Scratch.reset with iresTag := tag4, ires := List.replicate 16 (-300) } } :=
  ⟨by decide, by decide, by decide, forBlock_of (by unfold SampleReadable SampleWritable; decide),
    forBlock_of (by unfold Apart; decide), forBlock_of (by unfold Outside; decide)⟩

/-- NZ[0] = 0 and NZ[1] = 1024, inter, QV set on every plane. -/
theorem test_witness_TxflagDerivesFlags :
    (fun s : State => s.predMode = some .inter ∧ s.rslt.qv.get .y = true ∧ bits (s.rslt.nz.get .y) 12 0 = 0 ∧
      s.rslt.qv.get .u = true ∧ bits (s.rslt.nz.get .u) 12 0 ≠ 0)
      { withModes 0 0x129460 with rslt := { ResultRegs.reset with qv := PerPlane.all true, nz := ⟨0, 1024, 0⟩ } } := by decide

/-- The last 64 bytes of memory. -/
theorem test_witness_StcoefStoresWords :
    (fun s : State => s.bitDepth = some .b8 ∧ s.txSize = some .tx4x4 ∧ s.scr.qcTag = ⟨true, .y, .tx4x4, .b8⟩ ∧
      (∀ i < TxSize.codedHeight .tx4x4 * TxSize.codedWidth .tx4x4, WordWritable s (s.coefAddr .y i)) ∧
      ∀ i < TxSize.codedHeight .tx4x4 * TxSize.codedWidth .tx4x4, Outside (s.coefAddr .y i) 4 0xFFFFFFBF)
      { openReset with
        cfg := { CfgRegs.reset with coefBase := PerPlane.all 0xFFFFFFC0 }
        scr := { Scratch.reset with qcTag := tag4, qcoef := List.replicate 16 (-1) } } :=
  ⟨by decide, by decide, by decide, by unfold WordWritable; decide, by unfold Outside; decide⟩

theorem test_witness_CflAcRemovesAverage :
    (fun s : State => s.bitDepth = some .b8 ∧ s.chromaFormat = some .f420 ∧ s.txSize = some .tx4x4 ∧
      s.predMode = some .intra ∧ TxSize.width .tx4x4 ≤ 32 ∧ TxSize.height .tx4x4 ≤ 32 ∧
      ForBlock (TxSize.height .tx4x4 * 2 ^ ChromaFormat.ssy .f420) (TxSize.width .tx4x4 * 2 ^ ChromaFormat.ssx .f420)
        (fun y x => SampleReadable s .b8 (s.lumaAddr false .b8 y x))) cflState :=
  ⟨by decide, by decide, by decide, by decide, by decide, by decide, forBlock_of (by unfold SampleReadable; decide)⟩

theorem test_witness_CflPredWritesSamples :
    (fun s : State => Plane.u ≠ .y ∧ s.bitDepth = some .b8 ∧ s.txSize = some .tx4x4 ∧ s.predMode = some .intra ∧
      TxSize.width .tx4x4 ≤ 32 ∧ TxSize.height .tx4x4 ≤ 32 ∧ s.scr.cflacTag = ⟨true, .y, .tx4x4, .b8⟩ ∧
      ForBlock (TxSize.height .tx4x4) (TxSize.width .tx4x4) (fun r c =>
        SampleReadable s .b8 (s.predAddr .u .b8 r c) ∧ SampleWritable s .b8 (s.predAddr .u .b8 r c)) ∧
      ForBlock (TxSize.height .tx4x4) (TxSize.width .tx4x4) (fun r' c' => 0 * 4 + 0 < r' * 4 + c' →
        Apart (s.predAddr .u .b8 0 0) (s.predAddr .u .b8 r' c') 1) ∧
      ForBlock (TxSize.height .tx4x4) (TxSize.width .tx4x4) (fun r c => Outside (s.predAddr .u .b8 r c) 1 0x20010))
      { cflState with scr := { Scratch.reset with cflacTag := tag4, cflac := List.replicate 16 0 } } :=
  ⟨by decide, by decide, by decide, by decide, by decide, by decide, by decide,
    forBlock_of (by unfold SampleReadable SampleWritable; decide), forBlock_of (by unfold Apart; decide),
    forBlock_of (by unfold Outside; decide)⟩

/-- Enabled at block level with buckets in order, and disabled with bounds out of order (V7.19). -/
theorem test_witness_DqpWritesResult :
    (dqpState.qpMod = some .block ∧ dqpState.dqpEn = true ∧ dqpState.minQp ≤ dqpState.hiQp ∧
      ∀ d, dqpState.depthFor .block = some d →
        dqpState.dqpMin d ≤ dqpState.dqpAvg d ∧ dqpState.dqpAvg d ≤ dqpState.dqpMax d) ∧
    (fun s : State => s.qpMod = some .block ∧ s.dqpEn = false ∧ s.hiQp < s.minQp)
      { dqpState with cfg := { dqpState.cfg with picCfg := 0x140, qpBounds := 0x2832 } } :=
  ⟨⟨by decide, by decide, by decide, fun d _ => by cases d <;> decide⟩, by decide⟩

theorem test_witness_CommandsKeepConfiguration :
    exec (.resid .y) (flat 1 1) = .next (after (.resid .y) (flat 1 1)) ∧ (∀ p, Instr.resid .y ≠ .txflag p) ∧
    Instr.resid .y ≠ .dqp true := ⟨rfl, nofun, nofun⟩

theorem test_witness_OnlyStoresWriteMemory :
    exec (.quant .v) State.reset = .next (after (.quant .v) State.reset) ∧ (∀ p f, Instr.quant .v ≠ .recon p f) ∧
    (∀ p f, Instr.quant .v ≠ .stcoef p f) ∧ ∀ p, Instr.quant .v ≠ .cflPred p := ⟨rfl, nofun, nofun, nofun⟩

theorem test_witness_ResultRegistersHaveOneWriter :
    exec (.itx .u) State.reset = .next (after (.itx .u) State.reset) ∧ Instr.itx .u ≠ .tuClr ∧
    (∀ f, Instr.itx .u ≠ .dqp f) ∧ Instr.itx .u ≠ .txflag .u ∧ Instr.itx .u ≠ .quant .u ∧ Instr.itx .u ≠ .ftx .u ∧
    Instr.itx .u ≠ .resid .u := ⟨rfl, nofun, nofun, nofun, nofun, nofun, nofun⟩

theorem test_witness_InvalidScratchUnobservable :
    (fun s s' : State => SameButInvalidScratch s s' ∧ s ≠ s' ∧ step s = .next s)
      { openReset with scr := { Scratch.reset with resTag := tag4, res := List.replicate 16 1, coef := [1, 2, 3] } }
      { openReset with scr := { Scratch.reset with resTag := tag4, res := List.replicate 16 1, coef := [4] } } := by
  refine ⟨⟨rfl, ?_⟩, by decide, rfl⟩
  unfold SameTag SameBuffer
  decide

theorem test_witness_EnginesShareOnlyMemory :
    (fun pl : Platform => pl.stepEngine 1 = .next { pl with mem := [(7, 9)], engines := [State.reset.park,
        { State.reset.park with port := ⟨[], 0, []⟩ }] } ∧ 0 ≠ 1)
      ⟨[State.reset.park, { State.reset.park with port := ⟨[.memWrite 1 7 9], 0, []⟩ }], [], admitAll, []⟩ :=
  ⟨rfl, by decide⟩

theorem test_witness_QuantizedValuesFit : |(2 ^ 30 - 1 : Int)| < 2 ^ 30 ∧ |(-(2 ^ 30 - 1) : Int)| < 2 ^ 30 := by decide

/-- The buckets of V7: below, at and above the average. -/
theorem test_witness_ClassOffsetInterpolates :
    (100 : Int) ≤ 200 ∧ (200 : Int) ≤ 400 ∧ (0 : Int) ≤ 8 ∧ (0 : Int) ≤ 12 ∧ ((200 : Int) = 200) ∧
    ((200 : Int) < 400 ∧ (400 : Int) ≤ 400) ∧ (100 : Int) < 200 ∧ (100 : Int) ≤ 100 := by decide

theorem test_witness_DqpStaysInBounds :
    (fun s : State => s.errFlag = false ∧ s.dqpEn = true ∧ exec (.dqp true) s = .next (after (.dqp true) s) ∧
      (after (.dqp true) s).errFlag = false ∧ s.dqpSedge = true ∧ s.dqpAcen = false ∧ s.minQp ≤ s.baseQp)
      { dqpState with cfg := { dqpState.cfg with dqpCtl := 0x11 } } :=
  ⟨by decide, by decide, rfl, by decide, by decide, by decide, by decide⟩

/-- CFL_ALPHA = 0x0FF: alpha_U is 0 (V6.4). -/
theorem test_witness_AlphaDecode : alphaQ3 0x0FF .u = 0 ∧ alphaQ3 0x0FF .v = -16 := by decide

theorem test_witness_ZeroResidualIdempotent :
    (fun s : State => s.bitDepth = some .b8 ∧ s.txSize = some .tx4x4 ∧ s.txType .y .tx4x4 = some .whtWht ∧
      s.predMode = some .inter ∧
      ForBlock (TxSize.height .tx4x4) (TxSize.width .tx4x4) (fun r c =>
        SampleReadable s .b8 (s.srcAddr .y .b8 r c) ∧ SampleReadable s .b8 (s.predAddr .y .b8 r c) ∧
        s.sample .b8 (s.srcAddr .y .b8 r c) = s.sample .b8 (s.predAddr .y .b8 r c)))
      { flat 77 77 with cfg := { blockCfg with tuCfg := 0x100200 } } :=
  ⟨by decide, by decide, by decide, by decide, forBlock_of (by unfold SampleReadable; decide)⟩

theorem test_witness_LosslessRoundTrip :
    (fun s : State => s.bitDepth = some .b8 ∧ s.txSize = some .tx4x4 ∧ s.txType .y .tx4x4 = some .whtWht ∧ s.qindex = 0 ∧
      s.scr.resTag = ⟨true, .y, .tx4x4, .b8⟩ ∧ s.scr.res.length = 16 ∧
      (∀ e ∈ s.scr.res, |e| ≤ 2 ^ BitDepth.bits .b8 - 1) ∧
      ForBlock 4 4 (fun r c => |Config.params.fwdTx .tx4x4 .whtWht .b8 s.scr.res r c| < 2 ^ 30))
      { withModes 0 0x200 with scr := { Scratch.reset with resTag := tag4, res := List.replicate 16 0 } } :=
  ⟨by decide, by decide, by decide, by decide, rfl, by decide, by decide, fun r c hr hc => by
    have := (Config.contract.zero .tx4x4 .whtWht .b8 (by decide) r c hr hc).1
    exact lt_of_eq_of_lt (congrArg abs this) (by decide)⟩

theorem test_witness_MemoryIsLittleEndian : (3 < 4) ∧ (0xFFF < 0x1000 ∨ 0x1000 + 4 ≤ 0xFFF) ∧ (0x1004 < 0x1000 ∨ 0x1000 + 4 ≤ 0x1004) := by
  decide

/-- V2.35, V2.37 allowed and V2.34, V2.33 not, all of types other than WHT_WHT. -/
theorem test_witness_TxValidPairs :
    (TxType.idtx ≠ .whtWht ∧ txValid .tx32x32 .idtx = true) ∧ (TxType.adstAdst ≠ .whtWht ∧ txValid .tx4x16 .adstAdst = true) ∧
    (TxType.adstDct ≠ .whtWht ∧ txValid .tx32x32 .adstDct = false) ∧ txValid .tx64x64 .idtx = false := by decide

theorem test_witness_StepKeepsMemoryOk :
    (fun s : State => MemoryOk s ∧ step s = .next s) { openReset with mem := [(0, 1), (2 ^ 32 - 1, 2)] } := ⟨by
  unfold MemoryOk; decide, rfl⟩

theorem test_witness_StepKeepsReservedZero :
    (fun s : State => ReservedZero s ∧ step s = .next s) failedState := by
  refine ⟨fun r => ?_, rfl⟩
  cases r <;> first
  | decide
  | (rename_i x; cases x <;> decide)
  | (rename_i b p; cases b <;> cases p <;> decide)

theorem test_witness_StepKeepsErrorOk : (fun s : State => ErrorOk s ∧ step s = .next s) failedState := ⟨by
  unfold ErrorOk; decide, rfl⟩

theorem test_witness_StepKeepsChainOk :
    (fun s : State => ChainOk s ∧ step s = .next s)
      { openReset with scr := { Scratch.reset with resTag := tag4, coefTag := tag4, qcTag := tag4 } } := ⟨by
  unfold ChainOk; decide, rfl⟩

theorem test_witness_StepKeepsScratchOk :
    (fun s : State => ScratchOk s ∧ step s = .next s)
      { openReset with scr := { Scratch.reset with resTag := tag4, res := List.replicate 16 (-255) } } := ⟨by
  unfold ScratchOk BufferOk; decide, rfl⟩

theorem test_witness_StepKeepsCountsOk :
    (fun s : State => CountsOk s ∧ step s = .next s)
      { openReset with rslt := { ResultRegs.reset with eob := ⟨16, 0, 1024⟩, nz := ⟨1, 0, 1024⟩ } } := by
  refine ⟨fun p => ?_, rfl⟩
  cases p <;> decide

end Sys2Proof.Machine
end

/-! PROOFS of the family of 10_state.md: the register port, what one step keeps, and the invariants of the state. -/

/-! ## The register port -/

namespace Sys2Proof.Machine

theorem Reg.mem_all (r : Reg) : r ∈ Reg.all := by
  cases r with
  | dqpMin d | dqpAvg d | dqpMax d | dqpWgt d => cases d <;> decide
  | descBase b p | descStride b p | descOrg b p => cases b <;> cases p <;> decide
  | coefBase p | eob p | nz p | e3qLo p | e3qHi p => cases p <;> decide
  | _ => decide

/-- No two registers share an offset, and every offset is 4-byte aligned and below 2^12 (10_state.md section 1). -/
theorem Reg.ofOffset_offset (r : Reg) : Reg.ofOffset r.offset = some r ∧ r.offset % 4 = 0 ∧ r.offset < 2 ^ 12 := by
  have h : ∀ r ∈ Reg.all, Reg.ofOffset r.offset = some r ∧ r.offset % 4 = 0 ∧ r.offset < 2 ^ 12 := by decide
  exact h r r.mem_all

theorem Reg.ofOffset_eq_none {off : Nat} (h : ∀ r : Reg, r.offset ≠ off) : Reg.ofOffset off = none := by
  simpa [Reg.ofOffset] using fun r _ => h r

theorem Reg.toNat_offset (r : Reg) : (BitVec.ofNat 12 r.offset).toNat = r.offset := by
  rw [BitVec.toNat_ofNat, Nat.mod_eq_of_lt r.ofOffset_offset.2.2]

theorem portAccessOk_iff {width : Nat} {off : BitVec 12} :
    portAccessOk width off = true ↔ width = 32 ∧ off.toNat % 4 = 0 := by
  simp [portAccessOk]

theorem Reg.portAccessOk_offset (r : Reg) : portAccessOk 32 (BitVec.ofNat 12 r.offset) = true := by
  rw [portAccessOk_iff, r.toNat_offset]
  exact ⟨rfl, r.ofOffset_offset.2.1⟩

/-- A host write at the offset of a register other than CMD writes that register (10_state.md R56). -/
theorem hostEvent_regWrite {r : Reg} (hr : r ≠ .cmd) (s : State) (v : Word) :
    hostEvent (.regWrite 32 (BitVec.ofNat 12 r.offset) v) s = .next (s.writeReg r v) := by
  rw [hostEvent, if_pos r.portAccessOk_offset, portWrite, r.toNat_offset, r.ofOffset_offset.1]
  cases r with
  | cmd => exact absurd rfl hr
  | _ => rfl

/-- The registers that are neither CTRL, STATUS, CMD nor in `storingRegs` ignore writes. -/
theorem State.writeReg_of_not_storing {r : Reg} (h : r ∉ storingRegs) (hctrl : r ≠ .ctrl) (hstatus : r ≠ .status)
    (s : State) (v : Word) : s.writeReg r v = s := by
  cases r with
  | id | cmd | dqpResult | errAddr | errCmd | eob _ | nz _ | e3qLo _ | e3qHi _ | tuStatus => rfl
  | ctrl => exact absurd rfl hctrl
  | status => exact absurd rfl hstatus
  | dqpMin d | dqpAvg d | dqpMax d | dqpWgt d => cases d <;> exact absurd (by decide) h
  | descBase b p | descStride b p => cases b <;> cases p <;> exact absurd (by decide) h
  | descOrg b p =>
    cases b with
    | pred => rfl
    | src | recon => cases p <;> exact absurd (by decide) h
  | coefBase p => cases p <;> exact absurd (by decide) h
  | _ => exact absurd (by decide) h

/-- Everything a register write can do: a reset, an error clear, or a change of the configuration alone. -/
theorem State.writeReg_cases (s : State) (r : Reg) (v : Word) :
    s.writeReg r v = s.engineReset ∨ s.writeReg r v = s.clearError ∨ ∃ c, s.writeReg r v = { s with cfg := c } := by
  cases r with
  | ctrl =>
    simp only [State.writeReg, State.writeCtrl]
    split
    · exact .inl rfl
    · exact .inr (.inr ⟨_, rfl⟩)
  | status =>
    simp only [State.writeReg, State.writeStatus]
    split
    · exact .inr (.inl rfl)
    · exact .inr (.inr ⟨s.cfg, rfl⟩)
  | descOrg b p => cases b <;> exact .inr (.inr ⟨_, rfl⟩)
  | _ => exact .inr (.inr ⟨_, rfl⟩)

/-- Settles O10: neither a write nor a read of such a shape passes `portAccessOk`. -/
theorem misshapenAccessRefused : Obligations.MisshapenAccessRefused := by
  intro s width off v h
  have hbad : ¬ portAccessOk width off = true := by
    rw [portAccessOk_iff]
    exact fun ⟨hw, ho⟩ => h.elim (· hw) (· ho)
  exact ⟨if_neg hbad, if_neg hbad⟩

/-- Settles O12: no register is found at the offset. -/
theorem unmappedReadsZero : Obligations.UnmappedReadsZero := by
  intro s off v haligned hunmapped
  have hok : portAccessOk 32 off = true := portAccessOk_iff.2 ⟨rfl, haligned⟩
  have hnone : Reg.ofOffset off.toNat = none := Reg.ofOffset_eq_none hunmapped
  constructor
  · rw [hostEvent, if_pos hok, portWrite, hnone]
  · rw [hostEvent, if_pos hok, State.readOffset, hnone]

/-- Settles O15: the write reaches `writeReg`, which has no effect on a register that does not store. -/
theorem readOnlyIgnoresWrites : Obligations.ReadOnlyIgnoresWrites := by
  intro s r v hr hctrl hstatus hcmd
  rw [hostEvent_regWrite hcmd, State.writeReg_of_not_storing hr hctrl hstatus]

/-! ## One step: the host's sequence and the error registers -/

/-- A step takes the next event, and the event acts on the state that has taken it (10_state.md R54). -/
theorem step_of_pending {s : State} {e : HostEvent} {rest : List HostEvent} (h : s.port.pending = e :: rest) :
    step s = hostEvent e s.advance := by
  simp only [step, hostStep, h]

/-- No event touches the events still to come or the position. -/
theorem hostEvent_keeps_sequence {e : HostEvent} {s t : State} (h : hostEvent e s = .next t) :
    t.port.pending = s.port.pending ∧ t.port.pos = s.port.pos := by
  rcases hostEvent_cases h with rfl | ⟨v, rfl⟩ | ⟨n, a, v, _, rfl⟩ | rfl | ⟨r, v, _, rfl⟩ | ⟨_, w, e, rfl, _⟩ | ⟨_, i, hi⟩
  · exact ⟨rfl, rfl⟩
  · exact ⟨rfl, rfl⟩
  · exact ⟨rfl, rfl⟩
  · exact ⟨rfl, rfl⟩
  · obtain ⟨_, _, hport⟩ := s.writeReg_keeps r v
    rw [hport]; exact ⟨rfl, rfl⟩
  · exact ⟨rfl, rfl⟩
  · obtain ⟨hport, _, _⟩ := effect_keeps hi
    rw [hport]; exact ⟨rfl, rfl⟩

/-- Settles O9: taking the event moves the sequence and the position, and the event itself leaves both alone. -/
theorem positionAdvancesByOne : Obligations.PositionAdvancesByOne := by
  intro s t e rest hpending hstep
  rw [step_of_pending hpending, s.advance_of_pending hpending] at hstep
  obtain ⟨hrest, hpos⟩ := hostEvent_keeps_sequence hstep
  refine ⟨hrest, ?_, ?_⟩
  · rintro (⟨width, off, v, rfl⟩ | ⟨width, off, rfl⟩) <;> exact hpos
  · rintro (⟨n, a, v, rfl⟩ | rfl) <;> exact hpos

/-- A register write keeps the error registers or clears them. -/
theorem State.writeReg_err (s : State) (r : Reg) (v : Word) :
    (s.writeReg r v).err = s.err ∨ (s.writeReg r v).err = ErrRegs.reset := by
  rcases s.writeReg_cases r v with h | h | ⟨c, h⟩ <;> rw [h]
  · exact .inr rfl
  · exact .inr rfl
  · exact .inl rfl

/-- While ERR = 1 an event keeps the error registers or clears them (60_exceptions.md R274, R275). -/
theorem hostEvent_err_of_errFlag {e : HostEvent} {s t : State} (hf : s.errFlag = true) (h : hostEvent e s = .next t) :
    t.err = s.err ∨ t.err = ErrRegs.reset := by
  rcases hostEvent_cases h with rfl | ⟨v, rfl⟩ | ⟨n, a, v, _, rfl⟩ | rfl | ⟨r, v, _, rfl⟩ | ⟨hf', _⟩ | ⟨hf', _⟩
  · exact .inl rfl
  · exact .inl rfl
  · exact .inl rfl
  · exact .inr rfl
  · exact s.writeReg_err r v
  · rw [hf] at hf'; cases hf'
  · rw [hf] at hf'; cases hf'

/-- Settles O20: a step without an event changes nothing, and an event keeps or clears the error registers. -/
theorem firstErrorKeptUntilCleared : Obligations.FirstErrorKeptUntilCleared := by
  intro s t hf hstep
  cases hp : s.port.pending with
  | nil =>
    simp only [step, hostStep, hp] at hstep
    cases hstep
    exact .inl rfl
  | cons e rest =>
    rw [step_of_pending hp] at hstep
    have hf' : s.advance.errFlag = true := by rw [State.errFlag, State.advance_err]; exact hf
    rw [← s.advance_err]
    exact hostEvent_err_of_errFlag hf' hstep

/-- An invariant that speaks of the engine alone is kept by every step, if a register write, an error entry and a command's
effect keep it and reset meets it. -/
theorem step_keeps_engine {I : State → Prop} (hport : ∀ s p, I s → I { s with port := p })
    (hmem : ∀ s m, I s → I { s with mem := m }) (hreset : ∀ s : State, I s.engineReset)
    (hwrite : ∀ s r v, I s → I (s.writeReg r v))
    (herror : ∀ s w e, ErrAddrOk e → I s → I (s.errorEntry w e))
    (heffect : ∀ i s t, I s → effect i s = .ok t → I t) {s t : State} (hs : I s) (h : step s = .next t) : I t := by
  refine step_keeps (fun s hs => ?_) (fun e s t hs h => ?_) hs h
  · rw [s.advance_eq]; exact hport _ _ hs
  · rcases hostEvent_cases h with rfl | ⟨v, rfl⟩ | ⟨n, a, v, _, rfl⟩ | rfl | ⟨r, v, _, rfl⟩ | ⟨_, w, e, rfl, he⟩ | ⟨_, i, hi⟩
    · exact hs
    · exact hport _ _ hs
    · exact hmem _ _ hs
    · exact hreset _
    · exact hwrite _ _ _ hs
    · exact herror _ _ _ he hs
    · exact heffect _ _ _ hs hi

end Sys2Proof.Machine

/-! ## What a command does to the registers -/

namespace Sys2Proof.Machine

/-- A command's effect on `s`, one constructor per command: the checks that passed, as far as an invariant needs them, and
what is committed. -/
inductive CommandEffect (s : State) : Instr → State → Prop
  | nop : CommandEffect s .nop s
  | resid {p ts bd} (hreads : ∀ a ∈ s.residReads p ts bd, s.sample bd a < 2 ^ bd.bits) :
      CommandEffect s (.resid p) (s.commitRes p ts bd (tabulate ts.height ts.width (s.residual p bd)))
  | ftx {p ts bd e3q} {f : Nat → Nat → Int} (htag : s.scr.resTag = ⟨true, p, ts, bd⟩)
      (hbound : ForBlock ts.codedHeight ts.codedWidth fun r c => |f r c| < 2 ^ 30) :
      CommandEffect s (.ftx p) (s.commitCoef p ts bd (tabulate ts.codedHeight ts.codedWidth f) e3q)
  | quant {p ts bd} (tt : TxType) (htag : s.scr.coefTag = ⟨true, p, ts, bd⟩) :
      CommandEffect s (.quant p)
        (s.commitQuant p ts bd ((s.quantized Config.params ts bd).map Prod.fst)
          ((s.quantized Config.params ts bd).map Prod.snd)
          (eobOf (Config.params.scan ts tt) ((s.quantized Config.params ts bd).map Prod.fst) ts.codedArea)
          (nzOf ((s.quantized Config.params ts bd).map Prod.fst)))
  | itx {p ts bd} {f : Nat → Nat → Int} (htag : s.scr.qcTag = ⟨true, p, ts, bd⟩)
      (hbound : ForBlock ts.height ts.width fun r c => |f r c| < 2 ^ 31) :
      CommandEffect s (.itx p) (s.commitIres p ts bd (tabulate ts.height ts.width f))
  | recon {p f n l} : CommandEffect s (.recon p f) (s.commitMem n l)
  | txflag {p m} : CommandEffect s (.txflag p)
      { s with
        cfg := { s.cfg with tuCfg := if s.nzIsZero p then forcedTuCfg s.cfg.tuCfg p m else s.cfg.tuCfg }
        rslt := { s.rslt with hc := s.rslt.hc.set p (!s.nzIsZero p) } }
  | stcoef {p f n l} : CommandEffect s (.stcoef p f) (s.commitMem n l)
  | cflAc {f ts fmt bd} (hw : ts.width ≤ 32) (hh : ts.height ≤ 32)
      (hreads : ∀ a ∈ s.lumaReads f ts fmt bd, s.sample bd a < 2 ^ bd.bits) :
      CommandEffect s (.cflAc f) (s.commitCflac ts bd (tabulate ts.height ts.width (s.cflAcValue f ts fmt bd)))
  | cflPred {p n l} : CommandEffect s (.cflPred p) (s.commitMem n l)
  | dqp {f qp} : CommandEffect s (.dqp f)
      { s with
        rslt := { s.rslt with dqpResult := dqpResultWord qp s.baseQp }
        cfg := { s.cfg with qidx := if f then setBits s.cfg.qidx 7 0 qp.toNat else s.cfg.qidx } }
  | tuClr : CommandEffect s .tuClr s.clearTu

theorem commandEffect_of_effect {i : Instr} {s t : State} (h : effect i s = .ok t) : CommandEffect s i t := by
  cases i with
  | nop => cases h; exact .nop
  | resid p => obtain ⟨bd, ts, _, _, _, _, hreads, rfl⟩ := resid_ok.1 h; exact .resid hreads
  | ftx p => obtain ⟨bd, ts, tt, _, _, _, htag, hbound, rfl⟩ := ftx_ok.1 h; exact .ftx htag hbound
  | quant p => obtain ⟨bd, ts, tt, _, _, _, htag, rfl⟩ := quant_ok.1 h; exact .quant tt htag
  | itx p => obtain ⟨bd, ts, tt, _, _, _, htag, hbound, rfl⟩ := itx_ok.1 h; exact .itx htag hbound
  | recon p f => obtain ⟨bd, ts, _, _, _, _, _, _, rfl⟩ := recon_ok.1 h; exact .recon
  | txflag p => obtain ⟨m, _, _, rfl⟩ := txflag_ok.1 h; exact .txflag
  | stcoef p f => obtain ⟨bd, ts, _, _, _, _, _, rfl⟩ := stcoef_ok.1 h; exact .stcoef
  | cflAc f =>
    obtain ⟨bd, fmt, ts, _, _, _, _, hw, hh, _, _, hreads, rfl⟩ := cflAc_ok.1 h
    exact .cflAc hw hh hreads
  | cflPred p => obtain ⟨bd, ts, _, _, _, _, _, _, _, _, _, _, rfl⟩ := cflPred_ok.1 h; exact .cflPred
  | dqp f => obtain ⟨m, _, _, _, rfl⟩ := dqp_ok.1 h; exact .dqp
  | tuClr => cases h; exact .tuClr

/-- The type fields of TU_CFG lie in bits 5 to 19 (10_state.md R36). -/
theorem bits_setTt_other {hi lo : Nat} (h : hi < 5 ∨ 20 ≤ lo) (w : Word) (p : Plane) (v : Nat) :
    bits (setTt w p v) hi lo = bits w hi lo := by
  refine bits_setBits_other w v ?_
  cases p <;> simp only [ttLow] <;> omega

theorem bits_forcedTuCfg_other {hi lo : Nat} (h : hi < 5 ∨ 20 ≤ lo) (w : Word) (p : Plane) (m : PredMode) :
    bits (forcedTuCfg w p m) hi lo = bits w hi lo := by
  unfold forcedTuCfg
  split <;> simp only [bits_setTt_other h]

/-- Settles O41: TXFLAG writes the type fields, DQP.F the low byte of QIDX, and no other command writes a configuration
register. -/
theorem commandsKeepConfiguration : Obligations.CommandsKeepConfiguration := by
  intro i s t h
  rcases exec_cases h with ⟨e, _, rfl⟩ | h
  · exact ⟨rfl, fun _ => rfl, fun _ => rfl, rfl, rfl, rfl⟩
  cases commandEffect_of_effect h with
  | @txflag p m =>
    have hkeep : ∀ {hi lo : Nat}, hi < 5 ∨ 20 ≤ lo →
        bits (if s.nzIsZero p then forcedTuCfg s.cfg.tuCfg p m else s.cfg.tuCfg) hi lo = bits s.cfg.tuCfg hi lo := by
      intro hi lo hout
      split
      · exact bits_forcedTuCfg_other hout _ p m
      · rfl
    exact ⟨rfl, fun hi => absurd rfl (hi p), fun _ => rfl, hkeep (by omega), hkeep (by omega), rfl⟩
  | @dqp f qp =>
    cases f with
    | false => exact ⟨rfl, fun _ => rfl, fun _ => rfl, rfl, rfl, rfl⟩
    | true =>
      exact ⟨rfl, fun _ => rfl, fun hi => absurd rfl hi, rfl, rfl, bits_setBits_other _ _ (by omega)⟩
  | _ => exact ⟨rfl, fun _ => rfl, fun _ => rfl, rfl, rfl, rfl⟩

/-- Settles O43: each constructor of `CommandEffect` shows which result registers its command sets, and on which plane. -/
theorem resultRegistersHaveOneWriter : Obligations.ResultRegistersHaveOneWriter := by
  intro i s t h hclr
  rcases exec_cases h with ⟨e, _, rfl⟩ | h
  · exact ⟨fun _ => rfl, fun p => ⟨fun _ => rfl, fun _ => ⟨rfl, rfl⟩, fun _ => ⟨rfl, rfl⟩, fun _ _ _ => rfl⟩⟩
  cases commandEffect_of_effect h with
  | @resid q =>
    refine ⟨fun _ => rfl, fun p => ⟨fun _ => rfl, fun _ => ⟨rfl, rfl⟩, fun _ => ⟨rfl, rfl⟩, fun hp _ _ => ?_⟩⟩
    exact PerPlane.get_set_of_ne _ _ (by rintro rfl; exact hp rfl)
  | @ftx q =>
    refine ⟨fun _ => rfl, fun p => ⟨fun _ => rfl, fun _ => ⟨rfl, rfl⟩, fun hp => ?_, fun _ hp _ => ?_⟩⟩ <;>
      have hne : p ≠ q := by rintro rfl; exact hp rfl
    · exact ⟨PerPlane.get_set_of_ne _ _ hne, PerPlane.get_set_of_ne _ _ hne⟩
    · exact PerPlane.get_set_of_ne _ _ hne
  | @quant q =>
    refine ⟨fun _ => rfl, fun p => ⟨fun _ => rfl, fun hp => ?_, fun _ => ⟨rfl, rfl⟩, fun _ _ hp => ?_⟩⟩ <;>
      have hne : p ≠ q := by rintro rfl; exact hp rfl
    · exact ⟨PerPlane.get_set_of_ne _ _ hne, PerPlane.get_set_of_ne _ _ hne⟩
    · exact PerPlane.get_set_of_ne _ _ hne
  | @txflag q =>
    refine ⟨fun _ => rfl, fun p => ⟨fun hp => ?_, fun _ => ⟨rfl, rfl⟩, fun _ => ⟨rfl, rfl⟩, fun _ _ _ => rfl⟩⟩
    exact PerPlane.get_set_of_ne _ _ (by rintro rfl; exact hp rfl)
  | @dqp f =>
    exact ⟨fun hf => absurd rfl (hf f),
      fun p => ⟨fun _ => rfl, fun _ => ⟨rfl, rfl⟩, fun _ => ⟨rfl, rfl⟩, fun _ _ _ => rfl⟩⟩
  | tuClr => exact absurd rfl hclr
  | _ => exact ⟨fun _ => rfl, fun p => ⟨fun _ => rfl, fun _ => ⟨rfl, rfl⟩, fun _ => ⟨rfl, rfl⟩, fun _ _ _ => rfl⟩⟩

end Sys2Proof.Machine

/-! ## The scratch buffers: tags, shapes and element ranges -/

namespace Sys2Proof

/-! ### Magnitudes of the quantizer (41_quant.md R171, R172) -/

theorem asr_nonneg {a : Int} (h : 0 ≤ a) (n : Nat) : 0 ≤ asr a n := Int.ediv_nonneg h (by positivity)

theorem asr_mul_le (a : Int) (n : Nat) : asr a n * 2 ^ n ≤ a := Int.ediv_mul_le a (by positivity)

theorem asr_le_self {a : Int} (h : 0 ≤ a) (n : Nat) : asr a n ≤ a := Int.ediv_le_self _ h

theorem round2_nonneg {a : Int} (h : 0 ≤ a) (n : Nat) : 0 ≤ round2 a n :=
  asr_nonneg (add_nonneg h (asr_nonneg (by positivity) 1)) n

theorem TxSize.logScale_le (ts : TxSize) : ts.logScale ≤ 2 := by cases ts <;> decide

/-- The multiplier m = quant + 2^16 and the shift of a step d ≥ 4, by the step's binary logarithm l. -/
theorem invertQuant_bounds {d : Nat} (hd : 4 ≤ d) (hd' : d < 2 ^ 15) :
    ∃ (l : Nat) (m : Int), 2 ≤ l ∧ l ≤ 14 ∧ (2 : Int) ^ l ≤ d ∧ (d : Int) < 2 ^ (l + 1) ∧
      0 ≤ m ∧ m * d ≤ d + 2 ^ (16 + l) ∧ invertQuant d = (m - 2 ^ 16, 2 ^ (16 - l)) := by
  have hne : d ≠ 0 := by omega
  refine ⟨Nat.log2 d, (1 + 2 ^ (16 + Nat.log2 d) / d : Nat), ?_, ?_, ?_, ?_, by positivity, ?_, rfl⟩
  · exact (Nat.le_log2 hne).2 hd
  · exact Nat.le_of_lt_succ ((Nat.log2_lt hne).2 hd')
  · exact_mod_cast Nat.log2_self_le hne
  · exact_mod_cast Nat.lt_log2_self
  · have := Nat.div_mul_le_self (2 ^ (16 + Nat.log2 d)) d
    have h : (1 + 2 ^ (16 + Nat.log2 d) / d) * d ≤ d + 2 ^ (16 + Nat.log2 d) := by rw [Nat.add_mul, Nat.one_mul]; omega
    exact_mod_cast h

/-- The quantized magnitude q exceeds t, and q·d exceeds 2^log_scale·t, by at most one part in 2^15. -/
theorem quantMag_bounds {P : QuantParams} {d ls : Nat} {t : Int} (hd : 4 ≤ d) (hd' : d < 2 ^ 15)
    (hinv : invertQuant d = (P.quant, P.shift)) (hls : ls ≤ 2) (ht : 0 ≤ t) :
    0 ≤ quantMag P ls t ∧ quantMag P ls t * d * 2 ^ (16 - ls) ≤ t * (2 ^ 16 + 2) ∧
      quantMag P ls t * 2 ^ 16 ≤ t * (2 ^ 16 + 2) := by
  obtain ⟨l, m, hl, hl', hld, hdl, hm, hmd, hinv'⟩ := invertQuant_bounds hd hd'
  rw [hinv'] at hinv
  obtain ⟨hquant, hshift⟩ := Prod.mk.inj hinv
  obtain ⟨u, hu⟩ : ∃ u, u = asr (t * P.quant) 16 + t := ⟨_, rfl⟩
  have hu0 : 0 ≤ u := by
    have : -t ≤ asr (t * P.quant) 16 := Int.le_ediv_of_mul_le (by positivity) (by rw [← hquant]; nlinarith)
    omega
  have hum : u * 2 ^ 16 ≤ t * m := by
    have := asr_mul_le (t * P.quant) 16
    rw [← hquant] at this hu
    rw [hu]; linarith
  have hA : (2 : Int) ^ (16 - l) * 2 ^ l = 2 ^ 16 := by rw [← pow_add]; congr 1; omega
  have hB : (4 : Int) * 2 ^ (16 - ls) ≥ 2 ^ 16 := by
    calc (4 : Int) * 2 ^ (16 - ls) = 2 ^ (18 - ls) := by rw [show 18 - ls = 2 + (16 - ls) by omega, pow_add]; norm_num
      _ ≥ 2 ^ 16 := pow_le_pow_right₀ (by norm_num) (by omega)
  have hL : (4 : Int) ≤ 2 ^ l := by
    calc (4 : Int) = 2 ^ 2 := by norm_num
      _ ≤ 2 ^ l := pow_le_pow_right₀ (by norm_num) hl
  have hq0 : 0 ≤ quantMag P ls t := by
    rw [quantMag, ← hu, ← hshift]
    exact asr_nonneg (by positivity) _
  have hqB : quantMag P ls t * 2 ^ (16 - ls) ≤ u * 2 ^ (16 - l) := by
    rw [quantMag, ← hu, ← hshift]
    exact asr_mul_le _ _
  generalize quantMag P ls t = q at hq0 hqB ⊢
  generalize (2 : Int) ^ (16 - ls) = B at hB hqB ⊢
  have hqd : q * d * B ≤ t * (2 ^ 16 + 2) := by
    have hqL : q * B * 2 ^ l ≤ t * m := by
      calc q * B * 2 ^ l ≤ u * 2 ^ (16 - l) * 2 ^ l := mul_le_mul_of_nonneg_right hqB (by positivity)
        _ = u * 2 ^ 16 := by rw [mul_assoc, hA]
        _ ≤ t * m := hum
    have hmd' : m * d ≤ 2 ^ l * (2 ^ 16 + 2) := by
      rw [pow_succ] at hdl
      rw [pow_add] at hmd
      linarith
    refine le_of_mul_le_mul_right ?_ (show (0 : Int) < 2 ^ l by positivity)
    calc q * d * B * 2 ^ l = q * B * 2 ^ l * d := by ring
      _ ≤ t * m * d := mul_le_mul_of_nonneg_right hqL (by positivity)
      _ = t * (m * d) := mul_assoc ..
      _ ≤ t * (2 ^ l * (2 ^ 16 + 2)) := mul_le_mul_of_nonneg_left hmd' ht
      _ = t * (2 ^ 16 + 2) * 2 ^ l := by ring
  refine ⟨hq0, hqd, ?_⟩
  have hdB : (2 : Int) ^ 16 ≤ d * B := by nlinarith
  calc q * 2 ^ 16 ≤ q * (d * B) := mul_le_mul_of_nonneg_left hdB hq0
    _ = q * d * B := (mul_assoc ..).symm
    _ ≤ t * (2 ^ 16 + 2) := hqd

theorem clampSum_le (bd : BitDepth) (t : Int) : clampSum bd t ≤ t := by
  unfold clampSum
  split
  · exact min_le_left _ _
  · exact le_refl _

theorem clampSum_nonneg (bd : BitDepth) {t : Int} (h : 0 ≤ t) : 0 ≤ clampSum bd t := by
  unfold clampSum
  split
  · exact le_min h (by norm_num)
  · exact h

theorem qroundFactor_bounds (qidx : BitVec 8) : 0 ≤ qroundFactor qidx ∧ qroundFactor qidx ≤ 64 := by
  unfold qroundFactor
  split <;> norm_num

/-- The rounding offset of a step below 2^15, after scaling by log_scale. -/
theorem round2_round_bounds {qstep : BitVec 8 → BitDepth → CoefKind → Nat} {qidx : BitVec 8} {bd : BitDepth} {k : CoefKind}
    (hd : qstep qidx bd k < 2 ^ 15) {ls : Nat} (hls : ls ≤ 2) :
    0 ≤ round2 (quantParams qstep qidx bd k).round ls ∧ round2 (quantParams qstep qidx bd k).round ls ≤ 2 ^ 15 := by
  obtain ⟨hf0, hf⟩ := qroundFactor_bounds qidx
  have hprod : qroundFactor qidx * (qstep qidx bd k : Int) ≤ 64 * 2 ^ 15 :=
    mul_le_mul hf (by exact_mod_cast hd.le) (by positivity) (by norm_num)
  have hround0 : 0 ≤ (quantParams qstep qidx bd k).round := asr_nonneg (by positivity) 7
  have hround : (quantParams qstep qidx bd k).round ≤ 2 ^ 14 := by
    have := asr_mul_le (qroundFactor qidx * (qstep qidx bd k : Int)) 7
    simp only [quantParams]
    omega
  have hhalf : asr (2 ^ ls) 1 ≤ 2 := by interval_cases ls <;> decide
  have hhalf0 : 0 ≤ asr (2 ^ ls) 1 := asr_nonneg (by positivity) 1
  refine ⟨round2_nonneg hround0 ls, ?_⟩
  calc round2 (quantParams qstep qidx bd k).round ls
      ≤ (quantParams qstep qidx bd k).round + asr (2 ^ ls) 1 := asr_le_self (by omega) ls
    _ ≤ 2 ^ 15 := by omega

/-- A coefficient below 2^30 quantizes and dequantizes to magnitudes below 2^31, at every step of the contract. -/
theorem quantCoef_lt {qstep : BitVec 8 → BitDepth → CoefKind → Nat} {qidx : BitVec 8} {bd : BitDepth} {k : CoefKind}
    (hd : 4 ≤ qstep qidx bd k) (hd' : qstep qidx bd k < 2 ^ 15) {ls : Nat} (hls : ls ≤ 2) {c : Int} (hc : |c| < 2 ^ 30) :
    |(quantCoef (quantParams qstep qidx bd k) ls bd c).1| < 2 ^ 31 ∧
      |(quantCoef (quantParams qstep qidx bd k) ls bd c).2| < 2 ^ 31 := by
  obtain ⟨hrd0, hrd⟩ := round2_round_bounds (qidx := qidx) (bd := bd) (k := k) hd' hls
  simp only [quantCoef]
  split
  · norm_num
  generalize round2 (quantParams qstep qidx bd k).round ls = rd at hrd0 hrd ⊢
  have hc0 := abs_nonneg c
  have ht0 : 0 ≤ clampSum bd (|c| + rd) := clampSum_nonneg bd (by omega)
  have ht : clampSum bd (|c| + rd) < 2 ^ 30 + 2 ^ 15 := lt_of_le_of_lt (clampSum_le bd _) (by omega)
  generalize clampSum bd (|c| + rd) = t at ht0 ht ⊢
  obtain ⟨hq0, hqd, hq⟩ := quantMag_bounds (P := quantParams qstep qidx bd k) hd hd' rfl hls ht0
  generalize quantMag (quantParams qstep qidx bd k) ls t = q at hq0 hqd hq ⊢
  have hdq0 : 0 ≤ asr (q * qstep qidx bd k) ls := asr_nonneg (by positivity) ls
  have hdq : asr (q * qstep qidx bd k) ls * 2 ^ 16 ≤ t * (2 ^ 16 + 2) := by
    calc asr (q * qstep qidx bd k) ls * 2 ^ 16 = asr (q * qstep qidx bd k) ls * 2 ^ ls * 2 ^ (16 - ls) := by
          rw [mul_assoc, ← pow_add, show ls + (16 - ls) = 16 by omega]
      _ ≤ q * qstep qidx bd k * 2 ^ (16 - ls) := mul_le_mul_of_nonneg_right (asr_mul_le _ _) (by positivity)
      _ ≤ t * (2 ^ 16 + 2) := hqd
  have hsign : |(if c < 0 then -1 else 1 : Int)| = 1 := by split <;> norm_num
  rw [abs_mul, abs_mul, hsign, one_mul, one_mul, abs_of_nonneg hq0]
  refine ⟨by omega, ?_⟩
  rw [show (quantParams qstep qidx bd k).dequant = qstep qidx bd k from rfl, abs_of_nonneg hdq0]
  omega

/-! ### Counts of the quantizer (41_quant.md R173) -/

theorem eobOf_le (scan : Nat → Nat) (q : List Int) (n : Nat) : eobOf scan q n ≤ n := by
  induction n with
  | zero => exact le_refl _
  | succ n ih =>
    rw [eobOf]
    split
    · exact le_refl _
    · exact Nat.le_succ_of_le ih

theorem nzOf_le (q : List Int) : nzOf q ≤ q.length := List.countP_le_length

theorem TxSize.codedArea_le (ts : TxSize) : ts.codedArea ≤ 1024 :=
  Nat.mul_le_mul (Nat.min_le_right _ _) (Nat.min_le_right _ _)

/-! ### Magnitudes of CFLAC (42_cfl.md R201, R202) -/

theorem BitDepth.two_pow_bits_le (bd : BitDepth) : (2 : Int) ^ bd.bits ≤ 4096 := by cases bd <;> decide

/-- The number of samples of a block is a power of two, and at least 16. -/
theorem TxSize.area_eq_two_pow (ts : TxSize) :
    ts.width * ts.height = 2 ^ Nat.log2 (ts.width * ts.height) ∧ 1 ≤ Nat.log2 (ts.width * ts.height) := by
  cases ts <;> decide

end Sys2Proof

namespace Sys2Proof.Machine

theorem tabulate_sum_bounds {h w : Nat} {f : Nat → Nat → Int} {b : Int}
    (hf : ForBlock h w fun r c => 0 ≤ f r c ∧ f r c ≤ b) :
    0 ≤ (tabulate h w f).sum ∧ (tabulate h w f).sum ≤ (h * w : Nat) * b := by
  have hmem : ∀ x ∈ tabulate h w f, 0 ≤ x ∧ x ≤ b := by
    intro x hx
    obtain ⟨r, c, hr, hc, rfl⟩ := mem_tabulate.1 hx
    exact hf r c hr hc
  refine ⟨List.sum_nonneg fun x hx => (hmem x hx).1, ?_⟩
  have := List.sum_le_card_nsmul _ b fun x hx => (hmem x hx).2
  rwa [length_tabulate, nsmul_eq_mul] at this

/-- The rounded average of values between 0 and b lies between 0 and b. -/
theorem cflAvg_bounds {ts : TxSize} {q : Nat → Nat → Int} {b : Int}
    (hq : ForBlock ts.height ts.width fun r c => 0 ≤ q r c ∧ q r c ≤ b) :
    0 ≤ cflAvg ts.height ts.width q ∧ cflAvg ts.height ts.width q ≤ b := by
  obtain ⟨hsum0, hsum⟩ := tabulate_sum_bounds hq
  obtain ⟨harea, hlog⟩ := ts.area_eq_two_pow
  rw [Nat.mul_comm ts.height, harea] at hsum
  simp only [cflAvg]
  generalize Nat.log2 (ts.width * ts.height) = n at hlog hsum ⊢
  obtain ⟨k, rfl⟩ : ∃ k, n = k + 1 := ⟨n - 1, by omega⟩
  rw [Nat.add_sub_cancel]
  have hk : (0 : Int) < 2 ^ k := by positivity
  refine ⟨asr_nonneg (by omega) _, ?_⟩
  rw [asr, ← Int.lt_add_one_iff, Int.ediv_lt_iff_lt_mul (by positivity)]
  push_cast at hsum
  rw [pow_succ] at hsum ⊢
  linarith

/-- Q3 of samples below 2^bd lies between 0 and 32760 (42_cfl.md R202). -/
theorem cflQ3_bounds {fmt : ChromaFormat} {L : Nat → Nat → Int} {h w : Nat}
    (hL : ForBlock (h * 2 ^ fmt.ssy) (w * 2 ^ fmt.ssx) fun y x => 0 ≤ L x y ∧ L x y ≤ 4095) :
    ForBlock h w fun r c => 0 ≤ cflQ3 fmt L r c ∧ cflQ3 fmt L r c ≤ 32760 := by
  intro r c hr hc
  cases fmt with
  | f420 =>
    simp only [ChromaFormat.ssy, ChromaFormat.ssx] at hL
    have h00 := hL (2 * r) (2 * c) (by omega) (by omega)
    have h01 := hL (2 * r) (2 * c + 1) (by omega) (by omega)
    have h10 := hL (2 * r + 1) (2 * c) (by omega) (by omega)
    have h11 := hL (2 * r + 1) (2 * c + 1) (by omega) (by omega)
    simp only [cflQ3]
    omega
  | f422 =>
    simp only [ChromaFormat.ssy, ChromaFormat.ssx] at hL
    have h0 := hL r (2 * c) (by omega) (by omega)
    have h1 := hL r (2 * c + 1) (by omega) (by omega)
    simp only [cflQ3]
    omega
  | f444 =>
    simp only [ChromaFormat.ssy, ChromaFormat.ssx] at hL
    have h0 := hL r c (by omega) (by omega)
    simp only [cflQ3]
    omega

/-- CFLAC of samples below 2^bd is at most 32760 in magnitude (42_cfl.md R202). -/
theorem State.abs_cflAcValue_lt {s : State} {f : Bool} {ts : TxSize} {fmt : ChromaFormat} {bd : BitDepth}
    (hreads : ∀ a ∈ s.lumaReads f ts fmt bd, s.sample bd a < 2 ^ bd.bits) :
    ForBlock ts.height ts.width fun r c => |s.cflAcValue f ts fmt bd r c| < 32761 := by
  have hluma : ForBlock (ts.height * 2 ^ fmt.ssy) (ts.width * 2 ^ fmt.ssx) fun y x =>
      0 ≤ s.luma f bd x y ∧ s.luma f bd x y ≤ 4095 := by
    intro y x hy hx
    have hlt := hreads _ (List.mem_map.2 ⟨(y, x), mem_grid.2 ⟨hy, hx⟩, rfl⟩)
    have hlt' : s.luma f bd x y < 2 ^ bd.bits := by unfold State.luma; exact_mod_cast hlt
    have := bd.two_pow_bits_le
    exact ⟨Int.natCast_nonneg _, by omega⟩
  have hq := cflQ3_bounds hluma
  obtain ⟨havg0, havg⟩ := cflAvg_bounds hq
  intro r c hr hc
  obtain ⟨hq0, hq'⟩ := hq r c hr hc
  rw [State.cflAcValue, abs_lt]
  omega

/-- RES of samples below 2^bd is below 2^bd in magnitude (40_transform.md R135). -/
theorem State.abs_residual_lt {s : State} {p : Plane} {ts : TxSize} {bd : BitDepth}
    (hreads : ∀ a ∈ s.residReads p ts bd, s.sample bd a < 2 ^ bd.bits) :
    ForBlock ts.height ts.width fun r c => |s.residual p bd r c| < 2 ^ bd.bits := by
  intro r c hr hc
  have hmem : ∀ a ∈ [s.srcAddr p bd r c, s.predAddr p bd r c], a ∈ s.residReads p ts bd := fun a ha =>
    List.mem_flatMap.2 ⟨(r, c), mem_grid.2 ⟨hr, hc⟩, ha⟩
  have hsrc : (s.sample bd (s.srcAddr p bd r c) : Int) < 2 ^ bd.bits := by
    exact_mod_cast hreads _ (hmem _ (by simp))
  have hpred : (s.sample bd (s.predAddr p bd r c) : Int) < 2 ^ bd.bits := by
    exact_mod_cast hreads _ (hmem _ (by simp))
  rw [State.residual, abs_lt]
  omega

/-! ### Every step keeps the chain of tags, and shapes and ranges -/

/-- A register write keeps the scratch buffers or resets them. -/
theorem State.writeReg_scr (s : State) (r : Reg) (v : Word) :
    (s.writeReg r v).scr = s.scr ∨ (s.writeReg r v).scr = State.reset.scr := by
  rcases s.writeReg_cases r v with h | h | ⟨c, h⟩ <;> rw [h]
  · exact .inr rfl
  · exact .inl rfl
  · exact .inl rfl

/-- An invariant of the scratch buffers alone is kept by every step, if reset meets it and every command's effect keeps it. -/
theorem step_keeps_scratch {I : State → Prop} (hscr : ∀ s t : State, t.scr = s.scr → I s → I t) (hreset : I State.reset)
    (heffect : ∀ i s t, I s → CommandEffect s i t → I t) {s t : State} (hs : I s) (h : step s = .next t) : I t := by
  refine step_keeps_engine (I := I) (fun _ _ => hscr _ _ rfl) (fun _ _ => hscr _ _ rfl)
    (fun _ => hscr State.reset _ rfl hreset) ?_ (fun _ _ _ _ => hscr _ _ rfl)
    (fun i s t hs h => heffect i s t hs (commandEffect_of_effect h)) hs h
  intro s r v hs
  rcases s.writeReg_scr r v with hw | hw
  · exact hscr _ _ hw hs
  · exact hscr _ _ hw hreset

theorem chainOk_of_scr_eq (s t : State) (h : t.scr = s.scr) (hs : ChainOk s) : ChainOk t := by
  unfold ChainOk; rw [h]; exact hs

/-- A producer's input has the tag it sets, and it clears the tags that come after its own (10_state.md R55). -/
theorem CommandEffect.chainOk {i : Instr} {s t : State} (h : CommandEffect s i t) (hs : ChainOk s) : ChainOk t := by
  obtain ⟨hcoef, hqc, hires, hcflac⟩ := hs
  cases h with
  | resid => exact ⟨nofun, nofun, nofun, hcflac⟩
  | ftx htag => exact ⟨fun _ => htag.symm, nofun, nofun, hcflac⟩
  | quant tt htag => exact ⟨hcoef, fun _ => htag.symm, nofun, hcflac⟩
  | itx htag => exact ⟨hcoef, hqc, fun _ => htag.symm, hcflac⟩
  | cflAc => exact ⟨hcoef, hqc, hires, rfl⟩
  | tuClr => exact ⟨nofun, nofun, nofun, hcflac⟩
  | nop | recon | txflag | stcoef | cflPred | dqp => exact ⟨hcoef, hqc, hires, hcflac⟩

/-- Settles O58: after reset no tag is valid, and every command's effect keeps the chain. -/
theorem stepKeepsChainOk : Obligations.StepKeepsChainOk := fun _ _ hs h =>
  step_keeps_scratch chainOk_of_scr_eq ⟨nofun, nofun, nofun, rfl⟩ (fun _ _ _ hs h => h.chainOk hs) hs h

theorem scratchOk_of_scr_eq (s t : State) (h : t.scr = s.scr) (hs : ScratchOk s) : ScratchOk t := by
  unfold ScratchOk; rw [h]; exact hs

/-- The output of a producer is in shape and range if each element is in range. -/
theorem bufferOk_tabulate {p : Plane} {ts : TxSize} {bd : BitDepth} {h w : Nat} {n : TxSize → Nat} {bound : BitDepth → Int}
    {f : Nat → Nat → Int} (hn : n ts = h * w) (hf : ForBlock h w fun r c => |f r c| < bound bd) :
    BufferOk (Tag.of p ts bd) n bound (tabulate h w f) := by
  refine fun _ => ⟨(length_tabulate h w f).trans hn.symm, fun x hx => ?_⟩
  obtain ⟨r, c, hr, hc, rfl⟩ := mem_tabulate.1 hx
  exact hf r c hr hc

theorem State.length_quantized (P : Params) (s : State) (ts : TxSize) (bd : BitDepth) :
    (s.quantized P ts bd).length = ts.codedArea := by
  simp [State.quantized, quantBlock]

/-- Every pair QUANT makes of coefficients below 2^30 is below 2^31 in magnitude. -/
theorem State.quantized_lt {s : State} {ts : TxSize} {bd : BitDepth} (hcoef : ∀ c ∈ s.scr.coef, |c| < 2 ^ 30) :
    ∀ x ∈ s.quantized Config.params ts bd, |x.1| < 2 ^ 31 ∧ |x.2| < 2 ^ 31 := by
  intro x hx
  obtain ⟨rc, _, rfl⟩ := List.mem_map.1 hx
  obtain ⟨hd, hd'⟩ := Config.contract.step.1 s.qindex bd (CoefKind.ofIndex rc)
  refine quantCoef_lt hd (by omega) ts.logScale_le ?_
  rcases lt_or_ge rc s.scr.coef.length with hlt | hge
  · rw [List.getD_eq_getElem _ _ hlt]
    exact hcoef _ (List.getElem_mem hlt)
  · rw [List.getD_eq_default _ _ hge]
    norm_num

/-- One component of QUANT's output, in shape and range. -/
theorem State.bufferOk_quantized {s : State} {p : Plane} {ts : TxSize} {bd : BitDepth} {f : Int × Int → Int}
    (hf : ∀ x ∈ s.quantized Config.params ts bd, |f x| < 2 ^ 31) :
    BufferOk (Tag.of p ts bd) TxSize.codedArea (fun _ => 2 ^ 31) ((s.quantized Config.params ts bd).map f) :=
  fun _ => ⟨(List.length_map f).trans (s.length_quantized _ ts bd), List.forall_mem_map.2 hf⟩

/-- What a producer commits is in shape and range, and a buffer whose tag is cleared owes nothing (10_state.md R53). -/
theorem CommandEffect.scratchOk {i : Instr} {s t : State} (h : CommandEffect s i t) (hs : ScratchOk s) : ScratchOk t := by
  obtain ⟨hres, hcoef, hqcoef, hdqcoef, hires, hcflac, hsize⟩ := hs
  cases h with
  | resid hreads =>
    exact ⟨bufferOk_tabulate rfl (State.abs_residual_lt hreads), nofun, nofun, nofun, nofun, hcflac, hsize⟩
  | ftx htag hbound => exact ⟨hres, bufferOk_tabulate rfl hbound, nofun, nofun, nofun, hcflac, hsize⟩
  | @quant p ts bd tt htag =>
    have hlt := State.quantized_lt (ts := ts) (bd := bd) (hcoef (by rw [htag])).2
    exact ⟨hres, hcoef, State.bufferOk_quantized fun x hx => (hlt x hx).1,
      State.bufferOk_quantized fun x hx => (hlt x hx).2, nofun, hcflac, hsize⟩
  | itx htag hbound => exact ⟨hres, hcoef, hqcoef, hdqcoef, bufferOk_tabulate rfl hbound, hcflac, hsize⟩
  | cflAc hw hh hreads =>
    exact ⟨hres, hcoef, hqcoef, hdqcoef, hires, bufferOk_tabulate rfl (State.abs_cflAcValue_lt hreads), fun _ => ⟨hw, hh⟩⟩
  | tuClr => exact ⟨nofun, nofun, nofun, nofun, nofun, nofun, nofun⟩
  | nop | recon | txflag | stcoef | cflPred | dqp => exact ⟨hres, hcoef, hqcoef, hdqcoef, hires, hcflac, hsize⟩

/-- Settles O59: after reset no tag is valid, and every command's effect keeps shapes and ranges. -/
theorem stepKeepsScratchOk : Obligations.StepKeepsScratchOk := fun _ _ hs h =>
  step_keeps_scratch scratchOk_of_scr_eq ⟨nofun, nofun, nofun, nofun, nofun, nofun, nofun⟩
    (fun _ _ _ hs h => h.scratchOk hs) hs h

end Sys2Proof.Machine

/-! ## Bits of a register word -/

namespace Sys2Proof

theorem getLsbD_of_bits_eq_zero {w : Word} {hi lo i : Nat} (h : bits w hi lo = 0) (hlo : lo ≤ i) (hhi : i ≤ hi) :
    w.getLsbD i = false := by
  have hbit := testBit_bits w hi lo (i - lo)
  rwa [h, Nat.zero_testBit, decide_eq_true (by omega), Bool.true_and, Nat.add_sub_cancel' hlo, eq_comm] at hbit

/-- The bits of w outside the mask m are 0. -/
theorem and_not_eq_zero_iff {w m : Word} :
    w &&& ~~~m = 0 ↔ ∀ i < 32, m.getLsbD i = false → w.getLsbD i = false := by
  constructor
  · intro h i hi hm
    have hbit : (w &&& ~~~m).getLsbD i = false := by rw [h]; exact BitVec.getLsbD_zero
    simpa only [BitVec.getLsbD_and, BitVec.getLsbD_not, hi, hm, decide_true, Bool.not_false, Bool.and_true] using hbit
  · intro h
    refine BitVec.eq_of_getLsbD_eq fun i hi => ?_
    cases hm : m.getLsbD i with
    | true => simp [hi, hm]
    | false => simp [h i hi hm]

theorem and_eq_self_of_and_not {w m : Word} (h : w &&& ~~~m = 0) : w &&& m = w := by
  refine BitVec.eq_of_getLsbD_eq fun i hi => ?_
  cases hm : m.getLsbD i with
  | true => simp [hm]
  | false => simp [and_not_eq_zero_iff.1 h i hi hm]

theorem getLsbD_fieldMask_of_mem {hi lo i : Nat} (h32 : hi < 32) (hlo : lo ≤ i) (hhi : i ≤ hi) :
    (fieldMask hi lo).getLsbD i = true := by
  rw [getLsbD_fieldMask, decide_eq_true (lt_of_le_of_lt hhi h32), decide_eq_true ⟨hlo, hhi⟩, Bool.true_and]

theorem and_and_not_self (w m : Word) : w &&& m &&& ~~~m = 0 :=
  and_not_eq_zero_iff.2 fun i _ hm => by simp [hm]

/-- A value below 2^(hi + 1) has no bit outside the field from hi down to 0. -/
theorem ofNat_and_not_fieldMask {n hi : Nat} (h : n < 2 ^ (hi + 1)) : BitVec.ofNat 32 n &&& ~~~fieldMask hi 0 = 0 := by
  refine and_not_eq_zero_iff.2 fun i hi32 hm => ?_
  simp only [getLsbD_fieldMask, hi32, decide_true, Bool.true_and, decide_eq_false_iff_not] at hm
  have : n < 2 ^ i := lt_of_lt_of_le h (Nat.pow_le_pow_right (by norm_num) (by omega))
  rw [BitVec.getLsbD_ofNat, Nat.testBit_lt_two_pow this, Bool.and_false]

/-- Writing a field inside the mask keeps the bits outside the mask 0. -/
theorem setBits_and_not {w m : Word} {hi lo : Nat} (h : w &&& ~~~m = 0) (hm : ∀ i, lo ≤ i → i ≤ hi → m.getLsbD i = true)
    (v : Nat) : setBits w hi lo v &&& ~~~m = 0 := by
  refine and_not_eq_zero_iff.2 fun i hi32 hmi => ?_
  have hout : ¬ (lo ≤ i ∧ i ≤ hi) := fun ⟨h1, h2⟩ => by rw [hm i h1 h2] at hmi; cases hmi
  rw [getLsbD_setBits, if_neg hout, and_not_eq_zero_iff.1 h i hi32 hmi, Bool.and_false]

end Sys2Proof

namespace Sys2Proof.Machine

theorem toNat_packStatus (err av : Bool) (code opc : Nat) :
    (packStatus err av code opc).toNat =
      err.toNat + av.toNat * 2 ^ 2 + code % 2 ^ 8 * 2 ^ 8 + opc % 2 ^ 8 * 2 ^ 16 := by
  have := err.toNat_le
  have := av.toNat_le
  rw [packStatus, BitVec.toNat_ofNat, Nat.mod_eq_of_lt (by omega)]

/-- The fields of STATUS, from bit 0 up (10_state.md R32). -/
theorem bits_packStatus (err av : Bool) (code opc : Nat) :
    bits (packStatus err av code opc) 0 0 = err.toNat ∧ bits (packStatus err av code opc) 1 1 = 0 ∧
      bits (packStatus err av code opc) 2 2 = av.toNat ∧ bits (packStatus err av code opc) 7 3 = 0 ∧
      bits (packStatus err av code opc) 15 8 = code % 2 ^ 8 ∧ bits (packStatus err av code opc) 23 16 = opc % 2 ^ 8 ∧
      bits (packStatus err av code opc) 31 24 = 0 := by
  have := err.toNat_le
  have := av.toNat_le
  simp only [bits, toNat_packStatus]
  omega

theorem packStatus_and_not (err av : Bool) (code opc : Nat) :
    packStatus err av code opc &&& ~~~Reg.status.implemented = 0 := by
  obtain ⟨_, h1, _, h7, _, _, h31⟩ := bits_packStatus err av code opc
  refine and_not_eq_zero_iff.2 fun i hi hm => ?_
  simp only [Reg.implemented, BitVec.getLsbD_or, getLsbD_fieldMask, Bool.or_eq_false_iff, Bool.and_eq_false_iff,
    decide_eq_false_iff_not] at hm
  rcases (by omega : i = 1 ∨ (3 ≤ i ∧ i ≤ 7) ∨ 24 ≤ i) with hi' | ⟨hlo, hhi⟩ | hlo
  · exact getLsbD_of_bits_eq_zero h1 hi'.ge hi'.le
  · exact getLsbD_of_bits_eq_zero h7 hlo hhi
  · exact getLsbD_of_bits_eq_zero h31 hlo (by omega)

/-- The fields of TU_STATUS, from bit 0 up (10_state.md R52). -/
theorem State.bits_tuStatus (s : State) :
    bits s.tuStatus 0 0 = s.rslt.hc.y.toNat ∧ bits s.tuStatus 1 1 = s.rslt.hc.u.toNat ∧
      bits s.tuStatus 2 2 = s.rslt.hc.v.toNat ∧ bits s.tuStatus 3 3 = s.hcAny.toNat ∧
      bits s.tuStatus 4 4 = s.rslt.qv.y.toNat ∧ bits s.tuStatus 5 5 = s.rslt.qv.u.toNat ∧
      bits s.tuStatus 6 6 = s.rslt.qv.v.toNat ∧ bits s.tuStatus 7 7 = 0 ∧
      bits s.tuStatus 8 8 = s.scr.resTag.valid.toNat ∧ bits s.tuStatus 9 9 = s.scr.coefTag.valid.toNat ∧
      bits s.tuStatus 10 10 = s.scr.qcTag.valid.toNat ∧ bits s.tuStatus 11 11 = s.scr.iresTag.valid.toNat ∧
      bits s.tuStatus 12 12 = s.scr.cflacTag.valid.toNat ∧ bits s.tuStatus 31 13 = 0 := by
  have := s.rslt.hc.y.toNat_le
  have := s.rslt.hc.u.toNat_le
  have := s.rslt.hc.v.toNat_le
  have := s.hcAny.toNat_le
  have := s.rslt.qv.y.toNat_le
  have := s.rslt.qv.u.toNat_le
  have := s.rslt.qv.v.toNat_le
  have := s.scr.resTag.valid.toNat_le
  have := s.scr.coefTag.valid.toNat_le
  have := s.scr.qcTag.valid.toNat_le
  have := s.scr.iresTag.valid.toNat_le
  have := s.scr.cflacTag.valid.toNat_le
  have hsum : s.tuStatus.toNat = _ := (BitVec.toNat_ofNat ..).trans (Nat.mod_eq_of_lt (by omega))
  simp only [bits, hsum]
  omega

theorem State.tuStatus_and_not (s : State) : s.tuStatus &&& ~~~Reg.tuStatus.implemented = 0 := by
  obtain ⟨_, _, _, _, _, _, _, h7, _, _, _, _, _, h31⟩ := s.bits_tuStatus
  refine and_not_eq_zero_iff.2 fun i hi hm => ?_
  simp only [Reg.implemented, BitVec.getLsbD_or, getLsbD_fieldMask, Bool.or_eq_false_iff, Bool.and_eq_false_iff,
    decide_eq_false_iff_not] at hm
  rcases (by omega : i = 7 ∨ 13 ≤ i) with hi' | hlo
  · exact getLsbD_of_bits_eq_zero h7 hi'.ge hi'.le
  · exact getLsbD_of_bits_eq_zero h31 hlo (by omega)

theorem State.readReg_tuStatus (s : State) : s.readReg .tuStatus = s.tuStatus :=
  and_eq_self_of_and_not s.tuStatus_and_not

/-- Settles O30: TU_STATUS has no reserved bit set, so it reads as the sum of its fields, and TU_CLR makes each of them 0. -/
theorem tuClrClearsResults : Obligations.TuClrClearsResults := by
  refine ⟨fun s => ?_, fun s => ⟨s.clearTu, rfl, fun p => ?_, ?_, rfl, rfl, rfl⟩⟩
  · simp only [s.readReg_tuStatus]
    exact s.bits_tuStatus
  · simp only [State.clearTu_rslt, PerPlane.get_all, and_self]
  · rw [State.readReg_tuStatus]
    simp [State.tuStatus, State.hcAny, PerPlane.all]

/-! ## Every step keeps the error registers consistent -/

theorem errorOk_of_err_eq (s t : State) (h : t.err = s.err) (hs : ErrorOk s) : ErrorOk t := by
  unfold ErrorOk State.errFlag State.errAv State.errCode State.errOpc
  rw [h]; exact hs

theorem errorOk_of_err_reset (s : State) (h : s.err = ErrRegs.reset) : ErrorOk s := by
  refine ⟨fun _ => h, fun hf => ?_⟩
  rw [State.errFlag, h] at hf
  cases hf

/-- What the error entry leaves in the fields of STATUS (60_exceptions.md R271). -/
theorem State.errorEntry_status (s : State) (w : Word) (e : CmdError) :
    (s.errorEntry w e).errFlag = true ∧ (s.errorEntry w e).errAv = e.addr.isSome ∧
      (s.errorEntry w e).errCode = e.code.toByte.toNat ∧ (s.errorEntry w e).errOpc = cmdOpc w := by
  obtain ⟨herr, _, hav, _, hcode, hopc, _⟩ := bits_packStatus true e.addr.isSome e.code.toByte.toNat (cmdOpc w)
  simp only [State.errFlag, State.errAv, State.errCode, State.errOpc, State.errorEntry_err, herr, hav, hcode, hopc]
  refine ⟨rfl, ?_, Nat.mod_eq_of_lt e.code.toByte.isLt, Nat.mod_eq_of_lt (bits_lt w 7 0)⟩
  cases e.addr <;> rfl

/-- The error entry of an error that names an address where R271 says. -/
theorem State.errorOk_errorEntry (s : State) (w : Word) {e : CmdError} (he : ErrAddrOk e) : ErrorOk (s.errorEntry w e) := by
  obtain ⟨hflag, hav, hcode, hopc⟩ := s.errorEntry_status w e
  obtain ⟨haddr, hnone⟩ := he
  refine ⟨fun hf => absurd (hflag.symm.trans hf) nofun, fun _ => ?_⟩
  rw [hav, hcode, hopc]
  refine ⟨rfl, ?_, ?_, rfl, fun h => haddr ?_, fun h => ?_, fun h => ?_⟩
  · cases e.code <;> decide
  · cases e.code <;> decide
  · revert h; cases e.code <;> decide
  · rcases hnone h with hc | hc | hc <;> rw [hc] <;> decide
  · rw [Option.isSome_eq_false_iff, Option.isNone_iff_eq_none] at h
    rw [State.errorEntry_err, h]; rfl

/-- Settles O57: an error entry meets the invariant, and everything else a step can do keeps or clears the error
registers. -/
theorem stepKeepsErrorOk : Obligations.StepKeepsErrorOk := fun _ _ hs h => by
  refine step_keeps_engine (I := ErrorOk) (fun _ _ => errorOk_of_err_eq _ _ rfl) (fun _ _ => errorOk_of_err_eq _ _ rfl)
    (fun _ => errorOk_of_err_reset _ rfl) (fun s r v hs => ?_) (fun s w e he _ => s.errorOk_errorEntry w he)
    (fun i s t hs hi => ?_) hs h
  · rcases s.writeReg_err r v with hw | hw
    · exact errorOk_of_err_eq _ _ hw hs
    · exact errorOk_of_err_reset _ hw
  · obtain ⟨_, _, herr⟩ := effect_keeps hi
    exact errorOk_of_err_eq _ _ herr hs

/-! ## Every step keeps the reserved bits 0 -/

theorem and_not_allOnes (w : Word) : w &&& ~~~0xFFFFFFFF = 0 := BitVec.and_zero

theorem Reg.stored_and_not (r : Reg) (v : Word) : r.stored v &&& ~~~r.implemented = 0 := and_and_not_self v _

/-- A register that stores holds the written value less its reserved bits (10_state.md R56). -/
theorem State.regValue_writeReg_self {r : Reg} (h : r ∈ storingRegs) (s : State) (v : Word) :
    (s.writeReg r v).regValue r = r.stored v := by
  cases r with
  | id | ctrl | status | cmd | dqpResult | errAddr | errCmd | tuStatus => exact absurd h (by decide)
  | eob p | nz p | e3qLo p | e3qHi p => cases p <;> exact absurd h (by decide)
  | dqpMin d | dqpAvg d | dqpMax d | dqpWgt d => cases d <;> rfl
  | descBase b p | descStride b p => cases b <;> cases p <;> rfl
  | descOrg b p =>
    cases b with
    | pred => cases p <;> exact absurd h (by decide)
    | src | recon => cases p <;> rfl
  | coefBase p => cases p <;> rfl
  | _ => rfl

/-- A write to a register other than CTRL and STATUS leaves every other register (10_state.md R56, 44_control.md R255). -/
theorem State.regValue_writeReg_of_ne {r q : Reg} (hq : q ≠ r) (hctrl : r ≠ .ctrl) (hstatus : r ≠ .status) (s : State)
    (v : Word) : (s.writeReg r v).regValue q = s.regValue q := by
  cases r with
  | ctrl => exact absurd rfl hctrl
  | status => exact absurd rfl hstatus
  | id | cmd | dqpResult | errAddr | errCmd | eob _ | nz _ | e3qLo _ | e3qHi _ | tuStatus => rfl
  | dqpMin d | dqpAvg d | dqpMax d | dqpWgt d =>
    cases q with
    | dqpMin e | dqpAvg e | dqpMax e | dqpWgt e => cases d <;> cases e <;> first | rfl | exact absurd rfl hq
    | _ => rfl
  | descBase b p | descStride b p =>
    cases q with
    | descBase c q | descStride c q =>
      cases b <;> cases c <;> first | rfl | (cases p <;> cases q <;> first | rfl | exact absurd rfl hq)
    | _ => rfl
  | descOrg b p =>
    cases q with
    | descOrg c q => cases b <;> cases c <;> first | rfl | (cases p <;> cases q <;> first | rfl | exact absurd rfl hq)
    | _ => cases b <;> rfl
  | coefBase p =>
    cases q with
    | coefBase q => cases p <;> cases q <;> first | rfl | exact absurd rfl hq
    | _ => rfl
  | _ => cases q <;> first | rfl | exact absurd rfl hq

theorem State.reservedZero_reset : ReservedZero State.reset := by
  intro r
  cases r with
  | tuStatus => exact State.tuStatus_and_not _
  | dqpMin d | dqpAvg d | dqpMax d | dqpWgt d => cases d <;> decide
  | descBase b p | descStride b p | descOrg b p => cases b <;> cases p <;> decide
  | coefBase p | eob p | nz p | e3qLo p | e3qHi p => cases p <;> decide
  | _ => decide

/-- Of the registers with reserved bits the engine itself writes only six kinds, TU_CFG, QIDX, STATUS, DQP_RESULT, EOB and NZ:
where these keep their reserved bits 0, all registers do. -/
theorem reservedZero_of_engine_writes {s t : State} {tu q : Word} (hs : ReservedZero s)
    (hcfg : t.cfg = { s.cfg with tuCfg := tu, qidx := q })
    (htu : tu &&& ~~~Reg.tuCfg.implemented = 0) (hq : q &&& ~~~Reg.qidx.implemented = 0)
    (hstatus : t.err.status &&& ~~~Reg.status.implemented = 0)
    (hdqp : t.rslt.dqpResult &&& ~~~Reg.dqpResult.implemented = 0)
    (heob : ∀ p, t.rslt.eob.get p &&& ~~~(Reg.eob p).implemented = 0)
    (hnz : ∀ p, t.rslt.nz.get p &&& ~~~(Reg.nz p).implemented = 0) : ReservedZero t := by
  obtain ⟨err, cfg, rslt, scr, mem, adm, port⟩ := t
  subst hcfg
  intro r
  have hr := hs r
  cases r with
  | status => exact hstatus
  | tuCfg => exact htu
  | qidx => exact hq
  | dqpResult => exact hdqp
  | eob p => exact heob p
  | nz p => exact hnz p
  | tuStatus => exact State.tuStatus_and_not _
  | errAddr | errCmd | e3qLo p | e3qHi p => exact and_not_allOnes _
  | descOrg b p => cases b <;> exact hr
  | _ => exact hr

/-- An error clear, an access of the host's side and a write to memory leave every configuration and result register. -/
theorem reservedZero_of_engine_eq {s t : State} (hs : ReservedZero s) (herr : t.err = s.err) (hcfg : t.cfg = s.cfg)
    (hrslt : t.rslt = s.rslt) : ReservedZero t :=
  reservedZero_of_engine_writes (tu := s.cfg.tuCfg) (q := s.cfg.qidx) hs hcfg (hs .tuCfg) (hs .qidx)
     (herr ▸ hs .status) (hrslt ▸ hs .dqpResult)
    (fun p => hrslt ▸ hs (.eob p)) (fun p => hrslt ▸ hs (.nz p))

theorem setTt_and_not {w : Word} (h : w &&& ~~~Reg.tuCfg.implemented = 0) (p : Plane) (v : Nat) :
    setTt w p v &&& ~~~Reg.tuCfg.implemented = 0 := by
  refine setBits_and_not h (fun i hlo hhi => ?_) v
  have hi : i ≤ 21 := by cases p <;> simp only [ttLow] at hhi <;> omega
  exact getLsbD_fieldMask_of_mem (by norm_num) (Nat.zero_le i) hi

theorem forcedTuCfg_and_not {w : Word} (h : w &&& ~~~Reg.tuCfg.implemented = 0) (p : Plane) (m : PredMode) :
    forcedTuCfg w p m &&& ~~~Reg.tuCfg.implemented = 0 := by
  unfold forcedTuCfg
  split
  · exact setTt_and_not (setTt_and_not (setTt_and_not h .y 0) .u 0) .v 0
  · exact setTt_and_not h p 0

theorem dqpResultWord_and_not (qp base : Int) : dqpResultWord qp base &&& ~~~Reg.dqpResult.implemented = 0 := by
  have hbits : bits (dqpResultWord qp base) 15 8 = 0 := by
    simp only [bits, dqpResultWord, BitVec.toNat_ofNat]
    omega
  refine and_not_eq_zero_iff.2 fun i hi hm => ?_
  simp only [Reg.implemented, BitVec.getLsbD_or, getLsbD_fieldMask, Bool.or_eq_false_iff, Bool.and_eq_false_iff,
    decide_eq_false_iff_not] at hm
  exact getLsbD_of_bits_eq_zero hbits (by omega) (by omega)

/-- Setting one plane's register to a value without reserved bits. -/
theorem get_set_and_not {x : PerPlane Word} {m a : Word} (hx : ∀ p, x.get p &&& ~~~m = 0) (ha : a &&& ~~~m = 0)
    (q p : Plane) : (x.set q a).get p &&& ~~~m = 0 := by
  rw [PerPlane.get_set]
  split
  · exact ha
  · exact hx p

theorem CommandEffect.reservedZero {i : Instr} {s t : State} (h : CommandEffect s i t) (hs : ReservedZero s) :
    ReservedZero t := by
  have htu := hs .tuCfg
  have hq := hs .qidx
  have hstatus := hs .status
  have hdqp := hs .dqpResult
  have heob := fun p => hs (.eob p)
  have hnz := fun p => hs (.nz p)
  cases h with
  | @quant p ts bd tt =>
    have harea := ts.codedArea_le
    refine reservedZero_of_engine_writes hs rfl htu hq hstatus hdqp (get_set_and_not heob ?_ p) (get_set_and_not hnz ?_ p)
    · exact ofNat_and_not_fieldMask (lt_of_le_of_lt (eobOf_le _ _ _) (by omega))
    · have hnz_le := nzOf_le ((s.quantized Config.params ts bd).map Prod.fst)
      rw [List.length_map, s.length_quantized] at hnz_le
      exact ofNat_and_not_fieldMask (lt_of_le_of_lt hnz_le (by omega))
  | @txflag p m =>
    refine reservedZero_of_engine_writes hs rfl ?_ hq hstatus hdqp heob hnz
    split
    · exact forcedTuCfg_and_not htu p m
    · exact htu
  | @dqp f qp =>
    refine reservedZero_of_engine_writes hs rfl htu ?_ hstatus (dqpResultWord_and_not _ _) heob hnz
    split
    · exact setBits_and_not hq (fun i hlo hhi => getLsbD_fieldMask_of_mem (by norm_num) hlo hhi) _
    · exact hq
  | tuClr =>
    refine reservedZero_of_engine_writes hs rfl htu hq hstatus hdqp (fun p => ?_) (fun p => ?_) <;>
    · simp only [State.clearTu_rslt, PerPlane.get_all]
      exact BitVec.zero_and
  | _ => exact reservedZero_of_engine_writes hs rfl htu hq hstatus hdqp heob hnz

theorem State.reservedZero_engineReset (s : State) : ReservedZero s.engineReset :=
  reservedZero_of_engine_eq State.reservedZero_reset rfl rfl rfl

theorem State.reservedZero_clearError {s : State} (hs : ReservedZero s) : ReservedZero s.clearError :=
  reservedZero_of_engine_writes (tu := s.cfg.tuCfg) (q := s.cfg.qidx) hs rfl (hs .tuCfg) (hs .qidx) BitVec.zero_and
    (hs .dqpResult) (fun p => hs (.eob p)) (fun p => hs (.nz p))

/-- A store drops the reserved bits of the register it writes (10_state.md R56). -/
theorem State.reservedZero_writeReg {s : State} (hs : ReservedZero s) (r : Reg) (v : Word) :
    ReservedZero (s.writeReg r v) := by
  by_cases hctrl : r = .ctrl
  · subst hctrl
    simp only [State.writeReg, State.writeCtrl]
    split
    · exact s.reservedZero_engineReset
    · intro q
      have hq := hs q
      cases q with
      | ctrl => exact Reg.stored_and_not .ctrl v
      | descOrg b p => cases b <;> exact hq
      | _ => exact hq
  by_cases hstatus : r = .status
  · subst hstatus
    simp only [State.writeReg, State.writeStatus]
    split
    · exact State.reservedZero_clearError hs
    · exact hs
  by_cases hr : r ∈ storingRegs
  · intro q
    by_cases hq : q = r
    · rw [hq, State.regValue_writeReg_self hr]
      exact r.stored_and_not v
    · rw [State.regValue_writeReg_of_ne hq hctrl hstatus]
      exact hs q
  · rw [State.writeReg_of_not_storing hr hctrl hstatus]
    exact hs

theorem State.reservedZero_errorEntry {s : State} (hs : ReservedZero s) (w : Word) (e : CmdError) :
    ReservedZero (s.errorEntry w e) :=
  reservedZero_of_engine_writes (tu := s.cfg.tuCfg) (q := s.cfg.qidx) hs rfl (hs .tuCfg) (hs .qidx)
    (packStatus_and_not _ _ _ _) (hs .dqpResult) (fun p => hs (.eob p)) (fun p => hs (.nz p))

/-- Settles O56: a host write stores no reserved bit, and neither does what the engine writes. -/
theorem stepKeepsReservedZero : Obligations.StepKeepsReservedZero := fun _ _ hs h =>
  step_keeps_engine (I := ReservedZero) (fun _ _ hs => reservedZero_of_engine_eq hs rfl rfl rfl)
    (fun _ _ hs => reservedZero_of_engine_eq hs rfl rfl rfl) State.reservedZero_engineReset
    (fun _ r v hs => State.reservedZero_writeReg hs r v) (fun _ w e _ hs => State.reservedZero_errorEntry hs w e)
    (fun _ _ _ hs hi => (commandEffect_of_effect hi).reservedZero hs) hs h

end Sys2Proof.Machine

/-! PROOFS of the family of 20_memory.md: what commands write to external memory, the address checks, sample addresses. -/

/-! ## What a command writes to memory -/

namespace Sys2Proof.Machine

/-- Writes that stand in an admitted access set stay inside the 2^32 bytes (20_memory.md R70, R77). -/
theorem State.inRange_of_admitted {s : State} {accesses : List Access} {n : Nat} {l : List (Nat × Nat)}
    (hadmit : AllOk accesses s.admits) (hl : ∀ x ∈ l, ⟨x.1, n, .write⟩ ∈ accesses) : ∀ x ∈ l, x.1 + n ≤ 2 ^ 32 :=
  fun x hx => ((s.admits_iff _).1 (hadmit _ (hl x hx))).1

/-- A command leaves memory as it was, or it is a store and makes a list of writes, all inside the 2^32 bytes
(20_memory.md R70, R79). -/
theorem effect_mem_cases {i : Instr} {s t : State} (h : effect i s = .ok t) :
    t.mem = s.mem ∨
    ((∃ p f, i = .recon p f) ∨ (∃ p f, i = .stcoef p f) ∨ ∃ p, i = .cflPred p) ∧
      ∃ n l, (∀ x ∈ l, x.1 + n ≤ 2 ^ 32) ∧ t.mem = Memory.writeAll s.mem n l := by
  cases i with
  | recon p f =>
    obtain ⟨bd, ts, _, _, _, _, hadmit, _, rfl⟩ := recon_ok.1 h
    refine .inr ⟨.inl ⟨p, f, rfl⟩, bd.bytes, _, State.inRange_of_admitted hadmit fun x hx => ?_, rfl⟩
    obtain ⟨rc, hrc, rfl⟩ := List.mem_map.1 hx
    exact List.mem_append_right _ (List.mem_map_of_mem (List.mem_map_of_mem hrc))
  | stcoef p f =>
    obtain ⟨bd, ts, _, _, _, _, hadmit, rfl⟩ := stcoef_ok.1 h
    refine .inr ⟨.inr (.inl ⟨p, f, rfl⟩), 4, _, State.inRange_of_admitted hadmit fun x hx => ?_, rfl⟩
    obtain ⟨k, hk, rfl⟩ := List.mem_map.1 hx
    exact List.mem_map_of_mem hk
  | cflPred p =>
    obtain ⟨bd, ts, _, _, _, _, _, _, _, _, hadmit, _, rfl⟩ := cflPred_ok.1 h
    refine .inr ⟨.inr (.inr ⟨p, rfl⟩), bd.bytes, _, State.inRange_of_admitted hadmit fun x hx => ?_, rfl⟩
    obtain ⟨rc, hrc, rfl⟩ := List.mem_map.1 hx
    exact List.mem_append_right _ (List.mem_map_of_mem (List.mem_map_of_mem hrc))
  | _ => cases commandEffect_of_effect h; exact .inl rfl

/-- Settles O42: an error entry leaves memory alone, and so does the effect of a command that is no store. -/
theorem onlyStoresWriteMemory : Obligations.OnlyStoresWriteMemory := by
  intro i s t h hrecon hstcoef hcflPred a
  rcases exec_cases h with ⟨e, _, rfl⟩ | h
  · rfl
  rcases effect_mem_cases h with hmem | ⟨⟨p, f, rfl⟩ | ⟨p, f, rfl⟩ | ⟨p, rfl⟩, _⟩
  · rw [hmem]
  · exact absurd rfl (hrecon p f)
  · exact absurd rfl (hstcoef p f)
  · exact absurd rfl (hcflPred p)

theorem memoryOk_of_mem_eq (s t : State) (h : t.mem = s.mem) (hs : MemoryOk s) : MemoryOk t := by
  unfold MemoryOk; rw [h]; exact hs

theorem memoryOk_of_effect {i : Instr} {s t : State} (hs : MemoryOk s) (h : effect i s = .ok t) : MemoryOk t := by
  rcases effect_mem_cases h with hmem | ⟨_, n, l, hl, hmem⟩
  · exact memoryOk_of_mem_eq s t hmem hs
  · unfold MemoryOk
    rw [hmem]
    exact Memory.wf_writeAll hs hl

/-- Settles O55: the host's own memory writes and a command's writes stay inside the 2^32 bytes and keep the order, and
nothing else an event can do touches memory. -/
theorem stepKeepsMemoryOk : Obligations.StepKeepsMemoryOk := by
  intro s t hs hstep
  refine step_keeps (fun s => memoryOk_of_mem_eq s _ s.advance_mem) (fun e s t hs h => ?_) hs hstep
  rcases hostEvent_cases h with rfl | ⟨v, rfl⟩ | ⟨n, a, v, hr, rfl⟩ | rfl | ⟨r, v, _, rfl⟩ | ⟨_, w, e, rfl, _⟩ | ⟨_, i, hi⟩
  · exact hs
  · exact hs
  · exact Memory.wf_write v hs hr
  · exact hs
  · exact memoryOk_of_mem_eq s _ (s.writeReg_keeps r v).1 hs
  · exact hs
  · exact memoryOk_of_effect hs hi

end Sys2Proof.Machine

/-! ## Byte order -/

namespace Sys2Proof.Machine

/-- A read is the number its bytes spell, the lowest address least significant (20_memory.md R74). -/
theorem Memory.read_eq_sum (m : Memory) (a n : Nat) :
    Memory.read m a n = ∑ k ∈ Finset.range n, (Memory.readByte m (a + k)).toNat * 2 ^ (8 * k) := by
  induction n generalizing a with
  | zero => rfl
  | succ n ih =>
    have hstep : ∀ k, (Memory.readByte m (a + (k + 1))).toNat * 2 ^ (8 * (k + 1)) =
        256 * ((Memory.readByte m (a + 1 + k)).toNat * 2 ^ (8 * k)) := fun k => by
      rw [Nat.mul_succ, pow_add, Nat.add_assoc, Nat.add_comm 1 k]; ring
    rw [Memory.read, ih, Finset.sum_range_succ', Finset.mul_sum, Nat.add_comm]
    simp only [hstep, Nat.add_zero, Nat.mul_zero, pow_zero, Nat.mul_one]

/-- Settles O52: the law of a byte read after a write, inside the written range and outside it, and a read as a sum. -/
theorem memoryIsLittleEndian : Obligations.MemoryIsLittleEndian := by
  intro m a n v
  refine ⟨fun k hk => ?_, fun b hb => Memory.readByte_write_outside m v hb, Memory.read_eq_sum m a n⟩
  have hin : a ≤ a + k ∧ a + k < a + n := by omega
  rw [Memory.readByte_write, if_pos hin, Nat.add_sub_cancel_left, BitVec.toNat_ofNat, pow_mul]
  exact Nat.mod_mod _ _

end Sys2Proof.Machine

/-! ## The address checks -/

namespace Sys2Proof.Machine

/-- The first bad one of the accesses to a list of sample addresses is at the first bad address of the list. -/
theorem firstBad_of_sampleAccesses {bd : BitDepth} {kind : AccessKind} {reads : List Nat} {ok : Nat → Bool} {a : Access}
    (h : FirstBad (sampleAccesses bd kind reads) (fun x => ok x.addr) a) : FirstBad reads ok a.addr := by
  obtain ⟨pre, post, hl, hpre, ha⟩ := h
  obtain ⟨l₁, l₂, rfl, rfl, hl₂⟩ := List.map_eq_append_iff.1 hl
  obtain ⟨x, l₃, rfl, rfl, _⟩ := List.map_eq_cons_iff.1 hl₂
  exact ⟨l₁, l₃, rfl, fun y hy => hpre _ (List.mem_map_of_mem hy), ha⟩

theorem filter_read_sampleAccesses_read (bd : BitDepth) (as : List Nat) :
    (sampleAccesses bd .read as).filter (fun x => x.kind == .read) = sampleAccesses bd .read as := by
  simp [sampleAccesses]

theorem filter_read_sampleAccesses_write (bd : BitDepth) (as : List Nat) :
    (sampleAccesses bd .write as).filter (fun x => x.kind == .read) = [] := by
  simp [sampleAccesses]

/-- The reads of an access set that reads samples and then writes them. -/
theorem filter_read_sampleAccesses_append (bd : BitDepth) (as bs : List Nat) :
    (sampleAccesses bd .read as ++ sampleAccesses bd .write bs).filter (fun x => x.kind == .read) =
      sampleAccesses bd .read as := by
  rw [List.filter_append, filter_read_sampleAccesses_read, filter_read_sampleAccesses_write, List.append_nil]

theorem needCfl_intra {ts : TxSize} (hw : ts.width ≤ 32) (hh : ts.height ≤ 32) : needCfl ts .intra = .ok () :=
  needCfl_eq_ok.2 ⟨rfl, hw, hh⟩

/-- A memory command whose register checks pass is the checks of its access set, then of its sample reads, then its commit
(20_memory.md R77, 60_exceptions.md R272). -/
theorem effect_of_memoryAccesses {i : Instr} {s : State} {bd : BitDepth} {accesses : List Access}
    (h : MemoryAccesses i s bd accesses) : ∃ (reads : List Nat) (commit : Except CmdError State),
      (accesses.filter fun x => x.kind == .read) = sampleAccesses bd .read reads ∧
      effect i s = (do s.checkAccesses accesses; s.checkSamples bd reads; commit) := by
  obtain ⟨ts, hbd, hts, h⟩ := h
  have hbd : s.needBitDepth = .ok bd := (decoded_eq_ok _ _ _).2 hbd
  have hts : s.needTxSize = .ok ts := (decoded_eq_ok _ _ _).2 hts
  cases i with
  | resid p =>
    subst h
    exact ⟨s.residReads p ts bd, _, filter_read_sampleAccesses_read _ _, by
      rw [effect, resid, hbd, ok_bind, hts, ok_bind]; rfl⟩
  | recon p f =>
    obtain ⟨htag, rfl⟩ := h
    have htag : (f || s.scr.iresTag.accepts p ts bd) = true := by simpa using htag
    exact ⟨s.predReads p ts bd, _, filter_read_sampleAccesses_append _ _ _, by
      rw [effect, recon, hbd, ok_bind, hts, ok_bind, htag, require_true, ok_bind]; rfl⟩
  | stcoef p f =>
    obtain ⟨htag, rfl⟩ := h
    exact ⟨[], _, by simp [sampleAccesses], by
      rw [effect, stcoef, hbd, ok_bind, hts, ok_bind, needTag, htag, require_true, ok_bind]; rfl⟩
  | cflAc f =>
    obtain ⟨hm, hw, hh, fmt, hfmt, rfl⟩ := h
    have hm : s.needPredMode = .ok .intra := (decoded_eq_ok _ _ _).2 hm
    have hfmt : s.needChromaFormat = .ok fmt := (decoded_eq_ok _ _ _).2 hfmt
    exact ⟨s.lumaReads f ts fmt bd, _, filter_read_sampleAccesses_read _ _, by
      rw [effect, cflAc, hbd, ok_bind, hfmt, ok_bind, hts, ok_bind, hm, ok_bind, needCfl_intra hw hh, ok_bind]; rfl⟩
  | cflPred p =>
    obtain ⟨hp, hm, hw, hh, htag, rfl⟩ := h
    have hp : (p != .y) = true := bne_iff_ne.2 hp
    have hm : s.needPredMode = .ok .intra := (decoded_eq_ok _ _ _).2 hm
    exact ⟨s.dcReads p ts bd, _, filter_read_sampleAccesses_append _ _ _, by
      rw [effect, cflPred, hp, require_true, ok_bind, hbd, ok_bind, hts, ok_bind, hm, ok_bind, needCfl_intra hw hh, ok_bind,
        needTag, htag, require_true, ok_bind]; rfl⟩
  | _ => exact h.elim

/-- Settles O26: the checks of a memory command run in the order ALIGN, BUS, RANGE, and each names its first bad element. -/
theorem addressErrorsInOrder : Obligations.AddressErrorsInOrder := by
  intro i s bd accesses a h
  obtain ⟨reads, commit, hreads, heff⟩ := effect_of_memoryAccesses h
  refine ⟨fun hbad => exec_of_error ?_, fun halign => ⟨fun hbad => exec_of_error ?_, fun hadmit hbad => exec_of_error ?_⟩⟩
  · rw [heff, State.checkAccesses, checkAlign_of_firstBad hbad]; rfl
  · rw [heff, State.checkAccesses, (checkAlign_eq_ok _ ()).2 halign, ok_bind, State.checkBus_of_firstBad hbad]; rfl
  · have hbad : FirstBad reads (fun x => decide (s.sample bd x < 2 ^ bd.bits)) a.addr :=
      firstBad_of_sampleAccesses (hreads ▸ hbad)
    rw [heff, (s.checkAccesses_eq_ok _ ()).2 ⟨halign, hadmit⟩, ok_bind, State.checkSamples_of_firstBad hbad]; rfl

end Sys2Proof.Machine

/-! ## Sample addresses -/

namespace Sys2Proof.Machine

theorem bits_word (w : Word) : bits w 31 0 = w.toNat := by
  have h := w.isLt
  simp only [bits]; omega

theorem bits_lowHalf (w : Word) : bits w 15 0 = w.toNat % 2 ^ 16 := by simp [bits]

theorem bits_highHalf (w : Word) : bits w 31 16 = w.toNat / 2 ^ 16 := by
  have h := w.isLt
  simp only [bits]; omega

theorem BitDepth.bytes_eq (bd : BitDepth) : bd.bytes = if bd = .b8 then 1 else 2 := by cases bd <;> rfl

/-- All 32 bits of DESC_ORG are implemented, for the two buffers that have one (10_state.md R43). -/
theorem State.readReg_descOrg {b : Buf} (hb : b ≠ .pred) (s : State) (p : Plane) :
    s.readReg (.descOrg b p) = s.descOrg b p := by
  cases b with
  | pred => exact absurd rfl hb
  | src | recon => exact BitVec.and_allOnes

/-- SampleAddr with its register fields as numbers (20_memory.md R75). -/
theorem State.sampleAddr_eq (s : State) (b : Buf) (p : Plane) (bd : BitDepth) (x y : Nat) :
    s.sampleAddr b p bd x y = ((s.cfg.descBase.get b).get p).toNat +
      (((s.descOrg b p).toNat / 2 ^ 16 + y) * (((s.cfg.descStride.get b).get p).toNat % 2 ^ 16) +
        ((s.descOrg b p).toNat % 2 ^ 16 + x)) * (if bd = .b8 then 1 else 2) := by
  simp only [State.sampleAddr, bits_word, bits_lowHalf, bits_highHalf, BitDepth.bytes_eq]

/-- Settles O28: the origin is the register's value where the buffer has one, and 0 for PRED. -/
theorem sampleAddressFormula : Obligations.SampleAddressFormula := by
  intro s p bd x y
  refine ⟨fun b hb => ?_, ?_⟩
  · rw [s.readReg_descOrg hb, s.sampleAddr_eq]
  · have horg : (s.descOrg .pred p).toNat = 0 := rfl
    rw [s.sampleAddr_eq, horg]
    simp only [Nat.zero_div, Nat.zero_mod, Nat.zero_add]

end Sys2Proof.Machine

/-! PROOFS of the family of 30_encoding.md: decoding and encoding, dispatch, the size and type codes. -/

/-! ## The fields of a command word -/

namespace Sys2Proof

theorem cmdPlane_lt (w : Word) : cmdPlane w < 4 := bits_lt w 9 8

theorem cmdFlag_lt (w : Word) : cmdFlag w < 2 := bits_lt w 10 10

/-- A word whose reserved bits are 0 is the word of its own fields (30_encoding.md R100). -/
theorem cmdWord_fields {w : Word} (h : cmdRsvd w = 0) : cmdWord (cmdOpc w) (cmdPlane w) (cmdFlag w) = w := by
  refine BitVec.eq_of_toNat_eq ?_
  have hw := w.isLt
  rw [cmdWord, BitVec.toNat_ofNat]
  simp only [cmdRsvd, cmdOpc, cmdPlane, cmdFlag, bits] at h ⊢
  omega

/-- FLAG is one bit, so nothing of it is lost in the form of a command. -/
theorem toNat_flag_eq_one {f : Nat} (h : f < 2) : (f == 1).toNat = f := by
  obtain rfl | rfl : f = 0 ∨ f = 1 := by omega
  all_goals rfl

/-! ### The checks of PLANE and FLAG (30_encoding.md R101) -/

theorem unusedPlane_eq_ok {p : Nat} {k : Except ErrCode Instr} {i : Instr} :
    unusedPlane p k = .ok i ↔ p = 0 ∧ k = .ok i := by
  by_cases hp : p = 0 <;> simp [unusedPlane, hp]

theorem unusedPlane_eq_error {p : Nat} {k : Except ErrCode Instr} {c : ErrCode} :
    unusedPlane p k = .error c ↔ (p ≠ 0 ∧ c = .rsvd) ∨ (p = 0 ∧ k = .error c) := by
  by_cases hp : p = 0 <;> simp [unusedPlane, hp, eq_comm]

/-- FLAG is checked as PLANE is: the two definitions have one body. -/
theorem unusedFlag_eq_ok {f : Nat} {k : Except ErrCode Instr} {i : Instr} :
    unusedFlag f k = .ok i ↔ f = 0 ∧ k = .ok i := unusedPlane_eq_ok

theorem unusedFlag_eq_error {f : Nat} {k : Except ErrCode Instr} {c : ErrCode} :
    unusedFlag f k = .error c ↔ (f ≠ 0 ∧ c = .rsvd) ∨ (f = 0 ∧ k = .error c) := unusedPlane_eq_error

theorem exists_plane_of_usedPlane {p : Nat} {k : Plane → Instr} {i : Instr} (h : usedPlane p k = .ok i) :
    ∃ q : Plane, q.index = p ∧ k q = i := by
  unfold usedPlane at h
  split at h
  · exact ⟨.y, rfl, Except.ok.inj h⟩
  · exact ⟨.u, rfl, Except.ok.inj h⟩
  · exact ⟨.v, rfl, Except.ok.inj h⟩
  · cases h

theorem exists_plane_of_usedChroma {p : Nat} {k : Plane → Instr} {i : Instr} (h : usedChroma p k = .ok i) :
    ∃ q : Plane, q ≠ .y ∧ q.index = p ∧ k q = i := by
  unfold usedChroma at h
  split at h
  · exact ⟨.u, nofun, rfl, Except.ok.inj h⟩
  · exact ⟨.v, nofun, rfl, Except.ok.inj h⟩
  · cases h

theorem usedPlane_eq_error {p : Nat} {k : Plane → Instr} {c : ErrCode} :
    usedPlane p k = .error c ↔ 3 ≤ p ∧ c = .badPlane :=
  match p with
  | 0 | 1 | 2 => by simp [usedPlane]
  | _ + 3 => by simp [usedPlane, eq_comm]

theorem usedChroma_eq_error {p : Nat} {k : Plane → Instr} {c : ErrCode} :
    usedChroma p k = .error c ↔ (p = 0 ∨ 3 ≤ p) ∧ c = .badPlane :=
  match p with
  | 1 | 2 => by simp [usedChroma]
  | 0 | _ + 3 => by simp [usedChroma, eq_comm]

/-! ### The opcode map (30_encoding.md R102) -/

theorem decodeOpc_of_ge {opc : Nat} (h : 0x0C ≤ opc) (p f : Nat) : decodeOpc opc p f = .error .badOpc := by
  unfold decodeOpc
  split
  case h_13 => rfl
  all_goals omega

/-- The fields of a command that the opcode map accepts are the fields of its own word: the fields that a
command does not carry are 0. -/
theorem wf_and_encode_of_decodeOpc {opc p f : Nat} {i : Instr} (hf : f < 2) (h : decodeOpc opc p f = .ok i) :
    i.wf = true ∧ encode i = cmdWord opc p f := by
  unfold decodeOpc at h
  split at h
  case h_1 | h_12 =>
    rw [unusedPlane_eq_ok, unusedFlag_eq_ok] at h
    obtain ⟨rfl, rfl, h⟩ := h
    cases h; exact ⟨rfl, rfl⟩
  case h_2 | h_3 | h_4 | h_5 | h_7 =>
    obtain ⟨rfl, h⟩ := unusedFlag_eq_ok.1 h
    obtain ⟨q, rfl, rfl⟩ := exists_plane_of_usedPlane h
    exact ⟨rfl, rfl⟩
  case h_6 | h_8 =>
    obtain ⟨q, rfl, rfl⟩ := exists_plane_of_usedPlane h
    exact ⟨rfl, by rw [encode, toNat_flag_eq_one hf]⟩
  case h_9 | h_11 =>
    obtain ⟨rfl, h⟩ := unusedPlane_eq_ok.1 h
    cases h; exact ⟨rfl, by rw [encode, toNat_flag_eq_one hf]⟩
  case h_10 =>
    obtain ⟨rfl, h⟩ := unusedFlag_eq_ok.1 h
    obtain ⟨q, hq, rfl, rfl⟩ := exists_plane_of_usedChroma h
    exact ⟨bne_iff_ne.2 hq, rfl⟩
  case h_13 => cases h

/-- PLANE or FLAG is not 0 where the opcode does not use it (30_encoding.md R101, R102). -/
def UnusedFieldSet (opc p f : Nat) : Prop :=
  (opc ∈ [0x00, 0x08, 0x0A, 0x0B] ∧ p ≠ 0) ∨ (opc ∉ [0x05, 0x07, 0x08, 0x0A] ∧ f ≠ 0)

/-- The errors of the opcode map at an assigned opcode: RSVD for an unused field first, then BAD_PLANE. Each of the twelve
opcodes has its own sequence of checks, whose errors the lemmas above give. -/
theorem decodeOpc_eq_error {opc p f : Nat} {c : ErrCode} (hopc : opc < 0x0C) (hp : p < 4) :
    decodeOpc opc p f = .error c ↔
      (UnusedFieldSet opc p f ∧ c = .rsvd) ∨
      (¬ UnusedFieldSet opc p f ∧ (p = 3 ∨ (opc = 0x09 ∧ p = 0)) ∧ c = .badPlane) := by
  have h3 : 3 ≤ p ↔ p = 3 := by omega
  interval_cases opc <;>
    simp only [decodeOpc, UnusedFieldSet, unusedPlane_eq_error, unusedFlag_eq_error, usedPlane_eq_error,
      usedChroma_eq_error, h3] <;> grind

/-! ### Decoding a word -/

theorem decode_eq_ok_iff {w : Word} {i : Instr} :
    decode w = .ok i ↔ cmdRsvd w = 0 ∧ decodeOpc (cmdOpc w) (cmdPlane w) (cmdFlag w) = .ok i := by
  unfold decode
  split
  case isTrue hopc => simp [decodeOpc_of_ge hopc]
  case isFalse => by_cases hrsvd : cmdRsvd w = 0 <;> simp [hrsvd]

/-- A bit of [31:11], or of PLANE or FLAG where the opcode does not use it, is not 0. -/
def ReservedFieldSet (w : Word) : Prop := cmdRsvd w ≠ 0 ∨ UnusedFieldSet (cmdOpc w) (cmdPlane w) (cmdFlag w)

/-- The order of dispatch (30_encoding.md R101): the opcode, then the reserved fields, then the plane. -/
theorem decode_eq_error_iff {w : Word} {c : ErrCode} :
    decode w = .error c ↔
      (0x0C ≤ cmdOpc w ∧ c = .badOpc) ∨ (cmdOpc w < 0x0C ∧ ReservedFieldSet w ∧ c = .rsvd) ∨
      (cmdOpc w < 0x0C ∧ ¬ ReservedFieldSet w ∧ (cmdPlane w = 3 ∨ (cmdOpc w = 0x09 ∧ cmdPlane w = 0)) ∧
        c = .badPlane) := by
  unfold decode ReservedFieldSet
  split
  case isTrue hopc => simp [hopc, eq_comm]
  case isFalse hopc =>
    have hopc : cmdOpc w < 0x0C := Nat.not_le.1 hopc
    by_cases hrsvd : cmdRsvd w = 0
    · simp [hopc, hrsvd, decodeOpc_eq_error hopc (cmdPlane_lt w)]
    · simp [hopc, hrsvd, eq_comm]

theorem decode_encode {i : Instr} (h : i.wf = true) : decode (encode i) = .ok i := by
  cases i with
  | nop | tuClr => rfl
  | resid p | ftx p | quant p | itx p | txflag p => cases p <;> rfl
  | recon p f | stcoef p f => cases p <;> cases f <;> rfl
  | cflAc f | dqp f => cases f <;> rfl
  | cflPred p =>
    cases p with
    | y => cases h
    | u | v => rfl

theorem wf_and_encode_of_decode {w : Word} {i : Instr} (h : decode w = .ok i) : i.wf = true ∧ encode i = w := by
  obtain ⟨hrsvd, h⟩ := decode_eq_ok_iff.1 h
  obtain ⟨hwf, henc⟩ := wf_and_encode_of_decodeOpc (cmdFlag_lt w) h
  exact ⟨hwf, henc.trans (cmdWord_fields hrsvd)⟩

/-- Settles O1: a decoded word has the fields of the command's own word, and every legal command decodes from its word. -/
theorem decodeIsInverseOfEncode : Obligations.DecodeIsInverseOfEncode := by
  intro w i
  constructor
  · exact wf_and_encode_of_decode
  · rintro ⟨hwf, rfl⟩
    exact decode_encode hwf

/-- Settles O3: `decode_eq_error_iff` at each of the three codes. -/
theorem dispatchErrorsInOrder : Obligations.DispatchErrorsInOrder := by
  intro w
  simp only [decode_eq_error_iff, reduceCtorEq, and_false, and_true, or_false, false_or]
  exact ⟨Iff.rfl, Iff.rfl, Iff.rfl⟩

/-- Settles O2: the words are literals, so each is decoded by evaluation. -/
theorem tableWordsDecode : Obligations.TableWordsDecode := by
  unfold Obligations.TableWordsDecode
  decide

end Sys2Proof

/-! ## A CMD write -/

namespace Sys2Proof.Machine

/-- The step of a CMD write issues the word, after the access has been taken (30_encoding.md R101, 10_state.md R33). -/
theorem step_of_cmdWrite {s : State} {w : Word} {rest : List HostEvent}
    (h : s.port.pending = .regWrite 32 0x00C w :: rest) :
    step s = issue w { s with port := { s.port with pending := rest, pos := s.port.pos + 1 } } := by
  rw [step_of_pending h, s.advance_of_pending h]
  rfl

theorem issue_of_ok {s : State} {w : Word} {i : Instr} (hf : s.errFlag = false) (h : decode w = .ok i) :
    issue w s = exec i s := by
  simp only [issue, hf, h, Bool.false_eq_true, if_false]

theorem issue_of_error {s : State} {w : Word} {c : ErrCode} (hf : s.errFlag = false) (h : decode w = .error c) :
    issue w s = .next (s.errorEntry w ⟨c, none⟩) := by
  simp only [issue, hf, h, Bool.false_eq_true, if_false]

/-- STATUS after an error that names no address (60_exceptions.md R271): code and opcode fit their fields. -/
theorem packStatus_error (c : ErrCode) (w : Word) :
    packStatus true false c.toByte.toNat (cmdOpc w) =
      BitVec.ofNat 32 (1 + c.toByte.toNat * 2 ^ 8 + bits w 7 0 * 2 ^ 16) := by
  rw [packStatus, Nat.mod_eq_of_lt c.toByte.isLt, Nat.mod_eq_of_lt (show cmdOpc w < 2 ^ 8 from bits_lt w 7 0)]
  rfl

/-- Settles O5: taking the access leaves ERR at 0, so the word is decoded and its command runs. -/
theorem stepRunsDecodedCommand : Obligations.StepRunsDecodedCommand := by
  intro s w i rest hpending hf hdec
  exact (step_of_cmdWrite hpending).trans (issue_of_ok hf hdec)

/-- Settles O6: the error entry of a dispatch error, with STATUS written out. -/
theorem stepRecordsDispatchError : Obligations.StepRecordsDispatchError := by
  intro s w c rest hpending hf hdec
  rw [← packStatus_error]
  exact (step_of_cmdWrite hpending).trans (issue_of_error hf hdec)

end Sys2Proof.Machine

/-! ## Transform sizes and types -/

namespace Sys2Proof

/-- exists(kernel, n) of the kernels that R106 gives a set of lengths for. -/
theorem Kernel.existsAt_iff {k : Kernel} (hk : k ≠ .wht) (n : Nat) :
    k.existsAt n = true ↔ (k = .dct ∧ n ∈ [4, 8, 16, 32, 64]) ∨ ((k = .adst ∨ k = .flipadst) ∧ n ∈ [4, 8, 16]) ∨
      (k = .identity ∧ n ∈ [4, 8, 16, 32]) := by
  cases k with
  | wht => exact absurd rfl hk
  | _ => simp [Kernel.existsAt, or_assoc]

theorem TxType.kernels_ne_wht {tt : TxType} (h : tt ≠ .whtWht) : tt.vertical ≠ .wht ∧ tt.horizontal ≠ .wht := by
  cases tt with
  | whtWht => exact absurd rfl h
  | _ => exact ⟨nofun, nofun⟩

theorem txValid_whtWht (ts : TxSize) : txValid ts .whtWht = true ↔ ts = .tx4x4 := by
  rw [txValid, if_pos rfl, decide_eq_true_iff]

theorem txValid_of_ne_whtWht {tt : TxType} (h : tt ≠ .whtWht) (ts : TxSize) :
    txValid ts tt = true ↔ (ts.width = 64 ∨ ts.height = 64 → tt = .dctDct) ∧ tt.vertical.existsAt ts.height = true ∧
      tt.horizontal.existsAt ts.width = true := by
  rw [txValid, if_neg h]
  split
  case isTrue h64 => simp [h64]
  case isFalse h64 =>
    have h64 : ts.width = 64 ∨ ts.height = 64 → tt = .dctDct := by simpa using h64
    rw [Bool.and_eq_true, and_iff_right h64]

/-- Settles O53: the two code tables by evaluation, TX_VALID by its two rules. -/
theorem txValidPairs : Obligations.TxValidPairs := by
  refine ⟨by decide, by decide, fun ts tt => ⟨txValid_whtWht ts, fun htt => ?_⟩⟩
  obtain ⟨hv, hh⟩ := TxType.kernels_ne_wht htt
  rw [txValid_of_ne_whtWht htt, Kernel.existsAt_iff hv, Kernel.existsAt_iff hh]

end Sys2Proof

/-! PROOFS of the family of 40_transform.md: the checks of the transform and memory commands, what each of them completes
with, and the lossless pair. -/

/-! ## The order of the checks -/

namespace Sys2Proof.Machine

/-- A command that begins with the checks CFG and TXSZ raises BAD_CFG, else BAD_TXSZ, else the error of what follows
(40_transform.md R130). -/
theorem exec_of_sizeChecks {i : Instr} {s : State} {k : BitDepth → TxSize → Except CmdError State}
    (h : effect i s = (do let bd ← s.needBitDepth; let ts ← s.needTxSize; k bd ts)) :
    (s.bitDepth = none → exec i s = .next (s.failed i .badCfg none)) ∧
    ∀ bd, s.bitDepth = some bd →
      (s.txSize = none → exec i s = .next (s.failed i .badTxsz none)) ∧
      ∀ ts, s.txSize = some ts → ∀ c, k bd ts = .error ⟨c, none⟩ → exec i s = .next (s.failed i c none) := by
  rw [State.needBitDepth, State.needTxSize] at h
  refine ⟨fun hbd => exec_of_error ?_, fun bd hbd => ⟨fun hts => exec_of_error ?_, fun ts hts c hk => exec_of_error ?_⟩⟩
  · rw [h, hbd]; rfl
  · rw [h, hbd, hts]; rfl
  · rw [h, hbd, hts]; exact hk

/-- A command that also checks the type of plane p and then its input tag raises BAD_TXTYPE next, else SEQ
(40_transform.md R130, 10_state.md R55). -/
theorem exec_of_transformChecks {i : Instr} {p : Plane} {s : State} {input : Tag}
    {k : BitDepth → TxSize → TxType → Except CmdError State}
    (h : effect i s = (do
      let bd ← s.needBitDepth
      let ts ← s.needTxSize
      let tt ← s.needTxType p ts
      needTag input p ts bd
      k bd ts tt)) :
    (s.bitDepth = none → exec i s = .next (s.failed i .badCfg none)) ∧
    ∀ bd, s.bitDepth = some bd →
      (s.txSize = none → exec i s = .next (s.failed i .badTxsz none)) ∧
      ∀ ts, s.txSize = some ts →
        (s.txType p ts = none → exec i s = .next (s.failed i .badTxtype none)) ∧
        ∀ tt, s.txType p ts = some tt → input.accepts p ts bd = false → exec i s = .next (s.failed i .seq none) := by
  obtain ⟨hcfg, hsize⟩ := exec_of_sizeChecks h
  refine ⟨hcfg, fun bd hbd => ⟨(hsize bd hbd).1, fun ts hts => ⟨fun htt => ?_, fun tt htt htag => ?_⟩⟩⟩ <;>
    refine (hsize bd hbd).2 ts hts _ ?_
  · rw [State.needTxType, htt]; rfl
  · rw [State.needTxType, htt, needTag, htag]; rfl

/-- Settles O22: the three transform commands share their checks and differ in the input tag. -/
theorem transformChecksInOrder : Obligations.TransformChecksInOrder := by
  intro p s i hi
  simp only [List.mem_cons, List.not_mem_nil, or_false] at hi
  rcases hi with rfl | rfl | rfl
  · exact exec_of_transformChecks (input := s.scr.resTag) rfl
  · exact exec_of_transformChecks (input := s.scr.coefTag) rfl
  · exact exec_of_transformChecks (input := s.scr.qcTag) rfl

/-- Settles O24: the three commands share the checks CFG and TXSZ; SEQ comes next in RECON without FLAG and in STCOEF. -/
theorem memoryCommandChecksInOrder : Obligations.MemoryCommandChecksInOrder := by
  intro p f s i hi
  simp only [List.mem_cons, List.not_mem_nil, or_false] at hi
  rcases hi with rfl | rfl | rfl
  · obtain ⟨hcfg, hsize⟩ := exec_of_sizeChecks (i := .resid p) (s := s) rfl
    exact ⟨hcfg, fun bd hbd => ⟨(hsize bd hbd).1, fun ts hts => ⟨nofun, nofun⟩⟩⟩
  · obtain ⟨hcfg, hsize⟩ := exec_of_sizeChecks (i := .recon p f) (s := s) rfl
    refine ⟨hcfg, fun bd hbd => ⟨(hsize bd hbd).1, fun ts hts => ⟨fun hi htag => ?_, nofun⟩⟩⟩
    cases hi
    refine (hsize bd hbd).2 ts hts _ ?_
    rw [htag]; rfl
  · obtain ⟨hcfg, hsize⟩ := exec_of_sizeChecks (i := .stcoef p f) (s := s) rfl
    refine ⟨hcfg, fun bd hbd => ⟨(hsize bd hbd).1, fun ts hts => ⟨nofun, fun _ htag => ?_⟩⟩⟩
    refine (hsize bd hbd).2 ts hts _ ?_
    rw [needTag, htag]; rfl

theorem allBelow_eq_false {h w : Nat} {b : Int} {f : Nat → Nat → Int}
    (hbad : ∃ r c, r < h ∧ c < w ∧ b ≤ |f r c|) : allBelow h w b f = false := by
  obtain ⟨r, c, hr, hc, hb⟩ := hbad
  rw [← Bool.not_eq_true, allBelow_iff]
  exact fun hall => absurd (hall r c hr hc) (not_lt.2 hb)

/-- Settles O23: with every register check passed, FTX and ITX come to the check of their outputs, which fails. -/
theorem transformRangeErrors : Obligations.TransformRangeErrors := by
  refine ⟨fun p s => ⟨rfl, rfl⟩, fun P p s bd ts tt hbd hts htt => ⟨fun htag hbad => ?_, fun htag hbad => ?_⟩⟩
  · have hbad : allBelow ts.codedHeight ts.codedWidth (2 ^ 30) (s.forward P ts tt bd) = false := allBelow_eq_false hbad
    simp only [ftx, State.needBitDepth, State.needTxSize, State.needTxType, needTag, hbd, hts, htt, htag, hbad, decoded_some,
      ok_bind, require_true, require_false, error_bind]
  · have hbad : allBelow ts.height ts.width (2 ^ 31) (s.inverse P ts tt bd) = false := allBelow_eq_false hbad
    simp only [itx, State.needBitDepth, State.needTxSize, State.needTxType, needTag, hbd, hts, htt, htag, hbad, decoded_some,
      ok_bind, require_true, require_false, error_bind]

end Sys2Proof.Machine

/-! ## Positions of a block in loop order -/

namespace Sys2Proof.Machine

/-- The positions of a block stand in rising raster order. -/
theorem grid_pairwise (h w : Nat) : (grid h w).Pairwise fun a b => a.1 * w + a.2 < b.1 * w + b.2 := by
  refine List.pairwise_map.2 (List.pairwise_lt_range.imp fun {i j} hij => ?_)
  rwa [Nat.div_add_mod', Nat.div_add_mod']

theorem grid_nodup (h w : Nat) : (grid h w).Nodup :=
  (grid_pairwise h w).imp fun hab => by rintro rfl; exact lt_irrefl _ hab

theorem toFinset_grid (h w : Nat) : (grid h w).toFinset = Finset.range h ×ˢ Finset.range w := by
  ext ⟨r, c⟩
  simp only [List.mem_toFinset, mem_grid, Finset.mem_product, Finset.mem_range]

/-- The loop over a block cut at one position: every position after it has a greater raster index. -/
theorem grid_split {h w r c : Nat} (hr : r < h) (hc : c < w) :
    ∃ pre post, grid h w = pre ++ (r, c) :: post ∧
      ∀ x ∈ post, x.1 < h ∧ x.2 < w ∧ r * w + c < x.1 * w + x.2 := by
  obtain ⟨pre, post, hsplit⟩ := List.append_of_mem (mem_grid.2 ⟨hr, hc⟩)
  refine ⟨pre, post, hsplit, fun x hx => ?_⟩
  have hmem : x ∈ grid h w := by rw [hsplit]; exact List.mem_append_right _ (List.mem_cons_of_mem _ hx)
  have hpw := grid_pairwise h w
  rw [hsplit, List.pairwise_append, List.pairwise_cons] at hpw
  obtain ⟨_, ⟨hlater, _⟩, _⟩ := hpw
  exact ⟨(mem_grid.1 hmem).1, (mem_grid.1 hmem).2, hlater x hx⟩

end Sys2Proof.Machine

/-! ## RESID -/

namespace Sys2Proof.Machine

theorem State.forall_residReads {s : State} {p : Plane} {ts : TxSize} {bd : BitDepth} {P : Nat → Prop}
    (h : ForBlock ts.height ts.width fun r c => P (s.srcAddr p bd r c) ∧ P (s.predAddr p bd r c)) :
    ∀ a ∈ s.residReads p ts bd, P a := by
  intro a ha
  obtain ⟨⟨r, c⟩, hrc, ha⟩ := List.mem_flatMap.1 ha
  obtain ⟨hr, hc⟩ := mem_grid.1 hrc
  simp only [List.mem_cons, List.not_mem_nil, or_false] at ha
  rcases ha with rfl | rfl
  · exact (h r c hr hc).1
  · exact (h r c hr hc).2

/-- Settles O31: readable samples pass every check, and RES is the table of the differences. -/
theorem residWritesDifference : Obligations.ResidWritesDifference := by
  intro p s bd ts hbd hts hread
  obtain ⟨halign, hadmit, hrange⟩ := State.checks_of_readable (State.forall_residReads hread)
  refine ⟨_, exec_of_ok (resid_ok.2 ⟨bd, ts, hbd, hts, halign, hadmit, hrange, rfl⟩), length_tabulate .., ?_, rfl, rfl, rfl⟩
  exact fun r c hr hc => elem_tabulate (s.residual p bd) hr hc

end Sys2Proof.Machine

/-! ## FTX and ITX -/

namespace Sys2Proof.Machine

/-- E is the sum over the rows and columns of the block, of the squares outside the coded region (40_transform.md R137). -/
theorem discardedEnergy_eq_sum (ts : TxSize) (f : Nat → Nat → Int) :
    discardedEnergy ts f = ∑ r ∈ Finset.range ts.height, ∑ c ∈ Finset.range ts.width,
      if ts.codedHeight ≤ r ∨ ts.codedWidth ≤ c then f r c ^ 2 else 0 := by
  have hcoded : ∀ rc : Nat × Nat, (!coded ts rc) = true ↔ ts.codedHeight ≤ rc.1 ∨ ts.codedWidth ≤ rc.2 := fun rc => by
    simp only [coded, Bool.not_eq_true', Bool.and_eq_false_iff, decide_eq_false_iff_not, not_lt]
  rw [discardedEnergy, ← List.sum_toFinset _ ((grid_nodup _ _).filter _), List.toFinset_filter, toFinset_grid,
    Finset.sum_filter, Finset.sum_product]
  simp only [hcoded]

theorem discardedEnergy_nonneg (ts : TxSize) (f : Nat → Nat → Int) : 0 ≤ discardedEnergy ts f := by
  refine List.sum_nonneg fun x hx => ?_
  obtain ⟨rc, _, rfl⟩ := List.mem_map.1 hx
  exact sq_nonneg _

/-- The energy is E saturated at 2^64 - 1 (40_transform.md R136). -/
theorem energy3q_eq_min (ts : TxSize) (f : Nat → Nat → Int) :
    (energy3q ts f : Int) = min (discardedEnergy ts f) (2 ^ 64 - 1) := by
  have := discardedEnergy_nonneg ts f
  rw [energy3q]
  omega

/-- A number below 2^64 is its upper and its lower 32 bits. -/
theorem toNat_high_low {e : Nat} (h : e < 2 ^ 64) :
    (BitVec.ofNat 32 (e / 2 ^ 32)).toNat * 2 ^ 32 + (BitVec.ofNat 32 (e % 2 ^ 32)).toNat = e := by
  rw [BitVec.toNat_ofNat, BitVec.toNat_ofNat]
  omega

theorem energy3q_lt (ts : TxSize) (f : Nat → Nat → Int) : energy3q ts f < 2 ^ 64 := by
  rw [energy3q]; omega

/-- Settles O32: COEF is the table of the transform, and E3Q the two halves of the saturated energy. -/
theorem ftxWritesCoefficients : Obligations.FtxWritesCoefficients := by
  intro p s bd ts tt hbd hts htt htag hbound
  refine ⟨_, exec_of_ok (ftx_ok.2 ⟨bd, ts, tt, hbd, hts, htt, htag, hbound, rfl⟩), length_tabulate ..,
    fun r c hr hc => elem_tabulate _ hr hc, ?_, rfl, ?_, rfl⟩
  · rw [← discardedEnergy_eq_sum, ← energy3q_eq_min]
    simp only [State.commitCoef_rslt, PerPlane.get_set_self]
    exact_mod_cast toNat_high_low (energy3q_lt _ _)
  · simp only [State.commitCoef_rslt, PerPlane.get_set_self]

/-- Settles O34: IRES is the table of the inverse transform. -/
theorem itxWritesResidual : Obligations.ItxWritesResidual := by
  intro p s bd ts tt hbd hts htt htag hbound
  exact ⟨_, exec_of_ok (itx_ok.2 ⟨bd, ts, tt, hbd, hts, htt, htag, hbound, rfl⟩), length_tabulate ..,
    fun r c hr hc => elem_tabulate _ hr hc, rfl, rfl⟩

@[simp] theorem State.commitCoef_qindex (s : State) (p : Plane) (ts : TxSize) (bd : BitDepth) (a : List Int) (e3q : Nat) :
    (s.commitCoef p ts bd a e3q).qindex = s.qindex := rfl

/-- QUANT at QINDEX 0 of what FTX leaves of x, WHT_WHT at TX_4X4, gives the DQCOEF of the lossless pair
(40_transform.md R134). -/
theorem State.quantized_commitCoef_lossless {s : State} (p : Plane) (bd : BitDepth) (x : List Int) (e3q : Nat)
    (hq : s.qindex = 0) :
    ((s.commitCoef p .tx4x4 bd (tabulate (TxSize.codedHeight .tx4x4) (TxSize.codedWidth .tx4x4)
      (Config.params.fwdTx .tx4x4 .whtWht bd x)) e3q).quantized Config.params .tx4x4 bd).map Prod.snd =
      Config.params.losslessDq bd x := by
  rw [State.quantized, State.commitCoef_qindex, hq]; rfl

/-- Settles O51: DQCOEF after FTX and QUANT is the one of the contract of the lossless pair, so ITX's outputs are the
residual's elements and raise no RANGE. -/
theorem losslessRoundTrip : Obligations.LosslessRoundTrip := by
  intro p s bd hbd hts htt hq htag hlen hres hbound
  have hinv : tabulate 4 4 (Config.params.invTx .tx4x4 .whtWht bd (Config.params.losslessDq bd s.scr.res)) = s.scr.res :=
    Config.contract.lossless bd s.scr.res hlen hres
  have hrange : ForBlock 4 4 fun r c =>
      |Config.params.invTx .tx4x4 .whtWht bd (Config.params.losslessDq bd s.scr.res) r c| < 2 ^ 31 := fun r c hr hc => by
    have hle := hres _ (hinv ▸ mem_tabulate.2 ⟨r, c, hr, hc, rfl⟩)
    have := bd.two_pow_bits_le
    omega
  have hftx := exec_of_ok (i := .ftx p) (ftx_ok.2 ⟨bd, .tx4x4, .whtWht, hbd, hts, htt, htag, hbound, rfl⟩)
  refine ⟨_, _, _, hftx, exec_of_ok (quant_ok.2 ⟨bd, .tx4x4, .whtWht, hbd, hts, htt, rfl, rfl⟩),
    exec_of_ok (itx_ok.2 ⟨bd, .tx4x4, .whtWht, hbd, hts, htt, rfl, ?_, rfl⟩), ?_⟩
  · rw [State.commitQuant_scr, State.quantized_commitCoef_lossless p bd _ _ hq]
    exact hrange
  · rw [State.commitIres_scr, State.commitQuant_scr, State.quantized_commitCoef_lossless p bd _ _ hq]
    exact hinv

end Sys2Proof.Machine

/-! ## RECON -/

namespace Sys2Proof.Machine

/-- A clipped sample fits the bytes of a sample (20_memory.md R73). -/
theorem clipBd_toNat_mod (bd : BitDepth) (v : Int) :
    (((clipBd bd v).toNat % 256 ^ bd.bytes : Nat) : Int) = clipBd bd v := by
  have hfit : 0 ≤ clipBd bd v ∧ clipBd bd v < (256 ^ bd.bytes : Nat) := by
    cases bd <;> simp only [clipBd, clamp, BitDepth.bits, BitDepth.bytes] <;> omega
  obtain ⟨hpos, hlt⟩ := hfit
  rw [Nat.mod_eq_of_lt (by omega), Int.toNat_of_nonneg hpos]

/-- After the writes of a block of clipped samples, an element that no later one overlaps reads as its own sample
(20_memory.md R81; the order is log entry 12). -/
theorem State.sample_commitMem_block (s : State) (bd : BitDepth) {h w r c : Nat} (addr : Nat → Nat → Nat)
    (v : Nat → Nat → Int) (hr : r < h) (hc : c < w)
    (hlater : ForBlock h w fun r' c' => r * w + c < r' * w + c' → Apart (addr r c) (addr r' c') bd.bytes) :
    ((s.commitMem bd.bytes ((grid h w).map fun rc => (addr rc.1 rc.2, (clipBd bd (v rc.1 rc.2)).toNat))).sample bd
      (addr r c) : Int) = clipBd bd (v r c) := by
  obtain ⟨pre, post, hsplit, hpost⟩ := grid_split hr hc
  have hread := Memory.read_writeAll s.mem bd.bytes
    (pre.map fun rc => (addr rc.1 rc.2, (clipBd bd (v rc.1 rc.2)).toNat))
    (post.map fun rc => (addr rc.1 rc.2, (clipBd bd (v rc.1 rc.2)).toNat)) (addr r c, (clipBd bd (v r c)).toNat)
    (List.forall_mem_map.2 fun x hx => by
      obtain ⟨hxr, hxc, hlt⟩ := hpost x hx
      exact hlater x.1 x.2 hxr hxc hlt)
  rw [State.sample, State.commitMem_mem, hsplit, List.map_append, List.map_cons, hread]
  exact clipBd_toNat_mod bd (v r c)

/-- The writes of a block leave every byte outside its elements alone (20_memory.md R79). -/
theorem State.readByte_commitMem_block (s : State) {h w n b : Nat} (addr val : Nat → Nat → Nat)
    (hout : ForBlock h w fun r c => Outside (addr r c) n b) :
    Memory.readByte (s.commitMem n ((grid h w).map fun rc => (addr rc.1 rc.2, val rc.1 rc.2))).mem b =
      Memory.readByte s.mem b :=
  Memory.readByte_writeAll_outside _ _ _ _ (List.forall_mem_map.2 (forall_grid.2 hout))

/-- Settles O35: readable and writable samples pass every check, and the block's writes are made in loop order. -/
theorem reconWritesSamples : Obligations.ReconWritesSamples := by
  intro p skip s bd ts hbd hts htag hblock
  have hreads : ∀ a ∈ s.predReads p ts bd, SampleReadable s bd a :=
    List.forall_mem_map.2 (forall_grid.2 fun r c hr hc => (hblock r c hr hc).1)
  have hwrites : ∀ a ∈ s.reconWrites p ts bd, SampleWritable s bd a :=
    List.forall_mem_map.2 (forall_grid.2 fun r c hr hc => (hblock r c hr hc).2)
  obtain ⟨halignR, hadmitR, hrange⟩ := State.checks_of_readable hreads
  obtain ⟨halignW, hadmitW⟩ := State.checks_of_writable hwrites
  refine ⟨_, exec_of_ok (recon_ok.2 ⟨bd, ts, hbd, hts, htag, (allOk_append ..).2 ⟨halignR, halignW⟩,
    (allOk_append ..).2 ⟨hadmitR, hadmitW⟩, hrange, rfl⟩), fun r c hr hc hlater => ?_, fun b hout => ?_, rfl⟩
  · exact s.sample_commitMem_block bd (s.reconAddr p bd)
      (fun r c => s.sample bd (s.predAddr p bd r c) + if skip then 0 else elem s.scr.ires ts.width r c) hr hc hlater
  · exact s.readByte_commitMem_block (s.reconAddr p bd) (fun r c => (s.recSample p ts bd skip r c).toNat) hout

end Sys2Proof.Machine

/-! PROOFS of the family of 41_quant.md: the counts of the quantizer, its parameters and outputs, what QUANT, TXFLAG and
STCOEF complete with, and zero residuals. -/

/-! ## EOB and NZ -/

namespace Sys2Proof

/-- The raster positions with a non-zero value. -/
def nonzeroPositions (q : List Int) : Finset Nat := (Finset.range q.length).filter fun rc => q.getD rc 0 ≠ 0

/-- NZ counts the positions with a non-zero value (41_quant.md R173). -/
theorem nzOf_eq_card (q : List Int) : nzOf q = (nonzeroPositions q).card := by
  have hq : (List.range q.length).map (fun rc => q.getD rc 0) = q :=
    List.ext_getElem (by simp) fun rc h1 h2 => by
      rw [List.getElem_map, List.getElem_range, List.getD_eq_getElem _ _ h2]
  calc nzOf q = nzOf ((List.range q.length).map fun rc => q.getD rc 0) := by rw [hq]
    _ = Nat.count (fun rc => q.getD rc 0 ≠ 0) q.length := List.countP_map
    _ = (nonzeroPositions q).card := Nat.count_eq_card_filter_range _ _

/-- No scan position from EOB on has a non-zero value (41_quant.md R173). -/
theorem getD_scan_eq_zero {scan : Nat → Nat} {q : List Int} {n i : Nat} (hi : eobOf scan q n ≤ i) (hn : i < n) :
    q.getD (scan i) 0 = 0 := by
  induction n with
  | zero => exact absurd hn (Nat.not_lt_zero i)
  | succ n ih =>
    rw [eobOf] at hi
    split at hi
    case isTrue => omega
    case isFalse hlast =>
      rcases Nat.lt_succ_iff_lt_or_eq.1 hn with hlt | rfl
      · exact ih hi hlt
      · exact not_ne_iff.1 hlast

/-- The scan position before EOB has a non-zero value (41_quant.md R173). -/
theorem getD_scan_pred_eobOf_ne_zero {scan : Nat → Nat} {q : List Int} {n : Nat} (h : 0 < eobOf scan q n) :
    q.getD (scan (eobOf scan q n - 1)) 0 ≠ 0 := by
  induction n with
  | zero => exact absurd h (Nat.not_lt_zero 0)
  | succ n ih =>
    rw [eobOf] at h ⊢
    split
    case isTrue hlast => exact hlast
    case isFalse hlast =>
      rw [if_neg hlast] at h
      exact ih h

/-- `scan` is a permutation of 0 .. n - 1 (41_quant.md R173). -/
def IsScan (scan : Nat → Nat) (n : Nat) : Prop :=
  (∀ i, i < n → scan i < n) ∧ ∀ i j, i < n → j < n → scan i = scan j → i = j

/-- The contract of SCAN, at one size and type. -/
theorem isScan_params (ts : TxSize) (tt : TxType) : IsScan (Config.params.scan ts tt) ts.codedArea :=
  Config.contract.scan ts tt

/-- Every raster position is the image of a scan position. -/
theorem IsScan.surj {scan : Nat → Nat} {n rc : Nat} (h : IsScan scan n) (hrc : rc < n) : ∃ i < n, scan i = rc := by
  obtain ⟨hlt, hinj⟩ := h
  have hsurj : Set.SurjOn scan (Finset.range n) (Finset.range n) :=
    Finset.surjOn_of_injOn_of_card_le scan (fun i hi => by simpa using hlt i (by simpa using hi))
      (fun i hi j hj => hinj i j (by simpa using hi) (by simpa using hj)) le_rfl
  obtain ⟨i, hi, hscan⟩ := hsurj (by simpa using hrc)
  exact ⟨i, by simpa using hi, hscan⟩

section Scanned

variable {scan : Nat → Nat} {q : List Int} (hscan : IsScan scan q.length)
include hscan

/-- The non-zero values all stand at scan positions below EOB, so there are at most EOB of them. -/
theorem nzOf_le_eobOf : nzOf q ≤ eobOf scan q q.length := by
  have hsub : nonzeroPositions q ⊆ (Finset.range (eobOf scan q q.length)).image scan := by
    intro rc hrc
    obtain ⟨hlt, hne⟩ := Finset.mem_filter.1 hrc
    obtain ⟨i, hi, rfl⟩ := hscan.surj (Finset.mem_range.1 hlt)
    refine Finset.mem_image_of_mem scan (Finset.mem_range.2 (Nat.lt_of_not_le fun hle => hne ?_))
    exact getD_scan_eq_zero hle hi
  calc nzOf q = (nonzeroPositions q).card := nzOf_eq_card q
    _ ≤ ((Finset.range (eobOf scan q q.length)).image scan).card := Finset.card_le_card hsub
    _ ≤ (Finset.range (eobOf scan q q.length)).card := Finset.card_image_le
    _ = eobOf scan q q.length := Finset.card_range _

theorem nzOf_eq_zero_iff_eobOf : nzOf q = 0 ↔ eobOf scan q q.length = 0 := by
  refine ⟨fun hnz => Nat.eq_zero_of_not_pos fun hpos => ?_, fun heob => Nat.le_zero.1 (heob ▸ nzOf_le_eobOf hscan)⟩
  have hlast : eobOf scan q q.length - 1 < q.length := by
    have := eobOf_le scan q q.length
    omega
  have hmem : scan (eobOf scan q q.length - 1) ∈ nonzeroPositions q :=
    Finset.mem_filter.2 ⟨Finset.mem_range.2 (hscan.1 _ hlast), getD_scan_pred_eobOf_ne_zero hpos⟩
  rw [nzOf_eq_card, Finset.card_eq_zero] at hnz
  rw [hnz] at hmem
  exact absurd hmem (Finset.notMem_empty _)

end Scanned

end Sys2Proof

/-! ## Every step keeps EOB and NZ consistent -/

namespace Sys2Proof.Machine

/-- What the two counters of one plane owe each other (41_quant.md R173). -/
def CountPairOk (nz eob : Nat) : Prop := nz ≤ eob ∧ eob ≤ 1024 ∧ (nz = 0 ↔ eob = 0)

theorem countsOk_iff (s : State) : CountsOk s ↔ ∀ p, CountPairOk (s.rslt.nz.get p).toNat (s.rslt.eob.get p).toNat := Iff.rfl

theorem countPairOk_zero : CountPairOk 0 0 := by simp [CountPairOk]

/-- QUANT's counts of a coded region, as the registers hold them (41_quant.md R173, R174). -/
theorem countPairOk_quantized (s : State) (ts : TxSize) (bd : BitDepth) (tt : TxType) :
    CountPairOk (nzOf ((s.quantized Config.params ts bd).map Prod.fst))
      (eobOf (Config.params.scan ts tt) ((s.quantized Config.params ts bd).map Prod.fst) ts.codedArea) := by
  have hlen : ((s.quantized Config.params ts bd).map Prod.fst).length = ts.codedArea := by
    rw [List.length_map, s.length_quantized]
  have hscan : IsScan (Config.params.scan ts tt) ((s.quantized Config.params ts bd).map Prod.fst).length :=
    hlen ▸ isScan_params ts tt
  rw [← hlen]
  refine ⟨nzOf_le_eobOf hscan, (eobOf_le _ _ _).trans ?_, nzOf_eq_zero_iff_eobOf hscan⟩
  rw [hlen]
  exact ts.codedArea_le

/-- A count of at most 1024 fits the 32 bits of its register. -/
theorem toNat_ofNat_count {n : Nat} (h : n ≤ 1024) : (BitVec.ofNat 32 n).toNat = n :=
  (BitVec.toNat_ofNat ..).trans (Nat.mod_eq_of_lt (by omega))

theorem countsOk_of_rslt_eq (s t : State) (heob : t.rslt.eob = s.rslt.eob) (hnz : t.rslt.nz = s.rslt.nz) (hs : CountsOk s) :
    CountsOk t := by
  unfold CountsOk; rw [heob, hnz]; exact hs

theorem countsOk_of_reset (s : State) (h : s.rslt = ResultRegs.reset) : CountsOk s := by
  refine (countsOk_iff s).2 fun p => ?_
  rw [h]
  cases p <;> exact countPairOk_zero

/-- QUANT sets its plane's counts to those of a coded region, TU_CLR sets all of them to 0, and no other command touches
them. -/
theorem CommandEffect.countsOk {i : Instr} {s t : State} (h : CommandEffect s i t) (hs : CountsOk s) : CountsOk t := by
  cases h with
  | @quant p ts bd tt htag =>
    obtain ⟨hle, hmax, hzero⟩ := countPairOk_quantized s ts bd tt
    refine (countsOk_iff _).2 fun q => ?_
    rw [State.commitQuant_rslt, PerPlane.get_set, PerPlane.get_set]
    split
    · rw [toNat_ofNat_count (hle.trans hmax), toNat_ofNat_count hmax]
      exact ⟨hle, hmax, hzero⟩
    · exact hs q
  | tuClr =>
    refine (countsOk_iff _).2 fun q => ?_
    rw [State.clearTu_rslt, PerPlane.get_all]
    exact countPairOk_zero
  | _ => exact countsOk_of_rslt_eq s _ rfl rfl hs

/-- Settles O60: SCAN is a permutation, so every non-zero value counts in EOB, and the value before EOB counts in NZ; every
event other than QUANT keeps the counts or clears them. -/
theorem stepKeepsCountsOk : Obligations.StepKeepsCountsOk := fun _ _ hs h => by
  refine step_keeps_engine (I := CountsOk) (fun _ _ hs => hs) (fun _ _ hs => hs) (fun s => countsOk_of_reset _ rfl)
    (fun s r v hs => ?_) (fun _ _ _ _ hs => hs) (fun _ _ _ hs hi => (commandEffect_of_effect hi).countsOk hs) hs h
  rcases s.writeReg_cases r v with hw | hw | ⟨c, hw⟩ <;> rw [hw]
  · exact countsOk_of_reset _ rfl
  · exact hs
  · exact hs

end Sys2Proof.Machine

/-! ## The checks of TXFLAG and DQP -/

namespace Sys2Proof.Machine

/-- Settles O27: TXFLAG checks PMODE, then QV; DQP checks QPM, then with DQP_EN = 1 the bounds, then the buckets. -/
theorem controlChecksInOrder : Obligations.ControlChecksInOrder := by
  intro s p f
  refine ⟨fun hm => exec_of_error ?_, fun m hm hqv => exec_of_error ?_, fun hm => exec_of_error ?_, fun m hm hen =>
    ⟨fun hlt => exec_of_error ?_, fun hle d hd hbad => exec_of_error ?_⟩⟩
  · simp only [effect, txflag, State.needPredMode, hm, decoded_none, error_bind]
  · simp only [effect, txflag, State.needPredMode, hm, decoded_some, ok_bind, hqv, require_false, error_bind]
  · simp only [effect, dqp, State.needQpMod, hm, decoded_none, error_bind]
  · have hbounds : (!s.dqpEn || decide (s.minQp ≤ s.hiQp)) = false := by simp [hen, hlt]
    simp only [effect, dqp, State.needQpMod, hm, decoded_some, ok_bind, hbounds, require_false, error_bind]
  · have hbounds : (!s.dqpEn || decide (s.minQp ≤ s.hiQp)) = true := by simp [hle]
    have hbuckets : (!s.dqpEn || s.bucketsOk m) = false := by simpa [hen, State.bucketsOk, hd] using hbad
    simp only [effect, dqp, State.needQpMod, hm, decoded_some, ok_bind, hbounds, require_true, hbuckets, require_false,
      error_bind]

end Sys2Proof.Machine

/-! ## QUANT -/

namespace Sys2Proof.Machine

/-- One position of QUANT's two outputs (41_quant.md R172, R174). -/
theorem State.getD_quantized (P : Params) (s : State) {ts : TxSize} {rc : Nat} (hrc : rc < ts.codedArea) (bd : BitDepth) :
    (((s.quantized P ts bd).map Prod.fst).getD rc 0, ((s.quantized P ts bd).map Prod.snd).getD rc 0) =
      quantCoef (quantParams P.qstep s.qindex bd (CoefKind.ofIndex rc)) ts.logScale bd (s.scr.coef.getD rc 0) := by
  have hlen : rc < (s.quantized P ts bd).length := by rwa [s.length_quantized]
  rw [List.getD_eq_getElem _ _ (by rwa [List.length_map]), List.getD_eq_getElem _ _ (by rwa [List.length_map]),
    List.getElem_map, List.getElem_map]
  simp only [State.quantized, quantBlock, List.getElem_map, List.getElem_range]

/-- Settles O33: the checks pass, and EOB and NZ are the counts of the coded region, which fit their registers. -/
theorem quantWritesBoth : Obligations.QuantWritesBoth := by
  intro p s bd ts tt hbd hts htt htag
  have hlen : ∀ f : Int × Int → Int, ((s.quantized Config.params ts bd).map f).length = ts.codedArea := fun f => by
    rw [List.length_map, s.length_quantized]
  obtain ⟨hle, hmax, _⟩ := countPairOk_quantized s ts bd tt
  refine ⟨_, eobOf (Config.params.scan ts tt) ((s.quantized Config.params ts bd).map Prod.fst) ts.codedArea,
    exec_of_ok (i := .quant p) (quant_ok.2 ⟨bd, ts, tt, hbd, hts, htt, htag, rfl⟩), hlen _, hlen _,
    fun rc hrc => s.getD_quantized _ hrc bd, ?_, eobOf_le _ _ _, fun i => getD_scan_eq_zero, getD_scan_pred_eobOf_ne_zero,
    ?_, rfl, ?_, rfl⟩
  · rw [State.commitQuant_rslt, PerPlane.get_set_self, toNat_ofNat_count hmax]
  · rw [State.commitQuant_rslt, PerPlane.get_set_self, toNat_ofNat_count (hle.trans hmax), nzOf_eq_card, nonzeroPositions,
      hlen]
    rfl
  · rw [State.commitQuant_rslt, PerPlane.get_set_self, PerPlane.get_set_self]

end Sys2Proof.Machine

/-! ## TXFLAG -/

namespace Sys2Proof.Machine

/-- The type of one plane after a type has been written (10_state.md R36). -/
theorem bits_setTt_tt (w : Word) (p q : Plane) (v : Nat) :
    bits (setTt w p v) (ttLow q + 4) (ttLow q) = if q = p then v % 2 ^ 5 else bits w (ttLow q + 4) (ttLow q) := by
  split
  case isTrue h =>
    subst h
    rw [setTt, bits_setBits_same w v (by cases q <;> decide)]
    congr 2
    omega
  case isFalse h => exact bits_setBits_other w v (by revert h; cases p <;> cases q <;> decide)

/-- The types that TXFLAG forces to DCT_DCT (41_quant.md R177). -/
theorem bits_forcedTuCfg_tt (w : Word) (p q : Plane) (m : PredMode) :
    bits (forcedTuCfg w p m) (ttLow q + 4) (ttLow q) =
      if q = p ∨ (p = .y ∧ m = .inter) then 0 else bits w (ttLow q + 4) (ttLow q) := by
  unfold forcedTuCfg
  split
  case isTrue h =>
    rw [if_pos (.inr h), bits_setTt_tt, bits_setTt_tt, bits_setTt_tt]
    cases q <;> rfl
  case isFalse h => simp only [or_iff_left h, bits_setTt_tt, Nat.zero_mod]

theorem State.nzIsZero_iff (s : State) (p : Plane) : s.nzIsZero p = true ↔ bits (s.rslt.nz.get p) 12 0 = 0 := by
  simp [State.nzIsZero]

/-- Settles O36: with NZ = 0 TXFLAG forces the types of `bits_forcedTuCfg_tt` and no other field of TU_CFG, with NZ ≠ 0 none. -/
theorem txflagDerivesFlags : Obligations.TxflagDerivesFlags := by
  intro p s m hm hqv
  refine ⟨_, exec_of_ok (i := .txflag p) (txflag_ok.2 ⟨m, hm, hqv, rfl⟩), ?_⟩
  by_cases hnz : bits (s.rslt.nz.get p) 12 0 = 0
  · have hz : s.nzIsZero p = true := (s.nzIsZero_iff p).2 hnz
    simp only [hz, if_true]
    exact ⟨by simp [hnz], fun h => absurd hnz h, fun _ q => bits_forcedTuCfg_tt _ p q m,
      bits_forcedTuCfg_other (by omega) _ p m, bits_forcedTuCfg_other (by omega) _ p m, trivial⟩
  · have hz : s.nzIsZero p = false := by rw [← Bool.not_eq_true, s.nzIsZero_iff]; exact hnz
    simp only [hz, Bool.false_eq_true, if_false]
    exact ⟨by simp [hnz], fun _ => trivial, fun h => absurd h hnz, trivial, trivial, trivial⟩

end Sys2Proof.Machine

/-! ## STCOEF -/

namespace Sys2Proof.Machine

/-- A stored word is its value in 32-bit two's complement (20_memory.md R76). -/
theorem ofNat_wordOfInt (v : Int) : BitVec.ofNat 32 (wordOfInt v % 256 ^ 4) = BitVec.ofInt 32 v := by
  refine BitVec.eq_of_toNat_eq ?_
  rw [BitVec.toNat_ofNat, BitVec.toNat_ofInt, wordOfInt]
  omega

theorem State.coefAddr_apart (s : State) (p : Plane) {i j : Nat} (h : i < j) :
    s.coefAddr p i + 4 ≤ s.coefAddr p j := by
  simp only [State.coefAddr]; omega

/-- The words STCOEF writes do not meet, so each of them reads as its own coefficient. -/
theorem State.read_commitMem_coefs (s : State) (p : Plane) (val : Nat → Nat) {n i : Nat} (hi : i < n) :
    Memory.read (s.commitMem 4 ((List.range n).map fun k => (s.coefAddr p k, val k))).mem (s.coefAddr p i) 4 =
      val i % 256 ^ 4 := by
  obtain ⟨pre, post, hsplit⟩ := List.append_of_mem (List.mem_range.2 hi)
  have hpost : ∀ k ∈ post, i < k := by
    have hpw : (List.range n).Pairwise (· < ·) := List.pairwise_lt_range
    rw [hsplit, List.pairwise_append, List.pairwise_cons] at hpw
    obtain ⟨_, ⟨hlater, _⟩, _⟩ := hpw
    exact hlater
  rw [State.commitMem_mem, hsplit, List.map_append, List.map_cons]
  exact Memory.read_writeAll s.mem 4 _ _ (s.coefAddr p i, val i)
    (List.forall_mem_map.2 fun k hk => .inl (s.coefAddr_apart p (hpost k hk)))

/-- Writable words pass every check of STCOEF. -/
theorem State.checks_of_wordWritable {s : State} {p : Plane} {ts : TxSize}
    (h : ∀ i < ts.codedArea, WordWritable s (s.coefAddr p i)) :
    AllOk (s.coefAccesses p ts) isAligned ∧ AllOk (s.coefAccesses p ts) s.admits := by
  refine ⟨List.forall_mem_map.2 fun i hi => ?_, List.forall_mem_map.2 fun i hi => ?_⟩ <;>
    obtain ⟨halign, hrange, hadmit⟩ := h i (List.mem_range.1 hi)
  · exact (isAligned_iff _).2 halign
  · exact (s.admits_iff _).2 ⟨hrange, hadmit⟩

/-- Settles O37: writable words pass every check, and the words do not meet. -/
theorem stcoefStoresWords : Obligations.StcoefStoresWords := by
  intro p dequant s bd ts hbd hts htag hwritable
  obtain ⟨halign, hadmit⟩ := State.checks_of_wordWritable hwritable
  refine ⟨_, exec_of_ok (i := .stcoef p dequant) (stcoef_ok.2 ⟨bd, ts, hbd, hts, htag, halign, hadmit, rfl⟩),
    fun i hi => ?_, fun b hout => ?_, rfl⟩
  · exact (congrArg (BitVec.ofNat 32) (s.read_commitMem_coefs p _ hi)).trans (ofNat_wordOfInt _)
  · exact Memory.readByte_writeAll_outside _ _ _ _ (List.forall_mem_map.2 fun i hi => hout i (List.mem_range.1 hi))

end Sys2Proof.Machine

/-! ## The quantizer's parameters and outputs -/

namespace Sys2Proof

/-- The multiplier and the shift of a step of the contract are signed 16-bit values (41_quant.md R171): with l the step's
binary logarithm, 2^(16 + l) / d lies strictly above 2^15, and at 2^16 or below. -/
theorem invertQuant_fits {d : Nat} (hd : 4 ≤ d) (hd' : d < 2 ^ 15) :
    (invertQuant d).1 ≤ 1 ∧ -(2 ^ 15) + 2 ≤ (invertQuant d).1 ∧ 4 ≤ (invertQuant d).2 ∧ (invertQuant d).2 ≤ 2 ^ 14 := by
  obtain ⟨l, hl⟩ : ∃ l, l = Nat.log2 d := ⟨_, rfl⟩
  have hne : d ≠ 0 := by omega
  have hl2 : 2 ≤ l := hl ▸ (Nat.le_log2 hne).2 hd
  have hl14 : l ≤ 14 := hl ▸ Nat.le_of_lt_succ ((Nat.log2_lt hne).2 hd')
  have hlow : 2 ^ l ≤ d := hl ▸ Nat.log2_self_le hne
  have hhigh : d < 2 ^ (l + 1) := hl ▸ Nat.lt_log2_self
  have hmax : 2 ^ (16 + l) / d ≤ 2 ^ 16 := by
    refine Nat.div_le_of_le_mul ?_
    rw [pow_add, Nat.mul_comm]
    exact Nat.mul_le_mul_right _ hlow
  have hmin : 2 ^ 15 + 1 ≤ 2 ^ (16 + l) / d := by
    have hpow : 2 ^ (l + 1) ≤ 2 ^ 15 := Nat.pow_le_pow_right (by norm_num) (by omega)
    rw [Nat.le_div_iff_mul_le (by omega), show 16 + l = 15 + (l + 1) by omega, pow_add]
    omega
  have hshift : (2 : Int) ^ 2 ≤ 2 ^ (16 - l) := pow_le_pow_right₀ (by norm_num) (by omega)
  have hshift' : (2 : Int) ^ (16 - l) ≤ 2 ^ 14 := pow_le_pow_right₀ (by norm_num) (by omega)
  simp only [invertQuant, ← hl]
  exact ⟨by omega, by omega, by linarith, hshift'⟩

theorem qzbinFactor_bounds (qidx : BitVec 8) (bd : BitDepth) (d : Nat) :
    64 ≤ qzbinFactor qidx bd d ∧ qzbinFactor qidx bd d ≤ 84 := by
  unfold qzbinFactor
  split
  · norm_num
  · split <;> norm_num

theorem qroundFactor_ge (qidx : BitVec 8) : 48 ≤ qroundFactor qidx := by
  unfold qroundFactor
  split <;> norm_num

section Step

variable {qstep : BitVec 8 → BitDepth → CoefKind → Nat} {qidx : BitVec 8} {bd : BitDepth} {k : CoefKind}
  (hd : 4 ≤ qstep qidx bd k) (hd' : qstep qidx bd k < 2 ^ 15)
include hd hd'

/-- The dead zone is a positive signed 16-bit value, and at least 2 (41_quant.md R171). -/
theorem quantParams_zbin_bounds : 2 ≤ (quantParams qstep qidx bd k).zbin ∧ (quantParams qstep qidx bd k).zbin < 2 ^ 15 := by
  obtain ⟨hf, hf'⟩ := qzbinFactor_bounds qidx bd (qstep qidx bd .dc)
  have hlow : 64 * 4 ≤ qzbinFactor qidx bd (qstep qidx bd .dc) * (qstep qidx bd k : Int) :=
    mul_le_mul hf (by exact_mod_cast hd) (by norm_num) (by omega)
  have hhigh : qzbinFactor qidx bd (qstep qidx bd .dc) * (qstep qidx bd k : Int) ≤ 84 * 2 ^ 15 :=
    mul_le_mul hf' (by exact_mod_cast hd'.le) (by positivity) (by norm_num)
  simp only [quantParams, asr]
  omega

/-- The rounding offset is a positive signed 16-bit value (41_quant.md R171). -/
theorem quantParams_round_bounds : 0 < (quantParams qstep qidx bd k).round ∧ (quantParams qstep qidx bd k).round < 2 ^ 15 := by
  obtain ⟨_, hf'⟩ := qroundFactor_bounds qidx
  have hf := qroundFactor_ge qidx
  have hlow : 48 * 4 ≤ qroundFactor qidx * (qstep qidx bd k : Int) :=
    mul_le_mul hf (by exact_mod_cast hd) (by norm_num) (by omega)
  have hhigh : qroundFactor qidx * (qstep qidx bd k : Int) ≤ 64 * 2 ^ 15 :=
    mul_le_mul hf' (by exact_mod_cast hd'.le) (by positivity) (by norm_num)
  simp only [quantParams, asr]
  omega

/-- The outputs have the coefficient's sign, or are 0 (41_quant.md R172). -/
theorem quantCoef_sign {ls : Nat} (hls : ls ≤ 2) (c : Int) :
    0 ≤ (quantCoef (quantParams qstep qidx bd k) ls bd c).1 * c ∧
      0 ≤ (quantCoef (quantParams qstep qidx bd k) ls bd c).2 * c := by
  obtain ⟨hrd, _⟩ := round2_round_bounds (qidx := qidx) (bd := bd) (k := k) hd' hls
  have ht : 0 ≤ clampSum bd (|c| + round2 (quantParams qstep qidx bd k).round ls) :=
    clampSum_nonneg bd (add_nonneg (abs_nonneg c) hrd)
  obtain ⟨hq, _⟩ := quantMag_bounds (P := quantParams qstep qidx bd k) hd hd' rfl hls ht
  have hdq := asr_nonneg (mul_nonneg hq (Int.natCast_nonneg (qstep qidx bd k))) ls
  have hsign : 0 ≤ (if c < 0 then -1 else 1) * c := by split <;> omega
  simp only [quantCoef]
  split
  · simp
  · rw [mul_right_comm, mul_right_comm _ _ c]
    exact ⟨mul_nonneg hsign hq, mul_nonneg hsign hdq⟩

/-- A zero coefficient lies below the dead zone at every log_scale of a transform size, so both its outputs are 0
(41_quant.md R172). -/
theorem quantCoef_zero {ls : Nat} (hls : ls ≤ 2) : quantCoef (quantParams qstep qidx bd k) ls bd 0 = (0, 0) := by
  obtain ⟨hz, _⟩ := quantParams_zbin_bounds hd hd'
  have hzb : 0 < round2 (quantParams qstep qidx bd k).zbin ls := by
    generalize (quantParams qstep qidx bd k).zbin = z at hz
    interval_cases ls <;> simp only [round2, asr] <;> omega
  simp only [quantCoef, abs_zero, if_pos hzb]

end Step

/-- Settles O46: the contract of QSTEP bounds the step, and with it the parameters and the outputs. -/
theorem quantizedValuesFit : Obligations.QuantizedValuesFit := by
  intro qidx bd k P
  obtain ⟨hd, hd'⟩ := Config.contract.step.1 qidx bd k
  have hd' : Config.params.qstep qidx bd k < 2 ^ 15 := by omega
  obtain ⟨hquant, hquant', hshift, hshift'⟩ := invertQuant_fits hd hd'
  obtain ⟨hzbin, hzbin'⟩ := quantParams_zbin_bounds hd hd'
  obtain ⟨hround, hround'⟩ := quantParams_round_bounds hd hd'
  have hdequant : (4 : Int) ≤ Config.params.qstep qidx bd k ∧ (Config.params.qstep qidx bd k : Int) < 2 ^ 15 := by
    exact_mod_cast And.intro hd hd'
  refine ⟨⟨hquant, hquant', hshift, hshift', two_pos.trans_le hzbin, hzbin', hround, hround', hdequant⟩, fun ts c hc => ?_⟩
  obtain ⟨hq, hdq⟩ := quantCoef_lt hd hd' ts.logScale_le hc
  obtain ⟨hqs, hdqs⟩ := quantCoef_sign hd hd' ts.logScale_le c
  exact ⟨hq, hdq, hqs, hdqs⟩

end Sys2Proof

/-! ## Zero residuals -/

namespace Sys2Proof

theorem tabulate_eq_replicate {h w : Nat} {f : Nat → Nat → Int} (hf : Machine.ForBlock h w fun r c => f r c = 0) :
    tabulate h w f = List.replicate (h * w) 0 := by
  refine List.eq_replicate_iff.2 ⟨length_tabulate h w f, fun x hx => ?_⟩
  obtain ⟨r, c, hr, hc, rfl⟩ := Machine.mem_tabulate.1 hx
  exact hf r c hr hc

theorem getD_replicate_zero (n i : Nat) : (List.replicate n (0 : Int)).getD i 0 = 0 := by
  rw [List.getD_eq_getElem?_getD, List.getElem?_replicate]
  split <;> rfl

theorem eobOf_replicate_zero (scan : Nat → Nat) (m n : Nat) : eobOf scan (List.replicate m 0) n = 0 :=
  Nat.eq_zero_of_not_pos fun h => getD_scan_pred_eobOf_ne_zero h (getD_replicate_zero m _)

theorem nzOf_replicate_zero (n : Nat) : nzOf (List.replicate n 0) = 0 := by
  simp [nzOf, List.countP_replicate]

end Sys2Proof

namespace Sys2Proof.Machine

/-- A zero residual transforms to zero coefficients (40_transform.md R133). -/
theorem fwdTx_zero {ts : TxSize} {tt : TxType} (htt : txValid ts tt = true) (bd : BitDepth) :
    ForBlock ts.codedHeight ts.codedWidth fun r c =>
      Config.params.fwdTx ts tt bd (List.replicate (ts.height * ts.width) 0) r c = 0 := fun r c hr hc =>
  (Config.contract.zero ts tt bd htt r c (hr.trans_le (Nat.min_le_left _ _)) (hc.trans_le (Nat.min_le_left _ _))).1

/-- Zero coefficients quantize to zero pairs (41_quant.md R172). -/
theorem State.quantized_zero {s : State} {n : Nat} (hcoef : s.scr.coef = List.replicate n 0) (ts : TxSize) (bd : BitDepth) :
    (s.quantized Config.params ts bd).map Prod.fst = List.replicate ts.codedArea 0 := by
  refine List.eq_replicate_iff.2 ⟨by rw [List.length_map, s.length_quantized], fun x hx => ?_⟩
  obtain ⟨y, hy, rfl⟩ := List.mem_map.1 hx
  obtain ⟨rc, _, rfl⟩ := List.mem_map.1 hy
  obtain ⟨hd, hd'⟩ := Config.contract.step.1 s.qindex bd (CoefKind.ofIndex rc)
  rw [hcoef, getD_replicate_zero, quantCoef_zero hd (by omega) ts.logScale_le]

theorem State.txValid_of_txType {s : State} {p : Plane} {ts : TxSize} {tt : TxType} (h : s.txType p ts = some tt) :
    txValid ts tt = true := (Option.filter_eq_some_iff.1 h).2

/-- RESID of readable, pairwise equal samples leaves a zero residual (40_transform.md R135). -/
theorem resid_of_equal_samples {s : State} {p : Plane} {bd : BitDepth} {ts : TxSize} (hbd : s.bitDepth = some bd)
    (hts : s.txSize = some ts)
    (heq : ForBlock ts.height ts.width fun r c =>
      SampleReadable s bd (s.srcAddr p bd r c) ∧ SampleReadable s bd (s.predAddr p bd r c) ∧
      s.sample bd (s.srcAddr p bd r c) = s.sample bd (s.predAddr p bd r c)) :
    resid p s = .ok (s.commitRes p ts bd (List.replicate (ts.height * ts.width) 0)) := by
  obtain ⟨halign, hadmit, hrange⟩ := State.checks_of_readable <|
    State.forall_residReads (p := p) (P := SampleReadable s bd) fun r c hr hc => by
      obtain ⟨hsrc, hpred, _⟩ := heq r c hr hc
      exact ⟨hsrc, hpred⟩
  have hres : ForBlock ts.height ts.width fun r c => s.residual p bd r c = 0 := fun r c hr hc => by
    obtain ⟨_, _, hsample⟩ := heq r c hr hc
    rw [State.residual, hsample, sub_self]
  exact resid_ok.2 ⟨bd, ts, hbd, hts, halign, hadmit, hrange, by rw [tabulate_eq_replicate hres]⟩

/-- FTX of a zero residual leaves zero coefficients (40_transform.md R133, R136). -/
theorem ftx_of_zero {s : State} {p : Plane} {bd : BitDepth} {ts : TxSize} {tt : TxType} (hbd : s.bitDepth = some bd)
    (hts : s.txSize = some ts) (htt : s.txType p ts = some tt) (htag : s.scr.resTag = ⟨true, p, ts, bd⟩)
    (hres : s.scr.res = List.replicate (ts.height * ts.width) 0) :
    ftx Config.params p s = .ok (s.commitCoef p ts bd (List.replicate ts.codedArea 0)
      (energy3q ts (Config.params.fwdTx ts tt bd s.scr.res))) := by
  have hzero := fwdTx_zero (State.txValid_of_txType htt) bd
  rw [← hres] at hzero
  refine ftx_ok.2 ⟨bd, ts, tt, hbd, hts, htt, htag, fun r c hr hc => ?_, ?_⟩
  · exact lt_of_eq_of_lt (congrArg abs (hzero r c hr hc)) (by norm_num)
  · rw [tabulate_eq_replicate hzero]; rfl

/-- QUANT of zero coefficients finds none that is not zero (41_quant.md R173, R176). -/
theorem quant_of_zero {s : State} {p : Plane} {bd : BitDepth} {ts : TxSize} {tt : TxType} (hbd : s.bitDepth = some bd)
    (hts : s.txSize = some ts) (htt : s.txType p ts = some tt) (htag : s.scr.coefTag = ⟨true, p, ts, bd⟩)
    (hcoef : s.scr.coef = List.replicate ts.codedArea 0) :
    quant Config.params p s = .ok (s.commitQuant p ts bd (List.replicate ts.codedArea 0)
      ((s.quantized Config.params ts bd).map Prod.snd) 0 0) := by
  refine quant_ok.2 ⟨bd, ts, tt, hbd, hts, htt, htag, ?_⟩
  rw [State.quantized_zero hcoef, eobOf_replicate_zero, nzOf_replicate_zero]

/-- TXFLAG with NZ[p] = 0 (41_quant.md R177). -/
theorem txflag_of_nz_zero {s : State} {p : Plane} {m : PredMode} (hm : s.predMode = some m)
    (hqv : s.rslt.qv.get p = true) (hnz : s.rslt.nz.get p = 0) :
    txflag p s = .ok { s with
      cfg := { s.cfg with tuCfg := forcedTuCfg s.cfg.tuCfg p m }
      rslt := { s.rslt with hc := s.rslt.hc.set p false } } := by
  have hz : s.nzIsZero p = true := by rw [s.nzIsZero_iff, hnz]; rfl
  exact txflag_ok.2 ⟨m, hm, hqv, by simp only [hz, if_true, Bool.not_true]⟩

/-- Settles O50: the residual, the coefficients and the counts are 0 in turn, and TXFLAG then forces DCT_DCT. -/
theorem zeroResidualIdempotent : Obligations.ZeroResidualIdempotent := by
  intro p s bd ts tt m hbd hts htt hm heq
  refine ⟨_, _, _, _, exec_of_ok (i := .resid p) (resid_of_equal_samples hbd hts heq),
    exec_of_ok (i := .ftx p) (ftx_of_zero hbd hts htt rfl rfl),
    exec_of_ok (i := .quant p) (quant_of_zero hbd hts htt rfl rfl),
    exec_of_ok (i := .txflag p) (txflag_of_nz_zero hm ?_ ?_), rfl, rfl, ?_, ?_, ?_, ?_, rfl⟩
  · exact PerPlane.get_set_self _ p true
  · exact PerPlane.get_set_self _ p 0
  · exact PerPlane.get_set_self _ p 0
  · exact PerPlane.get_set_self _ p 0
  · exact PerPlane.get_set_self _ p false
  · exact (bits_forcedTuCfg_tt _ p p m).trans (if_pos (.inl rfl))

end Sys2Proof.Machine

/-! PROOFS of the family of 42_cfl.md: the checks of CFL_AC and CFL_PRED, what each of them completes with, and the alpha
decode. -/

/-! ## The alpha decode -/

namespace Sys2Proof.Machine

/-- A magnitude field of 4 bits gives at most 16 (42_cfl.md R205). -/
theorem abs_cflAlpha_le {mag : Nat} (hmag : mag < 16) (sign : Nat) : |cflAlpha sign mag| ≤ 16 := by
  rw [cflAlpha, abs_le]
  split
  · omega
  · split <;> omega

/-- A magnitude is at least 1, so alpha is 0 only through its sign (42_cfl.md R205). -/
theorem cflAlpha_eq_zero_iff {sign mag : Nat} : cflAlpha sign mag = 0 ↔ sign = 0 := by
  rw [cflAlpha]
  split
  case isTrue h => exact ⟨fun _ => h, fun _ => rfl⟩
  case isFalse h => split <;> omega

/-- No joint sign stands for two zero signs (42_cfl.md R205). -/
theorem cflSignV_ne_zero {js : Nat} (h : cflSignU js = 0) : cflSignV js ≠ 0 := by
  rw [cflSignV, h]
  omega

/-- Settles O49: the joint-sign table by evaluation; bounds and zeros from the sign and the magnitude. -/
theorem alphaDecode : Obligations.AlphaDecode := by
  refine ⟨by decide, fun w => ⟨rfl, rfl, abs_cflAlpha_le (bits_lt w 7 4) _, abs_cflAlpha_le (bits_lt w 3 0) _,
    cflAlpha_eq_zero_iff, cflAlpha_eq_zero_iff, fun hu hv => ?_⟩⟩
  exact cflSignV_ne_zero (cflAlpha_eq_zero_iff.1 hu) (cflAlpha_eq_zero_iff.1 hv)

end Sys2Proof.Machine

/-! ## The order of the checks of CFL_AC and CFL_PRED -/

namespace Sys2Proof.Machine

theorem needCfl_of_not_applicable {ts : TxSize} {m : PredMode} (h : m = .inter ∨ 32 < ts.width ∨ 32 < ts.height) :
    needCfl ts m = .error ⟨.badCfl, none⟩ := by
  have hfalse : (m == .intra && decide (ts.width ≤ 32) && decide (ts.height ≤ 32)) = false := by
    rcases h with rfl | hw | hh
    · rfl
    · simp [hw]
    · simp [hh]
  rw [needCfl, hfalse, require_false]

/-- What remains of a CfL command once the formats are known raises BAD_TXSZ, else BAD_PMODE, else BAD_CFL; then, in CFL_PRED,
SEQ (42_cfl.md R202, R206, R207). -/
theorem exec_of_cflChecks {i : Instr} {s : State} {bd : BitDepth} {k : TxSize → Except CmdError State}
    (h : effect i s = (do
      let ts ← s.needTxSize
      let m ← s.needPredMode
      needCfl ts m
      k ts))
    (hseq : (∃ p, i = .cflPred p) → ∀ ts, s.scr.cflacTag.accepts .y ts bd = false → k ts = .error ⟨.seq, none⟩) :
    (s.txSize = none → exec i s = .next (s.failed i .badTxsz none)) ∧
    ∀ ts, s.txSize = some ts →
      (s.predMode = none → exec i s = .next (s.failed i .badPmode none)) ∧
      ∀ m, s.predMode = some m →
        (m = .inter ∨ 32 < ts.width ∨ 32 < ts.height → exec i s = .next (s.failed i .badCfl none)) ∧
        (m = .intra → ts.width ≤ 32 → ts.height ≤ 32 → (∃ p, i = .cflPred p) → s.scr.cflacTag.accepts .y ts bd = false →
          exec i s = .next (s.failed i .seq none)) := by
  rw [State.needTxSize, State.needPredMode] at h
  refine ⟨fun hts => exec_of_error ?_, fun ts hts => ⟨fun hm => exec_of_error ?_, fun m hm =>
    ⟨fun hcfl => exec_of_error ?_, fun hintra hw hh hi htag => exec_of_error ?_⟩⟩⟩
  · rw [h, hts]; rfl
  · rw [h, hts, hm]; rfl
  · rw [h, hts, hm, decoded_some, ok_bind, decoded_some, ok_bind, needCfl_of_not_applicable hcfl, error_bind]
  · subst hintra
    rw [h, hts, hm, decoded_some, ok_bind, decoded_some, ok_bind, needCfl_intra hw hh, ok_bind, hseq hi ts htag]

theorem mem_cflInstrs {i : Instr} (h : i ∈ [Instr.cflAc false, .cflAc true, .cflPred .u, .cflPred .v]) :
    (∃ f, i = .cflAc f) ∨ ∃ p, p ≠ .y ∧ i = .cflPred p := by
  simp only [List.mem_cons, List.not_mem_nil, or_false] at h
  rcases h with h | h | h | h
  · exact .inl ⟨_, h⟩
  · exact .inl ⟨_, h⟩
  · exact .inr ⟨.u, nofun, h⟩
  · exact .inr ⟨.v, nofun, h⟩

/-- Settles O25: CFL_AC checks both formats and CFL_PRED the bit depth; then come the checks of `exec_of_cflChecks`, and in
CFL_PRED the tag of CFLAC. -/
theorem cflChecksInOrder : Obligations.CflChecksInOrder := by
  refine ⟨fun s => exec_of_error rfl, fun s i hi => ?_⟩
  rcases mem_cflInstrs hi with ⟨f, rfl⟩ | ⟨p, hp, rfl⟩
  · have heff : effect (.cflAc f) s = cflAc f s := rfl
    rw [cflAc, State.needBitDepth, State.needChromaFormat] at heff
    refine ⟨fun hbd => exec_of_error ?_, fun _ hfmt => exec_of_error ?_, fun bd hbd hfmt => ?_⟩
    · rw [heff, hbd]; rfl
    · cases hbd : s.bitDepth <;> rw [heff, hbd, hfmt] <;> rfl
    · obtain ⟨fmt, hfmt⟩ := Option.ne_none_iff_exists'.1 (hfmt ⟨f, rfl⟩)
      rw [hbd, hfmt, decoded_some, ok_bind, decoded_some, ok_bind] at heff
      exact exec_of_cflChecks heff nofun
  · have heff : effect (.cflPred p) s = cflPred p s := rfl
    rw [cflPred, bne_iff_ne.2 hp, require_true, ok_bind, State.needBitDepth] at heff
    refine ⟨fun hbd => exec_of_error ?_, nofun, fun bd hbd _ => ?_⟩
    · rw [heff, hbd]; rfl
    · rw [hbd, decoded_some, ok_bind] at heff
      refine exec_of_cflChecks heff fun _ ts htag => ?_
      rw [needTag, htag]; rfl

end Sys2Proof.Machine

/-! ## CFL_AC -/

namespace Sys2Proof.Machine

/-- The sum of a tabulated block over its rows and columns. -/
theorem sum_tabulate (h w : Nat) (f : Nat → Nat → Int) :
    (tabulate h w f).sum = ∑ r ∈ Finset.range h, ∑ c ∈ Finset.range w, f r c := by
  rw [tabulate, ← List.sum_toFinset _ (grid_nodup h w), toFinset_grid, Finset.sum_product]

/-- The rounded shift by n = log2 of the block's area is the division by the area, rounded half up (42_cfl.md R202). -/
theorem cflAvg_eq_div (ts : TxSize) (q : Nat → Nat → Int) :
    cflAvg ts.height ts.width q =
      (2 * (∑ r ∈ Finset.range ts.height, ∑ c ∈ Finset.range ts.width, q r c) + ts.height * ts.width) /
        (2 * (ts.height * ts.width)) := by
  obtain ⟨harea, hlog⟩ := ts.area_eq_two_pow
  have harea : (ts.height * ts.width : Int) = 2 ^ Nat.log2 (ts.width * ts.height) := by
    rw [mul_comm]; exact_mod_cast harea
  rw [harea, ← sum_tabulate]
  simp only [cflAvg, asr]
  generalize Nat.log2 (ts.width * ts.height) = n at hlog
  have hhalf : (2 : Int) ^ n = 2 * 2 ^ (n - 1) := by rw [← pow_succ', Nat.sub_add_cancel hlog]
  rw [← Int.mul_ediv_mul_of_pos _ _ two_pos, mul_add, ← hhalf]

/-- Settles O38: readable luma passes every check, and CFLAC is the table of Q3 less the average. -/
theorem cflAcRemovesAverage : Obligations.CflAcRemovesAverage := by
  intro f s bd fmt ts hbd hfmt hts hm hw hh hread
  have hreads : ∀ a ∈ s.lumaReads f ts fmt bd, SampleReadable s bd a := List.forall_mem_map.2 (forall_grid.2 hread)
  obtain ⟨halign, hadmit, hrange⟩ := State.checks_of_readable hreads
  refine ⟨_, _, exec_of_ok (i := .cflAc f)
    (cflAc_ok.2 ⟨bd, fmt, ts, hbd, hfmt, hts, hm, hw, hh, halign, hadmit, hrange, rfl⟩), cflAvg_eq_div ts _,
    length_tabulate .., fun r c hr hc => elem_tabulate (s.cflAcValue f ts fmt bd) hr hc, rfl, rfl⟩

end Sys2Proof.Machine

/-! ## CFL_PRED -/

namespace Sys2Proof.Machine

/-- Settles O39: readable and writable samples pass every check, and the block's writes are made in loop order. -/
theorem cflPredWritesSamples : Obligations.CflPredWritesSamples := by
  intro p s bd ts hp hbd hts hm hw hh htag hblock
  have hsamples : ∀ a ∈ s.dcReads p ts bd, SampleReadable s bd a ∧ SampleWritable s bd a :=
    List.forall_mem_map.2 (forall_grid.2 hblock)
  obtain ⟨halignR, hadmitR, hrange⟩ := State.checks_of_readable fun a ha => (hsamples a ha).1
  obtain ⟨halignW, hadmitW⟩ := State.checks_of_writable fun a ha => (hsamples a ha).2
  refine ⟨_, exec_of_ok (i := .cflPred p) (cflPred_ok.2 ⟨bd, ts, hp, hbd, hts, hm, hw, hh, htag,
    (allOk_append ..).2 ⟨halignR, halignW⟩, (allOk_append ..).2 ⟨hadmitR, hadmitW⟩, hrange, rfl⟩),
    fun r c hr hc hlater => ?_, fun b hout => ?_, rfl⟩
  · exact s.sample_commitMem_block bd (s.predAddr p bd)
      (fun r c => s.sample bd (s.predAddr p bd r c) +
        round2signed (alphaQ3 s.cfg.cflAlpha p * elem s.scr.cflac ts.width r c) 6) hr hc hlater
  · exact s.readByte_commitMem_block (s.predAddr p bd) (fun r c => (s.cflSample p ts bd r c).toNat) hout

end Sys2Proof.Machine

/-! PROOFS of the family of 43_dqp.md: the class offset, what DQP completes with, and the bounds of its QP. -/

/-! ## Clamping to an interval -/

namespace Sys2Proof

theorem clamp_mem {lo hi : Int} (h : lo ≤ hi) (v : Int) : lo ≤ clamp v lo hi ∧ clamp v lo hi ≤ hi :=
  ⟨le_min (le_max_right v lo) h, min_le_right _ hi⟩

theorem clamp_of_mem {v lo hi : Int} (hlo : lo ≤ v) (hhi : v ≤ hi) : clamp v lo hi = v := by
  rw [clamp, max_eq_left hlo, min_eq_left hhi]

theorem clamp_of_ge {v lo hi : Int} (h : hi ≤ v) : clamp v lo hi = hi := min_eq_right (h.trans (le_max_left v lo))

theorem clamp_of_le {v lo hi : Int} (hlohi : lo ≤ hi) (h : v ≤ lo) : clamp v lo hi = lo := by
  rw [clamp, max_eq_right h, min_eq_left hlohi]

theorem clamp_le_of_le {v lo b : Int} (hv : v ≤ b) (hlo : lo ≤ b) (hi : Int) : clamp v lo hi ≤ b :=
  (min_le_left _ hi).trans (max_le hv hlo)

end Sys2Proof

/-! ## The class offset -/

namespace Sys2Proof.Machine

/-- A weight scaled by a fraction n / d of at most 1 lies between 0 and the weight (43_dqp.md R231). -/
theorem scaled_weight_mem {w n d : Int} (hw : 0 ≤ w) (hn : 0 ≤ n) (hnd : n ≤ d) (hd : 0 < d) :
    0 ≤ w * n / d ∧ w * n / d ≤ w :=
  ⟨Int.ediv_nonneg (mul_nonneg hw hn) hd.le, Int.ediv_le_of_le_mul hd (mul_le_mul_of_nonneg_left hnd hw)⟩

theorem classInterp_mem {mn av mx neg pos : Int} (hmn : mn ≤ av) (hmx : av ≤ mx) (dist : Int) (hneg : 0 ≤ neg)
    (hpos : 0 ≤ pos) :
    -neg ≤ classInterp dist mn av mx neg pos ∧ classInterp dist mn av mx neg pos ≤ pos := by
  obtain ⟨hlo, hhi⟩ := clamp_mem (hmn.trans hmx) dist
  simp only [classInterp]
  generalize clamp dist mn mx = x at hlo hhi
  split
  case isTrue habove =>
    split
    case isTrue hroom =>
      obtain ⟨h0, h1⟩ := scaled_weight_mem (n := x - av) (d := mx - av) hpos (by omega) (by omega) (by omega)
      exact ⟨by omega, h1⟩
    case isFalse => exact ⟨by omega, hpos⟩
  case isFalse hbelow =>
    obtain ⟨h0, h1⟩ := scaled_weight_mem (n := av - x) (d := av - mn) hneg (by omega) (by omega) (by omega)
    exact ⟨by omega, by omega⟩

theorem classInterp_average {mn av mx : Int} (hmn : mn ≤ av) (hmx : av ≤ mx) (neg pos : Int) :
    classInterp av mn av mx neg pos = 0 := by
  simp only [classInterp, clamp_of_mem hmn hmx, le_refl, if_true, sub_self, mul_zero, Int.zero_ediv, ite_self]

theorem classInterp_of_max_le {dist av mx : Int} (hroom : av < mx) (h : mx ≤ dist) (mn neg pos : Int) :
    classInterp dist mn av mx neg pos = pos := by
  simp only [classInterp, clamp_of_ge h, if_pos hroom.le, if_pos hroom]
  exact Int.mul_ediv_cancel _ (by omega)

theorem classInterp_of_le_min {dist mn av mx : Int} (hmx : av ≤ mx) (hroom : mn < av) (h : dist ≤ mn) (neg pos : Int) :
    classInterp dist mn av mx neg pos = -neg := by
  simp only [classInterp, clamp_of_le (hroom.le.trans hmx) h, if_neg hroom.not_ge]
  rw [Int.mul_ediv_cancel _ (by omega)]

/-- Settles O47: the bounds hold on either side of the average, and each fraction is 0 or 1 at its ends. -/
theorem classOffsetInterpolates : Obligations.ClassOffsetInterpolates := by
  intro dist mn av mx neg pos hmn hmx hneg hpos
  obtain ⟨hlo, hhi⟩ := classInterp_mem hmn hmx dist hneg hpos
  refine ⟨hlo, hhi, ?_, fun hroom h => classInterp_of_max_le hroom h mn neg pos,
    fun hroom h => classInterp_of_le_min hmx hroom h neg pos⟩
  rintro rfl
  exact classInterp_average hmn hmx neg pos

end Sys2Proof.Machine

/-! ## DQP -/

namespace Sys2Proof.Machine

theorem State.hiQp_le_maxQp (s : State) : s.hiQp ≤ s.maxQp := by
  unfold State.hiQp
  split
  · exact min_le_left _ _
  · exact le_rfl

theorem State.bucketsOk_iff (s : State) (m : QpMod) : s.bucketsOk m = true ↔
    ∀ d, s.depthFor m = some d → s.dqpMin d ≤ s.dqpAvg d ∧ s.dqpAvg d ≤ s.dqpMax d := by
  unfold State.bucketsOk
  cases s.depthFor m <;> simp

/-- With DQP_EN = 1 and consistent bounds QP lies in them (43_dqp.md R232). -/
theorem State.dqpQp_mem {s : State} (hen : s.dqpEn = true) (hb : s.minQp ≤ s.hiQp) (m : QpMod) :
    (s.minQp : Int) ≤ s.dqpQp m ∧ s.dqpQp m ≤ s.hiQp := by
  rw [State.dqpQp, if_pos hen]
  exact clamp_mem (Int.ofNat_le.2 hb) _

/-- QP is an 8-bit value, clamped or not (10_state.md R50). -/
theorem State.exists_dqpQp_eq {s : State} (hb : s.dqpEn = true → s.minQp ≤ s.hiQp) (m : QpMod) :
    ∃ qp : Nat, s.dqpQp m = qp ∧ qp < 2 ^ 8 := by
  have hbase : s.baseQp < 2 ^ 8 := bits_lt s.cfg.baseQp 7 0
  have hmax : s.maxQp < 2 ^ 8 := bits_lt s.cfg.qpBounds 15 8
  cases hen : s.dqpEn with
  | false => exact ⟨s.baseQp, by simp [State.dqpQp, hen], hbase⟩
  | true =>
    obtain ⟨hlo, hhi⟩ := State.dqpQp_mem hen (hb hen) m
    have hle := s.hiQp_le_maxQp
    exact ⟨(s.dqpQp m).toNat, by omega, by omega⟩

/-- The fields of DQP_RESULT for an 8-bit QP (10_state.md R50). -/
theorem bits_dqpResultWord {qp : Nat} (hqp : qp < 2 ^ 8) (base : Int) :
    bits (dqpResultWord qp base) 7 0 = qp ∧ bits (dqpResultWord qp base) 15 8 = 0 ∧
      (bits (dqpResultWord qp base) 31 16 : Int) = (qp - base) % 2 ^ 16 := by
  simp only [bits, dqpResultWord, BitVec.toNat_ofNat, Int.toNat_natCast]
  omega

/-- Settles O40: the checks pass, and each field is read back from the word written. -/
theorem dqpWritesResult : Obligations.DqpWritesResult := by
  intro f s m hm hok
  have hbounds : s.dqpEn = true → s.minQp ≤ s.hiQp := fun hen => (hok hen).1
  obtain ⟨qp, hqp, hlt⟩ := State.exists_dqpQp_eq hbounds m
  obtain ⟨hfield, hzero, hdelta⟩ := bits_dqpResultWord hlt s.baseQp
  refine ⟨_, qp, exec_of_ok (i := .dqp f)
    (dqp_ok.2 ⟨m, hm, hbounds, fun hen => (s.bucketsOk_iff m).2 (hok hen).2, rfl⟩), hqp.symm, ?_⟩
  rw [hqp, Int.toNat_natCast]
  refine ⟨hfield, hzero, hdelta, ?_, ?_, rfl⟩ <;> cases f
  · rfl
  · exact (bits_setBits_same _ _ (by omega)).trans (Nat.mod_eq_of_lt hlt)
  · rfl
  · exact bits_setBits_other _ _ (by omega)

/-! ## The bounds of DQP's QP -/

/-- A stationary edge without anti-contouring leaves no positive offset (43_dqp.md R232). -/
theorem State.dqpOffset_nonpos {s : State} (hedge : s.dqpSedge = true) (hac : s.dqpAcen = false) (m : QpMod) :
    s.dqpOffset m ≤ 0 := by
  unfold State.dqpOffset
  split
  · exact le_rfl
  · simp only [State.adjustOffset, hedge, hac, if_true, Bool.false_and, Bool.false_eq_true, if_false]
    exact min_le_right _ 0

/-- An offset that is not positive does not raise a base QP of at least MIN_QP (43_dqp.md R232). -/
theorem State.dqpQp_le_baseQp {s : State} {m : QpMod} (hoff : s.dqpOffset m ≤ 0) (hbase : s.minQp ≤ s.baseQp) :
    s.dqpQp m ≤ s.baseQp := by
  unfold State.dqpQp
  split
  · have hscaled : s.dqpOffset m * 2 ^ s.dqpResLog2 ≤ 0 := mul_nonpos_of_nonpos_of_nonneg hoff (by positivity)
    exact clamp_le_of_le (by omega) (Int.ofNat_le.2 hbase) _
  · exact le_rfl

/-- Settles O48: without an error entry DQP has completed, and its QP has been clamped. -/
theorem dqpStaysInBounds : Obligations.DqpStaysInBounds := by
  intro f s t _ hen hexec herr
  rcases exec_cases hexec with ⟨e, _, rfl⟩ | heffect
  · obtain ⟨hflag, _⟩ := s.errorEntry_status (encode (.dqp f)) e
    exact absurd (hflag.symm.trans herr) nofun
  obtain ⟨m, _, hbounds, _, rfl⟩ := dqp_ok.1 heffect
  obtain ⟨qp, hqp, hlt⟩ := State.exists_dqpQp_eq hbounds m
  obtain ⟨hlo, hhi⟩ := State.dqpQp_mem hen (hbounds hen) m
  obtain ⟨hfield, _⟩ := bits_dqpResultWord hlt s.baseQp
  simp only [hqp, hfield] at hlo hhi ⊢
  refine ⟨Int.ofNat_le.1 hlo, Int.ofNat_le.1 hhi, s.hiQp_le_maxQp, fun hedge hac hbase => ?_⟩
  have hle := State.dqpQp_le_baseQp (State.dqpOffset_nonpos hedge hac m) hbase
  exact Int.ofNat_le.1 (hqp ▸ hle)

end Sys2Proof.Machine

/-! PROOFS of the family of 44_control.md: NOP, the host's reads, and its writes to CTRL, STATUS and the configuration. -/

/-! ## NOP -/

namespace Sys2Proof

/-- A word with OPC 0x00 other than 0 has a bit set in a field that NOP does not use. -/
theorem reservedFieldSet_of_opc_zero {w : Word} (hopc : cmdOpc w = 0) (hw : w ≠ 0) : ReservedFieldSet w := by
  by_contra hres
  simp only [ReservedFieldSet, UnusedFieldSet, hopc, not_or, not_and, not_not] at hres
  obtain ⟨hrsvd, hplane, hflag⟩ := hres
  refine hw ?_
  rw [← cmdWord_fields hrsvd, hopc, hplane (by decide), hflag (by decide)]
  rfl

end Sys2Proof

namespace Sys2Proof.Machine

/-- A command written while an error is pending is dropped (60_exceptions.md R274). -/
theorem issue_of_errFlag {s : State} (hf : s.errFlag = true) (w : Word) : issue w s = .next s := if_pos hf

/-- Settles O29: the word 0 is dropped or runs NOP, and it is the only word that means NOP; any other word with OPC 0x00
has a reserved field set. -/
theorem nopChangesNothing : Obligations.NopChangesNothing := by
  have hnop : decode 0x00000000 = .ok .nop := decode_encode (i := .nop) rfl
  refine ⟨fun s => ⟨rfl, ?_⟩, fun w => ⟨⟨fun h => ?_, ?_⟩, fun hopc hw => ?_⟩⟩
  · cases hf : s.errFlag with
    | true => exact issue_of_errFlag hf _
    | false => exact issue_of_ok hf hnop
  · obtain ⟨_, hword⟩ := wf_and_encode_of_decode h
    exact hword.symm
  · rintro rfl
    exact hnop
  · have hlt : cmdOpc w < 0x0C := Eq.trans_lt hopc (by decide)
    exact decode_eq_error_iff.2 (.inr (.inl ⟨hlt, reservedFieldSet_of_opc_zero hopc hw, rfl⟩))

/-! ## Host reads -/

/-- A host read at the offset of a register answers the register's value (10_state.md R56). -/
theorem hostEvent_regRead (s : State) (r : Reg) :
    hostEvent (.regRead 32 (BitVec.ofNat 12 r.offset)) s = .next (s.answer (s.readReg r)) := by
  rw [hostEvent, if_pos r.portAccessOk_offset, State.readOffset, r.toNat_offset, r.ofOffset_offset.1]

/-- Settles O13: the answer joins the host's list of read values, and nothing else of the state is written. -/
theorem readHasNoSideEffect : Obligations.ReadHasNoSideEffect := fun s r => ⟨_, hostEvent_regRead s r, rfl⟩

/-! ## Configuration writes -/

/-- The registers whose write does more than store are none of `storingRegs`. -/
theorem ne_of_mem_storingRegs {r : Reg} (h : r ∈ storingRegs) : r ≠ .ctrl ∧ r ≠ .status ∧ r ≠ .cmd := by
  refine ⟨?_, ?_, ?_⟩ <;>
  · rintro rfl
    exact absurd h (by decide)

/-- A write to a register other than CTRL and STATUS changes the configuration at most (44_control.md R255). -/
theorem State.writeReg_eq_cfg {r : Reg} (hctrl : r ≠ .ctrl) (hstatus : r ≠ .status) (s : State) (v : Word) :
    s.writeReg r v = { s with cfg := (s.writeReg r v).cfg } := by
  cases r with
  | ctrl => exact absurd rfl hctrl
  | status => exact absurd rfl hstatus
  | descOrg b p => cases b <;> rfl
  | _ => rfl

/-- Masking the value a register stores once more changes nothing. -/
theorem Reg.stored_and_implemented (r : Reg) (v : Word) : r.stored v &&& r.implemented = r.stored v := by
  rw [Reg.stored, BitVec.and_assoc, BitVec.and_self]

/-- Settles O14: the register holds the written value less its reserved bits, every other register keeps the value it
holds, and only the configuration is written. -/
theorem configWriteOnlyStores : Obligations.ConfigWriteOnlyStores := by
  intro s r v hr
  obtain ⟨hctrl, hstatus, hcmd⟩ := ne_of_mem_storingRegs hr
  refine ⟨s.writeReg r v, hostEvent_regWrite hcmd s v, ?_, fun q hq => ?_,
    s.writeReg_eq_cfg hctrl hstatus v⟩
  · rw [State.readReg, State.regValue_writeReg_self hr, r.stored_and_implemented]
    rfl
  · rw [State.readReg, State.readReg, State.regValue_writeReg_of_ne hq hctrl hstatus]

/-! ## CTRL and STATUS writes -/

/-- CTRL.SRST = 1 is the hardware reset (44_control.md R252, 70_reset_and_hazards.md R301). -/
theorem State.writeCtrl_of_srst {v : Word} (h : bits v 0 0 = 1) (s : State) : s.writeCtrl v = s.engineReset := if_pos h

/-- CTRL.SRST = 0 stores the implemented bits of CTRL (44_control.md R252). -/
theorem State.writeCtrl_of_not_srst {v : Word} (h : bits v 0 0 = 0) (s : State) :
    s.writeCtrl v = { s with cfg := { s.cfg with ctrl := Reg.ctrl.stored v } } := if_neg (h.trans_ne Nat.zero_ne_one)

/-- After a reset in the middle of a run every register reads as in the reset state (70_reset_and_hazards.md R300). -/
theorem State.readReg_engineReset (s : State) (r : Reg) : s.engineReset.readReg r = State.reset.readReg r := rfl

/-- Reset lowers the interrupt (60_exceptions.md R276). -/
theorem State.irq_engineReset (s : State) : s.engineReset.irq = false := by
  show State.reset.irq = false
  decide

/-- A field that the mask keeps reads as before the masking. -/
theorem bits_and_fieldMask (w : Word) {hi lo : Nat} (h : hi < 32) : bits (w &&& fieldMask hi lo) hi lo = bits w hi lo := by
  refine Nat.eq_of_testBit_eq fun i => ?_
  rw [testBit_bits, testBit_bits, BitVec.getLsbD_and]
  by_cases hi' : i < hi + 1 - lo
  · rw [getLsbD_fieldMask_of_mem h (by omega) (by omega), Bool.and_true]
  · simp only [hi', decide_false, Bool.false_and]

/-- Settles O16: SRST = 1 is the reset that `rst` makes; SRST = 0 stores IRQ_EN, the one implemented bit. -/
theorem ctrlWriteResetsOrStoresIrqEn : Obligations.CtrlWriteResetsOrStoresIrqEn := by
  intro s v
  refine ⟨s.writeCtrl v, hostEvent_regWrite (r := .ctrl) nofun s v, fun hsrst => ?_, fun hsrst => ?_⟩
  · rw [State.writeCtrl_of_srst hsrst]
    exact ⟨rfl, rfl, s.irq_engineReset, s.readReg_engineReset, rfl, rfl, rfl, rfl, rfl⟩
  · rw [State.writeCtrl_of_not_srst hsrst]
    refine ⟨?_, Reg.ctrl.stored_and_implemented v, rfl⟩
    exact congrArg (· == 1) (bits_and_fieldMask v (by decide))

/-- Settles O17: bit 0 decides between the error clear and no effect. -/
theorem statusWriteClearsError : Obligations.StatusWriteClearsError := by
  intro s v
  have hwrite : hostEvent (.regWrite 32 0x008 v) s = .next (s.writeStatus v) := hostEvent_regWrite (r := .status) nofun s v
  rw [hwrite]
  exact ⟨fun h => congrArg _ (if_pos h), fun h => congrArg _ (if_neg (h.trans_ne Nat.zero_ne_one))⟩

end Sys2Proof.Machine

/-! PROOFS of the family of 60_exceptions.md: the error entry, precise errors, dropped commands, irq and the platform. -/

namespace Sys2Proof.Machine

/-! ## The error entry -/

/-- The error entry raises STATUS.ERR (60_exceptions.md R271). -/
@[simp] theorem State.errFlag_errorEntry (s : State) (w : Word) (e : CmdError) : (s.errorEntry w e).errFlag = true :=
  (s.errorEntry_status w e).1

/-- The error entry leaves BUSY and the reserved bits of STATUS 0 (60_exceptions.md R271, 10_state.md R32). -/
theorem State.errorEntry_status_unused (s : State) (w : Word) (e : CmdError) :
    bits (s.errorEntry w e).err.status 1 1 = 0 ∧ bits (s.errorEntry w e).err.status 7 3 = 0 ∧
      bits (s.errorEntry w e).err.status 31 24 = 0 := by
  obtain ⟨_, hbusy, _, hlow, _, _, hhigh⟩ := bits_packStatus true e.addr.isSome e.code.toByte.toNat (cmdOpc w)
  exact ⟨hbusy, hlow, hhigh⟩

/-- Settles O18: the fields of STATUS are those of `packStatus`, and the entry is an update of the error registers. -/
theorem errorEntryFields : Obligations.ErrorEntryFields := by
  intro s w c a
  obtain ⟨hflag, hav, hcode, hopc⟩ := s.errorEntry_status w ⟨c, a⟩
  obtain ⟨hbusy, hlow, hhigh⟩ := s.errorEntry_status_unused w ⟨c, a⟩
  exact ⟨_, rfl, hflag, hcode, hopc, hav, rfl, BitVec.toNat_ofNat _ _, hbusy, hlow, hhigh, rfl⟩

/-! ## Precise errors -/

/-- STATUS.ERR depends on the error registers alone (10_state.md R32). -/
theorem State.errFlag_eq_of_err_eq {s t : State} (h : t.err = s.err) : t.errFlag = s.errFlag := by
  rw [State.errFlag, State.errFlag, h]

/-- Settles O19: a command ends in the error entry, which sets ERR and writes the error registers alone, or in its effect,
which leaves them as they were. -/
theorem errorsArePrecise : Obligations.ErrorsArePrecise := by
  intro i s hf
  cases hi : effect i s with
  | error e =>
    refine ⟨_, exec_of_error hi, fun _ => rfl, fun hclear => ?_⟩
    rw [State.failed, s.errFlag_errorEntry] at hclear
    cases hclear
  | ok t =>
    obtain ⟨_, _, herr⟩ := effect_keeps hi
    have hft : t.errFlag = false := (State.errFlag_eq_of_err_eq herr).trans hf
    refine ⟨t, exec_of_ok hi, fun hset => ?_, fun _ => herr⟩
    rw [hft] at hset
    cases hset

/-! ## Commands dropped while ERR = 1 -/

/-- A write to a register other than CTRL and STATUS leaves the error registers alone (60_exceptions.md R274). -/
theorem State.writeReg_err_of_ne {r : Reg} (hctrl : r ≠ .ctrl) (hstatus : r ≠ .status) (s : State) (v : Word) :
    (s.writeReg r v).err = s.err :=
  (congrArg State.err (s.writeReg_eq_cfg hctrl hstatus v) :)

/-- Settles O7: a CMD write comes to `issue`, which drops it; no other access looks at ERR. -/
theorem commandsDroppedWhileError : Obligations.CommandsDroppedWhileError := by
  refine ⟨fun s w rest hpending hf => ?_, fun s r v hcmd => ?_⟩
  · rw [step_of_cmdWrite hpending]
    refine issue_of_errFlag ?_ w
    exact hf
  · exact ⟨hostEvent_regWrite hcmd s v, hostEvent_regRead s r,
      fun hstatus hctrl => s.writeReg_err_of_ne hctrl hstatus v⟩

/-! ## The interrupt -/

/-- An error entry raises irq exactly if IRQ_EN = 1 (60_exceptions.md R276). -/
theorem State.irq_errorEntry (s : State) (w : Word) (e : CmdError) : (s.errorEntry w e).irq = s.irqEn := by
  rw [State.irq, s.errFlag_errorEntry, Bool.true_and]
  rfl

/-- The error clear lowers STATUS.ERR (60_exceptions.md R275). -/
@[simp] theorem State.errFlag_clearError (s : State) : s.clearError.errFlag = false := by
  rw [State.errFlag, s.clearError_err]
  rfl

/-- The error clear lowers irq (60_exceptions.md R275, R276). -/
theorem State.irq_clearError (s : State) : s.clearError.irq = false := by
  rw [State.irq, s.errFlag_clearError, Bool.false_and]

/-- Settles O21: irq after the error entry, after the clear and after reset, and its definition as a conjunction. -/
theorem irqFollowsError : Obligations.IrqFollowsError := fun s w e =>
  ⟨s.irq_errorEntry w e, s.irq_clearError, s.irq_engineReset, Bool.and_eq_true_iff⟩

/-! ## Several engines -/

/-- What one engine's step makes of the platform: the engine moves on the shared memory, is parked again, and hands the
memory back (60_exceptions.md R281). -/
theorem stepEngine_eq_next {pl pl' : Platform} {k : Nat} :
    pl.stepEngine k = .next pl' ↔ ∃ e t, pl.engines[k]? = some e ∧ step (pl.view e) = .next t ∧
      pl' = { pl with engines := pl.engines.set k t.park, mem := t.mem } := by
  rw [Platform.stepEngine]
  cases pl.engines[k]? with
  | none => simp
  | some e => cases hstep : step (pl.view e) <;> simp [hstep, eq_comm]

/-- Settles O45: the engine that moves is put back in its own place, and no other place is written. -/
theorem enginesShareOnlyMemory : Obligations.EnginesShareOnlyMemory := by
  intro pl pl' k h
  obtain ⟨e, t, _, _, rfl⟩ := stepEngine_eq_next.1 h
  exact ⟨List.length_set, fun j hj => List.getElem?_set_ne hj.symm, rfl⟩

end Sys2Proof.Machine

/-! PROOFS of the family of 70_reset_and_hazards.md: what reset leaves, the idle step, and that the contents of an invalid
scratch buffer cannot be observed. -/

namespace Sys2Proof.Machine

/-! ## Reset -/

/-- After reset every register but ID holds 0 (70_reset_and_hazards.md R300). -/
theorem State.regValue_reset {r : Reg} (h : r ≠ .id) : State.reset.regValue r = 0 := by
  cases r with
  | id => exact absurd rfl h
  | dqpMin d | dqpAvg d | dqpMax d | dqpWgt d => exact PerDepth.get_all 0 d
  | descBase b p | descStride b p => cases b <;> exact PerPlane.get_all 0 p
  | descOrg b p =>
    cases b with
    | pred => rfl
    | src | recon => exact PerPlane.get_all 0 p
  | coefBase p | eob p | nz p | e3qLo p | e3qHi p => exact PerPlane.get_all 0 p
  | _ => rfl

theorem State.readReg_reset {r : Reg} (h : r ≠ .id) : State.reset.readReg r = 0 := by
  rw [State.readReg, State.regValue_reset h]
  exact BitVec.zero_and

theorem State.readReg_id (s : State) : s.readReg .id = 0x54580001 := by
  show idValue &&& 0xFFFFFFFF = 0x54580001
  decide

/-- Settles O4: `rst` is `engineReset`, whose registers read as those of the reset state, and it keeps memory. -/
theorem resetReadsZero : Obligations.ResetReadsZero :=
  ⟨State.readReg_id, fun _ => State.readReg_reset, fun s => ⟨s.engineReset, rfl,
    fun r hr => (s.readReg_engineReset r).trans (State.readReg_reset hr), s.irq_engineReset, rfl, rfl, rfl, rfl, rfl, rfl⟩⟩

/-- Settles O54: memory lists nothing, the registers hold 0, and no tag is valid. -/
theorem resetMeetsInvariants : Obligations.ResetMeetsInvariants :=
  ⟨Memory.wf_nil, State.reservedZero_reset, errorOk_of_err_reset _ rfl, ⟨nofun, nofun, nofun, rfl⟩,
    ⟨nofun, nofun, nofun, nofun, nofun, nofun, nofun⟩, countsOk_of_reset _ rfl⟩

/-! ## The idle step -/

/-- With no event pending a step changes nothing (70_reset_and_hazards.md R302). -/
theorem step_of_idle {s : State} (h : s.port.pending = []) : step s = .next s := by
  simp only [step, hostStep, h]

/-- Settles O8: the step with nothing pending is the idle one. -/
theorem idleWithoutAccess : Obligations.IdleWithoutAccess := fun _ => step_of_idle

/-! ## Invalid scratch buffers: what agrees -/

/-- Two buffers agree with their tags as far as a command can tell (93_implementation_defined.md I40, I41). -/
structure SameStage (t u : Tag) (a b : List Int) : Prop where
  tag : SameTag t u
  contents : SameBuffer t a b

theorem SameStage.refl (t : Tag) (a : List Int) : SameStage t t a a := ⟨⟨rfl, fun _ => rfl⟩, fun _ => rfl⟩

/-- Buffers whose tags are cleared agree, whatever they held. -/
theorem SameStage.clear (t u : Tag) (a b : List Int) : SameStage t.clear u.clear a b := ⟨⟨rfl, nofun⟩, nofun⟩

theorem SameStage.valid_eq {t u : Tag} {a b : List Int} (h : SameStage t u a b) : t.valid = u.valid := h.tag.1

/-- A consumer accepts both or neither (10_state.md R55). -/
theorem SameStage.accepts_eq {t u : Tag} {a b : List Int} (h : SameStage t u a b) (p : Plane) (ts : TxSize)
    (bd : BitDepth) : u.accepts p ts bd = t.accepts p ts bd := by
  cases hv : t.valid with
  | true => rw [h.tag.2 hv]
  | false => simp only [Tag.accepts, ← h.valid_eq, hv, Bool.false_and]

/-- What a consumer accepts it reads the same in both. -/
theorem SameStage.eq_of_accepts {t u : Tag} {a b : List Int} (h : SameStage t u a b) {p : Plane} {ts : TxSize}
    {bd : BitDepth} (hacc : t.accepts p ts bd = true) : b = a :=
  (h.contents (congrArg Tag.valid ((t.accepts_iff p ts bd).1 hacc))).symm

/-- Two sets of scratch buffers agree, buffer by buffer. -/
structure SameScratch (c d : Scratch) : Prop where
  res : SameStage c.resTag d.resTag c.res d.res
  coef : SameStage c.coefTag d.coefTag c.coef d.coef
  qcoef : SameStage c.qcTag d.qcTag c.qcoef d.qcoef
  dqcoef : SameStage c.qcTag d.qcTag c.dqcoef d.dqcoef
  ires : SameStage c.iresTag d.iresTag c.ires d.ires
  cflac : SameStage c.cflacTag d.cflacTag c.cflac d.cflac

theorem SameScratch.refl (c : Scratch) : SameScratch c c :=
  ⟨.refl _ _, .refl _ _, .refl _ _, .refl _ _, .refl _ _, .refl _ _⟩

theorem sameButInvalidScratch_iff {s t : State} :
    SameButInvalidScratch s t ↔ t = { s with scr := t.scr } ∧ SameScratch s.scr t.scr := by
  constructor
  · rintro ⟨hother, hresT, hcoefT, hqcT, hiresT, hcflacT, hres, hcoef, hqcoef, hdqcoef, hires, hcflac⟩
    exact ⟨hother, ⟨hresT, hres⟩, ⟨hcoefT, hcoef⟩, ⟨hqcT, hqcoef⟩, ⟨hqcT, hdqcoef⟩, ⟨hiresT, hires⟩, ⟨hcflacT, hcflac⟩⟩
  · rintro ⟨hother, ⟨hresT, hres⟩, ⟨hcoefT, hcoef⟩, ⟨hqcT, hqcoef⟩, ⟨_, hdqcoef⟩, ⟨hiresT, hires⟩, ⟨hcflacT, hcflac⟩⟩
    exact ⟨hother, hresT, hcoefT, hqcT, hiresT, hcflacT, hres, hcoef, hqcoef, hdqcoef, hires, hcflac⟩

/-- TU_STATUS shows the valid bits and nothing else of the scratch buffers (10_state.md R52). -/
theorem State.readReg_of_sameScratch {s : State} {d : Scratch} (h : SameScratch s.scr d) (r : Reg) :
    State.readReg { s with scr := d } r = s.readReg r := by
  cases r with
  | tuStatus =>
    simp only [State.readReg, State.regValue, State.tuStatus, State.hcAny, h.res.valid_eq, h.coef.valid_eq,
      h.qcoef.valid_eq, h.ires.valid_eq, h.cflac.valid_eq]
  | _ => rfl

theorem State.readOffset_of_sameScratch {s : State} {d : Scratch} (h : SameScratch s.scr d) (off : Nat) :
    State.readOffset { s with scr := d } off = s.readOffset off := by
  unfold State.readOffset
  split
  · exact State.readReg_of_sameScratch h _
  · rfl

/-- A host compares register reads, memory and irq, and none of them tells the two states apart (44_control.md R258). -/
theorem sameObservable_of_sameButInvalidScratch {s t : State} (h : SameButInvalidScratch s t) : SameObservable s t := by
  obtain ⟨hother, hscr⟩ := sameButInvalidScratch_iff.1 h
  rw [hother]
  exact ⟨fun off => (State.readOffset_of_sameScratch hscr off).symm, fun _ => rfl, rfl⟩

/-! ## Invalid scratch buffers: what a command makes of two such states -/

/-- Two command results agree: the same error, or next states that agree. -/
inductive SameResult : Except CmdError State → Except CmdError State → Prop
  | error (e : CmdError) : SameResult (.error e) (.error e)
  | ok {t t' : State} (hother : t' = { t with scr := t'.scr }) (hscr : SameScratch t.scr t'.scr) :
      SameResult (.ok t) (.ok t')

/-- Results agree if the first check is the same and what follows agrees once it has passed. -/
theorem SameResult.bind {α : Type} {x : Except CmdError α} {f f' : α → Except CmdError State}
    (h : ∀ a, x = .ok a → SameResult (f a) (f' a)) : SameResult (x >>= f) (x >>= f') := by
  cases x with
  | ok a => exact h a rfl
  | error e => exact .error e

/-- A check of an input tag passes for both or for neither, and once it has passed the contents are the same. -/
theorem SameResult.needTag {t u : Tag} {a b : List Int} (h : SameStage t u a b) {p : Plane} {ts : TxSize} {bd : BitDepth}
    {k k' : Except CmdError State} (hk : b = a → SameResult k k') :
    SameResult (needTag t p ts bd >>= fun _ => k) (needTag u p ts bd >>= fun _ => k') := by
  rw [Machine.needTag, Machine.needTag, h.accepts_eq]
  exact .bind fun _ hacc => hk (h.eq_of_accepts ((require_eq_ok _ _ _).1 hacc))

section Commands

variable {s : State} {d : Scratch} (h : SameScratch s.scr d)
include h

/-- RESID and CFL_AC read no scratch buffer (40_transform.md R135, 42_cfl.md R202). -/
theorem sameResult_resid (p : Plane) : SameResult (resid p s) (resid p { s with scr := d }) :=
  .bind fun _ _ => .bind fun _ _ => .bind fun _ _ => .bind fun _ _ =>
    .ok rfl { h with
      res := .refl _ _, coef := .clear _ _ _ _, qcoef := .clear _ _ _ _, dqcoef := .clear _ _ _ _
      ires := .clear _ _ _ _ }

theorem sameResult_cflAc (f : Bool) : SameResult (cflAc f s) (cflAc f { s with scr := d }) :=
  .bind fun _ _ => .bind fun _ _ => .bind fun _ _ => .bind fun _ _ => .bind fun _ _ => .bind fun _ _ => .bind fun _ _ =>
    .ok rfl { h with cflac := .refl _ _ }

/-- FTX reads RES, after the check of its tag (40_transform.md R136). -/
theorem sameResult_ftx (P : Params) (p : Plane) : SameResult (ftx P p s) (ftx P p { s with scr := d }) := by
  refine .bind fun bd _ => .bind fun ts _ => .bind fun tt _ => .needTag h.res fun hres => ?_
  have hforward : State.forward P { s with scr := d } ts tt bd = s.forward P ts tt bd :=
    congrArg (P.fwdTx ts tt bd) hres
  rw [hforward]
  exact .bind fun _ _ => .ok rfl { h with
    coef := .refl _ _, qcoef := .clear _ _ _ _, dqcoef := .clear _ _ _ _, ires := .clear _ _ _ _ }

/-- QUANT reads COEF, after the check of its tag (41_quant.md R174). -/
theorem sameResult_quant (P : Params) (p : Plane) : SameResult (quant P p s) (quant P p { s with scr := d }) := by
  refine .bind fun bd _ => .bind fun ts _ => .bind fun tt _ => .needTag h.coef fun hcoef => ?_
  have hquantized : State.quantized P { s with scr := d } ts bd = s.quantized P ts bd :=
    congrArg (quantBlock P.qstep s.qindex bd ts.logScale ts.codedArea) hcoef
  rw [hquantized]
  exact .ok rfl { h with qcoef := .refl _ _, dqcoef := .refl _ _, ires := .clear _ _ _ _ }

/-- ITX reads DQCOEF, after the check of its tag (40_transform.md R138). -/
theorem sameResult_itx (P : Params) (p : Plane) : SameResult (itx P p s) (itx P p { s with scr := d }) := by
  refine .bind fun bd _ => .bind fun ts _ => .bind fun tt _ => .needTag h.dqcoef fun hdqcoef => ?_
  have hinverse : State.inverse P { s with scr := d } ts tt bd = s.inverse P ts tt bd :=
    congrArg (P.invTx ts tt bd) hdqcoef
  rw [hinverse]
  exact .bind fun _ _ => .ok rfl { h with ires := .refl _ _ }

/-- RECON reads IRES, after the check of its tag, and in the skip form not at all (40_transform.md R139). -/
theorem sameResult_recon (p : Plane) (skip : Bool) : SameResult (recon p skip s) (recon p skip { s with scr := d }) := by
  refine .bind fun bd _ => .bind fun ts _ => ?_
  show SameResult _ (require (skip || d.iresTag.accepts p ts bd) .seq >>= _)
  rw [h.ires.accepts_eq]
  refine .bind fun _ hacc => ?_
  have hsample : State.recSample { s with scr := d } p ts bd skip = s.recSample p ts bd skip := by
    cases skip with
    | true => rfl
    | false =>
      have hires : d.ires = s.scr.ires := h.ires.eq_of_accepts ((require_eq_ok _ _ _).1 hacc)
      unfold State.recSample
      rw [hires]
      rfl
  rw [hsample]
  exact .bind fun _ _ => .bind fun _ _ => .ok rfl h

/-- STCOEF reads QCOEF or DQCOEF, after the check of their tag (41_quant.md R178). -/
theorem sameResult_stcoef (p : Plane) (dequant : Bool) :
    SameResult (stcoef p dequant s) (stcoef p dequant { s with scr := d }) := by
  have hstage : SameStage s.scr.qcTag d.qcTag (s.storedCoefs dequant) (State.storedCoefs { s with scr := d } dequant) := by
    cases dequant with
    | true => exact h.dqcoef
    | false => exact h.qcoef
  refine .bind fun bd _ => .bind fun ts _ => .needTag hstage fun hstored => ?_
  rw [hstored]
  exact .bind fun _ _ => .ok rfl h

/-- CFL_PRED reads CFLAC, after the check of its tag (42_cfl.md R206). -/
theorem sameResult_cflPred (p : Plane) : SameResult (cflPred p s) (cflPred p { s with scr := d }) := by
  refine .bind fun _ _ => .bind fun bd _ => .bind fun ts _ => .bind fun _ _ => .bind fun _ _ =>
    .needTag h.cflac fun hcflac => ?_
  have hsample : State.cflSample { s with scr := d } p ts bd = s.cflSample p ts bd := by
    unfold State.cflSample
    rw [hcflac]
    rfl
  rw [hsample]
  exact .bind fun _ _ => .bind fun _ _ => .ok rfl h

/-- Every command, over its constructors: NOP, TXFLAG and DQP read and write no scratch buffer, TU_CLR clears the tags. -/
theorem sameResult_effect (i : Instr) : SameResult (effect i s) (effect i { s with scr := d }) := by
  cases i with
  | nop => exact .ok rfl h
  | resid p => exact sameResult_resid h p
  | ftx p => exact sameResult_ftx h _ p
  | quant p => exact sameResult_quant h _ p
  | itx p => exact sameResult_itx h _ p
  | recon p skip => exact sameResult_recon h p skip
  | txflag p => exact .bind fun _ _ => .bind fun _ _ => .ok rfl h
  | stcoef p dequant => exact sameResult_stcoef h p dequant
  | cflAc f => exact sameResult_cflAc h f
  | cflPred p => exact sameResult_cflPred h p
  | dqp f => exact .bind fun _ _ => .bind fun _ _ => .bind fun _ _ => .ok rfl h
  | tuClr =>
    exact .ok rfl ⟨.clear _ _ _ _, .clear _ _ _ _, .clear _ _ _ _, .clear _ _ _ _, .clear _ _ _ _, .clear _ _ _ _⟩

end Commands

/-! ## Invalid scratch buffers: what a step makes of two such states -/

/-- Two outcomes agree: next states that agree, or the same fault or refusal. -/
inductive SameOutcome : Host.Outcome State Fault Refusal → Host.Outcome State Fault Refusal → Prop
  | next {t t' : State} (hsame : SameButInvalidScratch t t') : SameOutcome (.next t) (.next t')
  | fault (r : Fault) : SameOutcome (.fault r) (.fault r)
  | refused (r : Refusal) : SameOutcome (.refused r) (.refused r)

theorem SameOutcome.of_scr {t t' : State} (hother : t' = { t with scr := t'.scr }) (hscr : SameScratch t.scr t'.scr) :
    SameOutcome (.next t) (.next t') := .next (sameButInvalidScratch_iff.2 ⟨hother, hscr⟩)

theorem SameOutcome.exists_next {t : State} {o : Host.Outcome State Fault Refusal} (h : SameOutcome (.next t) o) :
    ∃ t', o = .next t' ∧ SameButInvalidScratch t t' := by
  cases h with
  | next hsame => exact ⟨_, rfl, hsame⟩

section Events

variable {s : State} {d : Scratch} (h : SameScratch s.scr d)
include h

/-- The error entry leaves the scratch buffers as they are, and an effect that agrees is the next state (00_scope.md R11). -/
theorem sameOutcome_complete {r r' : Except CmdError State} (hr : SameResult r r') (w : Word) :
    SameOutcome (.next (s.complete w r)) (.next (State.complete { s with scr := d } w r')) := by
  cases hr with
  | error e => exact .of_scr rfl h
  | ok hother hscr => exact .of_scr hother hscr

theorem sameOutcome_exec (i : Instr) : SameOutcome (exec i s) (exec i { s with scr := d }) := by
  rw [exec_eq, exec_eq]
  exact sameOutcome_complete h (sameResult_effect h i) _

theorem sameOutcome_issue (w : Word) : SameOutcome (issue w s) (issue w { s with scr := d }) := by
  unfold issue
  show SameOutcome _ (if s.errFlag then _ else _)
  split
  · exact .of_scr rfl h
  · split
    · exact .of_scr rfl h
    · exact sameOutcome_exec h _

theorem sameOutcome_writeReg (r : Reg) (v : Word) :
    SameOutcome (.next (s.writeReg r v)) (.next (State.writeReg { s with scr := d } r v)) := by
  cases r with
  | ctrl =>
    simp only [State.writeReg, State.writeCtrl]
    split
    · exact .of_scr rfl (.refl _)
    · exact .of_scr rfl h
  | status =>
    simp only [State.writeReg, State.writeStatus]
    split <;> exact .of_scr rfl h
  | descOrg b p => cases b <;> exact .of_scr rfl h
  | _ => exact .of_scr rfl h

theorem sameOutcome_portWrite (off : BitVec 12) (v : Word) :
    SameOutcome (portWrite off v s) (portWrite off v { s with scr := d }) := by
  unfold portWrite
  split
  · exact .of_scr rfl h
  · exact sameOutcome_issue h v
  · exact sameOutcome_writeReg h _ v

theorem sameOutcome_hostEvent (e : HostEvent) : SameOutcome (hostEvent e s) (hostEvent e { s with scr := d }) := by
  cases e with
  | regWrite width off v =>
    simp only [hostEvent]
    split
    · exact sameOutcome_portWrite h off v
    · exact .refused _
  | regRead width off =>
    simp only [hostEvent, State.readOffset_of_sameScratch h]
    split
    · exact .of_scr rfl h
    · exact .refused _
  | memWrite n a v =>
    simp only [hostEvent]
    split
    · exact .of_scr rfl h
    · exact .fault _
  | rst => exact .of_scr rfl (.refl _)

theorem sameOutcome_step : SameOutcome (step s) (step { s with scr := d }) := by
  cases hp : s.port.pending with
  | nil =>
    rw [step_of_idle hp, step_of_idle (s := { s with scr := d }) hp]
    exact .of_scr rfl h
  | cons e rest =>
    have hadvance : State.advance { s with scr := d } = { s.advance with scr := d } := by
      rw [s.advance_of_pending hp, State.advance_of_pending { s with scr := d } hp]
    rw [step_of_pending hp, step_of_pending (s := { s with scr := d }) hp, hadvance]
    exact sameOutcome_hostEvent (s.advance_scr ▸ h) e

end Events

/-- Settles O44: the second state is the first with other scratch buffers that agree; both steps have outcomes that agree,
and a host cannot tell states that agree apart. -/
theorem invalidScratchUnobservable : Obligations.InvalidScratchUnobservable := by
  intro s s' t hsame hstep
  obtain ⟨hother, hscr⟩ := sameButInvalidScratch_iff.1 hsame
  have hout : SameOutcome (step s) (step s') := hother ▸ sameOutcome_step hscr
  rw [hstep] at hout
  obtain ⟨t', hstep', ht⟩ := hout.exists_next
  exact ⟨t', hstep', ht, sameObservable_of_sameButInvalidScratch ht⟩

end Sys2Proof.Machine

/-! PROOFS of the register map's encoding: offsets and the lookup by offset are inverse to each other. -/

/-! ## The offsets of the register map -/

namespace Sys2Proof.Machine

/-- The converse of `Reg.ofOffset_offset`: a lookup finds only a register at the offset asked for. -/
theorem Reg.offset_of_ofOffset {off : Nat} {r : Reg} (h : Reg.ofOffset off = some r) : r.offset = off :=
  beq_iff_eq.1 (List.find?_some (p := fun q : Reg => q.offset == off) h)

/-- Settles O11: each register is found again at its offset, a lookup finds a register at the offset asked for, and the
listing of the map is a closed computation. -/
theorem registerMapRoundTrip : Obligations.RegisterMapRoundTrip :=
  ⟨Reg.ofOffset_offset, fun _ _ => Reg.offset_of_ofOffset, by decide⟩

end Sys2Proof.Machine
